-- ==== Sys2Proof/Word.lean ====
section
/-! DEFINITION. The words of the device: the widths the spec fixes (00_scope.md R6, R8, R14, R15). -/

namespace Sys2Proof

/-- One byte of the message buffer (10_state.md R28). -/
abbrev Byte := BitVec 8

/-- A control or status register, a cipher key register, a bus word, a command word
(10_state.md section 3 and R25, 20_memory.md R64, 30_encoding.md R90). -/
abbrev Word32 := BitVec 32

/-- The cipher's block and chaining registers (10_state.md R26, R27). -/
abbrev Block := BitVec 64

/-- A field/scalar register or a point coordinate: `NBITS = 256` (00_scope.md R6). -/
abbrev Word256 := BitVec 256

end Sys2Proof
end

