-- ==== Sys2Proof/Syntax.lean ====
section
/-! DEFINITION. The commands: one constructor for each row of spec/opcode_table.json (30_encoding.md
R95), with the operand kinds of R91. Register numbers are decoded here once; no command has an
immediate (R92). -/

namespace Sys2Proof

/-- `F`: the index of a field register, 0..15 (30_encoding.md R91). -/
abbrev FReg := Fin 16

/-- `P`: the index of a point register, 0..7 (30_encoding.md R91, R96 (d)). -/
abbrev PReg := Fin 8

/-- `kidx`: the index of a subkey, 0..7 (30_encoding.md R91, R96 (e)). -/
abbrev KIdx := Fin 8

/-- `Fpair`: index `i` names the pair `F[i]`, `F[i+1]`. The field has four bits; 15 is ill formed
(30_encoding.md R91, R96 (f)). -/
abbrev FPair := Fin 16

/-- `sel`: a curve-constant selector. The field has four bits; 6..15 are ill formed
(30_encoding.md R91, R96 (g); 47_control.md R221). -/
abbrev Sel := Fin 16

/-- The 29 commands of 30_encoding.md R95, operands in the order `d, s1, s2, s3` (R100). -/
inductive Instr where
  | nop
  | modadd (d s1 s2 s3 : FReg)
  | modsub (d s1 s2 s3 : FReg)
  | modred (d s1 s2 s3 : FReg)
  | montmul (d s1 s2 s3 : FReg)
  | tomont (d s1 s3 : FReg)
  | frommont (d s1 s3 : FReg)
  | modmul (d s1 s2 s3 : FReg)
  | modexp (d s1 s2 s3 : FReg)
  | modinv (d s1 s3 : FReg)
  | ecadd (d s1 s2 : PReg)
  | ecmul (d s1 : PReg) (s2 : FReg)
  | ecchk (d : FReg) (s1 : PReg)
  | hash (d : FReg)
  | keygen (d : PReg) (s1 : FReg)
  | ecdh (d s1 : FReg) (s2 : PReg)
  | ecdsaSign (d : FPair) (s1 s2 s3 : FReg)
  | ecdsaVerify (d s1 : FReg) (s2 : FPair) (s3 : PReg)
  | benc
  | bdec
  | cbcenc
  | cbcdec
  | fround (s1 : KIdx)
  | fswap
  | keyldf (s1 : FReg)
  | fmov (d s1 : FReg)
  | curvec (d : FReg) (s1 : Sel)
  | pmov (d s1 : PReg)
  | pldg (d : PReg)
deriving DecidableEq, Repr

end Sys2Proof
end

