-- ==== Sys2Proof/WellFormed.lean ====
section
/-! DEFINITION. Which commands are well formed: the value tests of 30_encoding.md R96 (f) and (g),
the `constraints` column of spec/opcode_table.json. The bit tests (a) to (e) are in the operand
types and in `Decode.lean`. -/

namespace Sys2Proof

/-- 30_encoding.md R96 (f): an `Fpair` field is at most 14. -/
def FPair.ok (d : FPair) : Bool := decide (d.val ≤ 14)

/-- 30_encoding.md R96 (g): a `sel` field is at most 5. -/
def Sel.ok (s : Sel) : Bool := decide (s.val ≤ 5)

/-- A well-formed command: one that some legal word stands for (30_encoding.md R96). -/
def Instr.wf : Instr → Bool
  | .nop => true
  | .modadd _ _ _ _ => true
  | .modsub _ _ _ _ => true
  | .modred _ _ _ _ => true
  | .montmul _ _ _ _ => true
  | .tomont _ _ _ => true
  | .frommont _ _ _ => true
  | .modmul _ _ _ _ => true
  | .modexp _ _ _ _ => true
  | .modinv _ _ _ => true
  | .ecadd _ _ _ => true
  | .ecmul _ _ _ => true
  | .ecchk _ _ => true
  | .hash _ => true
  | .keygen _ _ => true
  | .ecdh _ _ _ => true
  | .ecdsaSign d _ _ _ => FPair.ok d
  | .ecdsaVerify _ _ s2 _ => FPair.ok s2
  | .benc => true
  | .bdec => true
  | .cbcenc => true
  | .cbcdec => true
  | .fround _ => true
  | .fswap => true
  | .keyldf _ => true
  | .fmov _ _ => true
  | .curvec _ s1 => Sel.ok s1
  | .pmov _ _ => true
  | .pldg _ => true

end Sys2Proof
end

