-- ==== Sys2Proof/Decode.lean ====
section
/-! DEFINITION. The decoder of command words, total on every 32-bit word and rejecting by name, and
the encoder (30_encoding.md R90 to R99). -/

namespace Sys2Proof

/-- Why a word is illegal: the conditions of 30_encoding.md R96. At perform they all report the one
code `ILLEGAL` (R97). -/
inductive DecodeError where
  /-- R96 (a): `z` is not 0. -/
  | reservedField
  /-- R96 (b): `op` is no row of R95. -/
  | unknownOpcode
  /-- R96 (c): an unused operand field is not 0. -/
  | unusedField
  /-- R96 (d): a `P` field has bit 3 set. -/
  | pointIndex
  /-- R96 (e): a `kidx` field has bit 3 set. -/
  | subkeyIndex
  /-- R96 (f): an `Fpair` field is 15. -/
  | pairIndex
  /-- R96 (g): a `sel` field is above 5. -/
  | selector
deriving DecidableEq, Repr

/-! The fields of `CMD32` (30_encoding.md R90). -/

def opField (w : Word32) : BitVec 8 := w.extractLsb' 0 8
def dField (w : Word32) : BitVec 4 := w.extractLsb' 8 4
def s1Field (w : Word32) : BitVec 4 := w.extractLsb' 12 4
def s2Field (w : Word32) : BitVec 4 := w.extractLsb' 16 4
def s3Field (w : Word32) : BitVec 4 := w.extractLsb' 20 4
def zField (w : Word32) : BitVec 8 := w.extractLsb' 24 8

/-! The operand kinds (30_encoding.md R91). -/

def readF (x : BitVec 4) : FReg := x.toFin

def readP (x : BitVec 4) : Except DecodeError PReg :=
  if h : x.toNat < 8 then .ok ⟨x.toNat, h⟩ else .error .pointIndex

def readKIdx (x : BitVec 4) : Except DecodeError KIdx :=
  if h : x.toNat < 8 then .ok ⟨x.toNat, h⟩ else .error .subkeyIndex

def readFPair (x : BitVec 4) : Except DecodeError FPair :=
  if FPair.ok x.toFin then .ok x.toFin else .error .pairIndex

def readSel (x : BitVec 4) : Except DecodeError Sel :=
  if Sel.ok x.toFin then .ok x.toFin else .error .selector

def readUnused (x : BitVec 4) : Except DecodeError Unit :=
  if x = 0#4 then .ok () else .error .unusedField

/-- The rows of 30_encoding.md R95, once the fields are cut out. -/
def decodeFields (op : BitVec 8) (d s1 s2 s3 : BitVec 4) : Except DecodeError Instr :=
  match op with
  | 0x00#8 => do readUnused d; readUnused s1; readUnused s2; readUnused s3; return .nop
  | 0x01#8 => return .modadd (readF d) (readF s1) (readF s2) (readF s3)
  | 0x02#8 => return .modsub (readF d) (readF s1) (readF s2) (readF s3)
  | 0x03#8 => return .modred (readF d) (readF s1) (readF s2) (readF s3)
  | 0x04#8 => return .montmul (readF d) (readF s1) (readF s2) (readF s3)
  | 0x05#8 => do readUnused s2; return .tomont (readF d) (readF s1) (readF s3)
  | 0x06#8 => do readUnused s2; return .frommont (readF d) (readF s1) (readF s3)
  | 0x07#8 => return .modmul (readF d) (readF s1) (readF s2) (readF s3)
  | 0x08#8 => return .modexp (readF d) (readF s1) (readF s2) (readF s3)
  | 0x09#8 => do readUnused s2; return .modinv (readF d) (readF s1) (readF s3)
  | 0x10#8 => do readUnused s3; return .ecadd (← readP d) (← readP s1) (← readP s2)
  | 0x11#8 => do readUnused s3; return .ecmul (← readP d) (← readP s1) (readF s2)
  | 0x12#8 => do readUnused s2; readUnused s3; return .ecchk (readF d) (← readP s1)
  | 0x20#8 => do readUnused s1; readUnused s2; readUnused s3; return .hash (readF d)
  | 0x30#8 => do readUnused s2; readUnused s3; return .keygen (← readP d) (readF s1)
  | 0x31#8 => do readUnused s3; return .ecdh (readF d) (readF s1) (← readP s2)
  | 0x38#8 => return .ecdsaSign (← readFPair d) (readF s1) (readF s2) (readF s3)
  | 0x39#8 => return .ecdsaVerify (readF d) (readF s1) (← readFPair s2) (← readP s3)
  | 0x50#8 => do readUnused d; readUnused s1; readUnused s2; readUnused s3; return .benc
  | 0x51#8 => do readUnused d; readUnused s1; readUnused s2; readUnused s3; return .bdec
  | 0x52#8 => do readUnused d; readUnused s1; readUnused s2; readUnused s3; return .cbcenc
  | 0x53#8 => do readUnused d; readUnused s1; readUnused s2; readUnused s3; return .cbcdec
  | 0x54#8 => do readUnused d; readUnused s2; readUnused s3; return .fround (← readKIdx s1)
  | 0x55#8 => do readUnused d; readUnused s1; readUnused s2; readUnused s3; return .fswap
  | 0x56#8 => do readUnused d; readUnused s2; readUnused s3; return .keyldf (readF s1)
  | 0x70#8 => do readUnused s2; readUnused s3; return .fmov (readF d) (readF s1)
  | 0x71#8 => do readUnused s2; readUnused s3; return .curvec (readF d) (← readSel s1)
  | 0x72#8 => do readUnused s2; readUnused s3; return .pmov (← readP d) (← readP s1)
  | 0x73#8 => do readUnused s1; readUnused s2; readUnused s3; return .pldg (← readP d)
  | _ => .error .unknownOpcode

/-- The decoder: the command a legal word stands for, or the first condition of R96 it breaks
(30_encoding.md R96, R97). Which condition is named is not observable (R97). -/
def decode (w : Word32) : Except DecodeError Instr :=
  if zField w = 0#8 then
    decodeFields (opField w) (dField w) (s1Field w) (s2Field w) (s3Field w)
  else .error .reservedField

/-! The encoder, written from the same table. -/

/-- A command word from its fields, `z = 0`: `op | d<<8 | s1<<12 | s2<<16 | s3<<20`
(30_encoding.md R90, R100). -/
def pack (op : BitVec 8) (d s1 s2 s3 : BitVec 4) : Word32 := 0#8 ++ s3 ++ s2 ++ s1 ++ d ++ op

def putF (i : FReg) : BitVec 4 := BitVec.ofFin i
def putP (i : PReg) : BitVec 4 := BitVec.ofNat 4 i.val
def putKIdx (i : KIdx) : BitVec 4 := BitVec.ofNat 4 i.val
def putFPair (i : FPair) : BitVec 4 := BitVec.ofFin i
def putSel (i : Sel) : BitVec 4 := BitVec.ofFin i

/-- The word of a command (30_encoding.md R90, R95). -/
def encode : Instr → Word32
  | .nop => pack 0x00#8 0 0 0 0
  | .modadd d s1 s2 s3 => pack 0x01#8 (putF d) (putF s1) (putF s2) (putF s3)
  | .modsub d s1 s2 s3 => pack 0x02#8 (putF d) (putF s1) (putF s2) (putF s3)
  | .modred d s1 s2 s3 => pack 0x03#8 (putF d) (putF s1) (putF s2) (putF s3)
  | .montmul d s1 s2 s3 => pack 0x04#8 (putF d) (putF s1) (putF s2) (putF s3)
  | .tomont d s1 s3 => pack 0x05#8 (putF d) (putF s1) 0 (putF s3)
  | .frommont d s1 s3 => pack 0x06#8 (putF d) (putF s1) 0 (putF s3)
  | .modmul d s1 s2 s3 => pack 0x07#8 (putF d) (putF s1) (putF s2) (putF s3)
  | .modexp d s1 s2 s3 => pack 0x08#8 (putF d) (putF s1) (putF s2) (putF s3)
  | .modinv d s1 s3 => pack 0x09#8 (putF d) (putF s1) 0 (putF s3)
  | .ecadd d s1 s2 => pack 0x10#8 (putP d) (putP s1) (putP s2) 0
  | .ecmul d s1 s2 => pack 0x11#8 (putP d) (putP s1) (putF s2) 0
  | .ecchk d s1 => pack 0x12#8 (putF d) (putP s1) 0 0
  | .hash d => pack 0x20#8 (putF d) 0 0 0
  | .keygen d s1 => pack 0x30#8 (putP d) (putF s1) 0 0
  | .ecdh d s1 s2 => pack 0x31#8 (putF d) (putF s1) (putP s2) 0
  | .ecdsaSign d s1 s2 s3 => pack 0x38#8 (putFPair d) (putF s1) (putF s2) (putF s3)
  | .ecdsaVerify d s1 s2 s3 => pack 0x39#8 (putF d) (putF s1) (putFPair s2) (putP s3)
  | .benc => pack 0x50#8 0 0 0 0
  | .bdec => pack 0x51#8 0 0 0 0
  | .cbcenc => pack 0x52#8 0 0 0 0
  | .cbcdec => pack 0x53#8 0 0 0 0
  | .fround s1 => pack 0x54#8 0 (putKIdx s1) 0 0
  | .fswap => pack 0x55#8 0 0 0 0
  | .keyldf s1 => pack 0x56#8 0 (putF s1) 0 0
  | .fmov d s1 => pack 0x70#8 (putF d) (putF s1) 0 0
  | .curvec d s1 => pack 0x71#8 (putF d) (putSel s1) 0 0
  | .pmov d s1 => pack 0x72#8 (putP d) (putP s1) 0 0
  | .pldg d => pack 0x73#8 (putP d) 0 0 0

/-- The command the decoder reads from a word numbered as spec/opcode_table.json numbers its bits.
Every command is one 32-bit word (30_encoding.md R99), so a set bit above bit 31 makes no command. -/
def decodeTableWord (nbits w : Nat) : Option Instr :=
  if w % 2 ^ nbits < 2 ^ 32 then (decode (BitVec.ofNat 32 (w % 2 ^ nbits))).toOption else none

end Sys2Proof
end

