-- ==== Sys2Proof/Machine/Arith.lean ====
section
/-! DEFINITION. The integer arithmetic the commands share: the non-negative remainder, modular
exponentiation, the Montgomery radix and its inverse, and the big-endian byte strings
(00_scope.md R16, R17, R19; 41_field.md R116, R122; 20_memory.md R71). -/

namespace Sys2Proof.Machine

/-- `x mod m` of 00_scope.md R16: the non-negative remainder, also of a negative `x`. -/
def residue (x : Int) (m : Nat) : Nat := (x % (m : Int)).toNat

/-- Square and multiply, least significant exponent bit first; `fuel` bounds the exponent's bits. -/
def powLoop (m : Nat) : (fuel base e acc : Nat) → Nat
  | 0, _, _, acc => acc
  | fuel + 1, base, e, acc =>
    if e = 0 then acc
    else powLoop m fuel (base * base % m) (e / 2) (if e % 2 = 1 then acc * base % m else acc)

/-- `a ^ b mod m` for an exponent of at most 256 bits (41_field.md R122).
`Laws/Arith.lean` proves it equal to the exact integer power reduced (log 18). -/
def powMod (a b m : Nat) : Nat := powLoop m 256 (a % m) b (1 % m)

/-- The Montgomery radix `R = 2^256` (41_field.md R116). -/
def montRadix : Nat := 2 ^ 256

/-- `Rinv` of 41_field.md R116, for odd `m`: `(m + 1) / 2` is the inverse of 2, so its 256th power
is the inverse of `R`. DEDUCED (log 17): the rule defines `Rinv` as the unique inverse. -/
def montInverse (m : Nat) : Nat := powMod ((m + 1) / 2) 256 m

/-- `inv_p` and `inv_n` of 00_scope.md R19: the inverse by Fermat exponentiation. -/
def invMod (v : Int) (m : Nat) : Nat := powMod (residue v m) (m - 2) m

/-- `I2OSP(x, len)` of 00_scope.md R17: big-endian, most significant byte first. -/
def i2osp : (len : Nat) → (x : Nat) → List Byte
  | 0, _ => []
  | len + 1, x => BitVec.ofNat 8 (x / 256 ^ len) :: i2osp len x

/-- `OS2IP(bytes)` of 00_scope.md R17. -/
def os2ip (bytes : List Byte) : Nat := bytes.foldl (fun acc b => acc * 256 + b.toNat) 0

end Sys2Proof.Machine
end

