-- ==== Sys2Proof/Machine/Curve.lean ====
section
/-! DEFINITION. The functions every curve command shares, over any curve: `onCurve`, `pointAdd` and
`scalarMult` (42_curve.md R140 to R142, 00_scope.md R19). -/

namespace Sys2Proof.Machine

/-- `CURVE = (p, a, b, Gx, Gy, n)` of 00_scope.md R9: `y^2 = x^3 + a x + b (mod p)`. -/
structure Curve where
  p : Nat
  a : Nat
  b : Nat
  gx : Nat
  gy : Nat
  n : Nat
deriving DecidableEq, Repr

/-- The contents of a point register (10_state.md R22). -/
structure Point where
  inf : Bool
  x : Word256
  y : Word256
deriving DecidableEq, Repr

/-- `INF`, the canonical Infinity (00_scope.md R17, 10_state.md R23). -/
def Point.infinity : Point := { inf := true, x := 0, y := 0 }

/-- Infinity in its canonical form; any other point as it is (10_state.md R23). -/
def Point.canonical (A : Point) : Point := if A.inf then Point.infinity else A

/-- The base point `G` (00_scope.md R9, 47_control.md R224). -/
def Curve.base (c : Curve) : Point :=
  { inf := false, x := BitVec.ofNat 256 c.gx, y := BitVec.ofNat 256 c.gy }

/-- A field point: Infinity, or both coordinates below `p` (10_state.md R24). -/
def isFieldPoint (c : Curve) (A : Point) : Bool :=
  A.inf || (decide (A.x.toNat < c.p) && decide (A.y.toNat < c.p))

/-- 42_curve.md R140. -/
def onCurve (c : Curve) (A : Point) : Bool :=
  if A.inf then true
  else if c.p ≤ A.x.toNat ∨ c.p ≤ A.y.toNat then false
  else decide (residue ((A.y.toNat : Int) ^ 2
    - ((A.x.toNat : Int) ^ 3 + c.a * A.x.toNat + c.b)) c.p = 0)

/-- The slope of 42_curve.md R141: the tangent's when the points are equal, else the chord's. -/
def slope (c : Curve) (A B : Point) : Nat :=
  if A.x = B.x ∧ A.y = B.y then
    residue ((3 * (A.x.toNat : Int) ^ 2 + c.a) * invMod (2 * A.y.toNat) c.p) c.p
  else
    residue (((B.y.toNat : Int) - A.y.toNat) * invMod ((B.x.toNat : Int) - A.x.toNat) c.p) c.p

/-- The third point of 42_curve.md R141 from the slope `lam`. -/
def thirdPoint (c : Curve) (lam : Nat) (A B : Point) : Point :=
  let x3 := residue ((lam : Int) ^ 2 - A.x.toNat - B.x.toNat) c.p
  let y3 := residue ((lam : Int) * ((A.x.toNat : Int) - x3) - A.y.toNat) c.p
  { inf := false, x := BitVec.ofNat 256 x3, y := BitVec.ofNat 256 y3 }

/-- 42_curve.md R141; the negation test is the one of 90_conflicts.md C2. -/
def pointAdd (c : Curve) (A B : Point) : Point :=
  if A.inf then B.canonical
  else if B.inf then A
  else if A.x = B.x ∧ (A.y.toNat + B.y.toNat) % c.p = 0 then Point.infinity
  else thirdPoint c (slope c A B) A B

/-- The loop of 42_curve.md R142, least significant bit first (92_eei_decisions.md D22). Once `k`
has no bits left it stops; `fuel` bounds the bits. -/
def doubleAndAdd (c : Curve) : (fuel k : Nat) → (acc add : Point) → Point
  | 0, _, acc, _ => acc
  | fuel + 1, k, acc, add =>
    if k = 0 then acc
    else doubleAndAdd c fuel (k / 2)
      (if k % 2 = 1 then pointAdd c acc add else acc) (pointAdd c add add)

/-- 42_curve.md R142: the scalar is reduced modulo the group order first. -/
def scalarMult (c : Curve) (k : Nat) (A : Point) : Point :=
  if k % c.n = 0 ∨ A.inf = true then Point.infinity
  else doubleAndAdd c 256 (k % c.n) Point.infinity A

end Sys2Proof.Machine
end

