-- ==== Sys2Proof/Config.lean ====
section
/-! DEFINITION. What the hardware fixes: the sizes of 00_scope.md R6 to R8 and R14, and the `OPEN`
parameters of R9 to R13, each an uninterpreted constant, so that every claim holds for every value;
and the free values of 93_implementation_defined.md U2 and U5. -/

namespace Sys2Proof.Config

/-- `MSGBUF_BYTES` (00_scope.md R8). -/
def msgbufBytes : Nat := 4096

/-- `XBYTES` (00_scope.md R14). -/
def xbytes : Nat := 32

/-- The constant of the `ID` register (00_scope.md R2, 10_state.md R30). -/
def idWord : Word32 := 0x4D4D0001#32

/-- The admissibility conditions (a) to (e) of 00_scope.md R9. In (d), `n·G` is the sum of `n`
copies of `G`, so it is not `scalarMult`, which reduces its scalar modulo `n` first. -/
structure Admissible (c : Machine.Curve) : Prop where
  p_prime : c.p.Prime
  p_odd : c.p % 2 = 1
  p_ge : 3 ≤ c.p
  p_lt : c.p < 2 ^ 256
  a_lt : c.a < c.p
  b_lt : c.b < c.p
  gx_lt : c.gx < c.p
  gy_lt : c.gy < c.p
  base_onCurve : Machine.onCurve c c.base = true
  n_prime : c.n.Prime
  n_odd : c.n % 2 = 1
  n_ge : 3 ≤ c.n
  n_lt : c.n < 2 ^ 256
  order : Machine.doubleAndAdd c 256 c.n Machine.Point.infinity c.base = Machine.Point.infinity
  nonsingular : (4 * c.a ^ 3 + 27 * c.b ^ 2) % c.p ≠ 0

/-- The curve `TOY` of 95_test_vectors.md section 0. It serves the tests, and shows below that an
admissible curve exists; nothing says that it is the device's. -/
def toy : Machine.Curve := { p := 97, a := 0, b := 7, gx := 1, gy := 28, n := 79 }

theorem toy_admissible : Admissible toy where
  p_prime := by norm_num [toy]
  p_odd := by decide
  p_ge := by decide
  p_lt := by decide
  a_lt := by decide
  b_lt := by decide
  gx_lt := by decide
  gy_lt := by decide
  base_onCurve := by decide +kernel
  n_prime := by norm_num [toy]
  n_odd := by decide
  n_ge := by decide
  n_lt := by decide
  order := by decide +kernel
  nonsingular := by decide

/-- A curve with the proof that it is admissible: a configuration that violates 00_scope.md R9 is
refused by having no value here (93_implementation_defined.md U1; log 7). The default values only
show that the type is inhabited. -/
structure AdmissibleCurve where
  curve : Machine.Curve := toy
  admissible : Admissible curve := by exact toy_admissible
deriving Inhabited

/-- The hardwired `CURVE`, `OPEN` (00_scope.md R9): any admissible curve, and no proof can see
which (log 7). -/
opaque hardwired : AdmissibleCurve

/-- The hardwired `CURVE` (00_scope.md R9). -/
def curve : Machine.Curve := hardwired.curve

theorem curve_admissible : Admissible curve := hardwired.admissible

/-- `H`, `OPEN` (00_scope.md R10, 43_hash.md R161): total, 32 bytes out, nothing else known
(log 8). -/
opaque hash : List Byte → Vector Byte 32

/-- `SBOX[i][v]`, `OPEN` (00_scope.md R11): any 4-bit entries (log 9). -/
opaque sbox : Fin 8 → BitVec 4 → BitVec 4

/-- Which multiple of `0x2000` the window's base address is: the platform's, `OPEN` (log 11). -/
opaque baseIndex : Nat

/-- `BASE`, a multiple of `0x2000` (00_scope.md R13, 20_memory.md R60). -/
def base : Nat := 0x2000 * baseIndex

/-- The free value of the `k`-th host read of a data register while `BUSY = 1`
(70_reset_and_hazards.md R272, U5; log 4). -/
opaque busyRead : (k : Nat) → Word32

/-- The free value that byte `j` of `MSGBUF` holds after power-on number `epoch`
(10_state.md R28, U2; log 5). -/
opaque powerOnByte : (epoch j : Nat) → Byte

end Sys2Proof.Config
end

