-- ==== Sys2Proof/Machine/State.lean ====
section
/-! DEFINITION. The state of the device (10_state.md R20), as plain data, and its value after
power-on reset (R44). -/

namespace Sys2Proof.Machine

/-- Why a step stops. Both faults are errors of the host program; the run is not final
(20_memory.md R64, 93_implementation_defined.md U3). No command raises one. -/
inductive Fault where
  /-- `BusAccessFault`: raised by a host access that is not 32 bits wide or not at a multiple of 4.
  Safe: the spec gives such an access no effect (log 12). -/
  | busAccess
  /-- Raised by a host access at an offset outside the 8 KiB window. Safe: the offset is not the
  device's (20_memory.md R60; log 13). -/
  | outsideWindow
deriving DecidableEq, Repr

/-- Why an instruction has no meaning. -/
inductive Refusal where
  /-- Raised by `exec`'s arm for a command that has no meaning yet (no arm at present). Safe. -/
  | notModelled (mnemonic : String)
deriving DecidableEq, Repr

/-- The values of `STATUS.ERR` (60_exceptions.md R230). The codes 10 to 15 are never produced (U8),
so they have no constructor (log 15). -/
inductive ErrCode where
  | ok
  | illegal
  | badModulus
  | badOperand
  | invalidPublicKey
  | degenerateSecret
  | invalidScalar
  | nonceRejected
  | badLength
  | keygenCheckFailed
deriving DecidableEq, Repr

/-- What the outside of the device can do next. The MODEL's own type: the host, the platform and
the engine take turns, and the list of these says whose turn it is (log 1). -/
inductive Input where
  /-- A host read of `width` bytes at a byte offset of the window (20_memory.md R64). -/
  | read (width offset : Nat)
  /-- A host write of `width` bytes; `value` is what a 32-bit write carries (20_memory.md R64). -/
  | write (width offset : Nat) (value : Word32)
  /-- The platform asserts power-on reset (70_reset_and_hazards.md R260). -/
  | powerOn
  /-- The engine has its turn before the host's next access (10_state.md R42). -/
  | engine
deriving DecidableEq, Repr

/-- The bytes of the message buffer written since power-on, at their window offsets
(20_memory.md R66): addresses strictly rising. -/
abbrev Memory := List Host.Cell

/-- The architectural state (10_state.md R20), and below it the model's own fields. `ID` is a
constant (R30), `irq` a function of the state (R38), `STATUS.BUSY` is `State.busy`. -/
structure State where
  /-- `F0`..`F15` (10_state.md R21). -/
  f : Vector Word256 16
  /-- `P0`..`P7` (10_state.md R22). -/
  p : Vector Point 8
  /-- `KEY0`..`KEY7` (10_state.md R25). -/
  key : Vector Word32 8
  /-- `BLK` (10_state.md R26). -/
  blk : Block
  /-- `CHAIN` (10_state.md R27). -/
  chain : Block
  /-- `MSGBUF`: the bytes written since power-on (10_state.md R28). -/
  mem : Memory
  /-- `MSGLEN` (10_state.md R29). -/
  msglen : Word32
  /-- `CTRL.IE` (10_state.md R31). -/
  ie : Bool
  /-- `STATUS.DONE` (10_state.md R32). -/
  done : Bool
  /-- `STATUS.HAZ` (10_state.md R32). -/
  haz : Bool
  /-- `STATUS.ERR` (10_state.md R32, 60_exceptions.md R230). -/
  err : ErrCode
  /-- `CMD`: the last accepted command word (10_state.md R34). -/
  cmd : Word32
  /-- `PENDING`: the command accepted and not yet performed; there is one exactly while `BUSY = 1`
  (10_state.md R39; log 14). -/
  pending : Option Word32
  /-- The model's own: what the host and the platform do next, oldest first (log 1). -/
  inputs : List Input
  /-- The model's own: what the last host read returned (log 3). -/
  answer : Option Word32
  /-- The model's own: how many free values host reads have drawn so far (log 4). -/
  draws : Nat
  /-- The model's own: the number of power-on resets, which the free bytes of `MSGBUF` belong to
  (log 5). -/
  epoch : Nat
deriving DecidableEq, Repr

/-- After power-on reset (10_state.md R44). No byte of `MSGBUF` is listed: each reads as a free
value (R28, U2). The last four fields are the model's own (log 6). -/
def State.reset : State where
  f := Vector.replicate 16 0#256
  p := Vector.replicate 8 Point.infinity
  key := Vector.replicate 8 0#32
  blk := 0#64
  chain := 0#64
  mem := []
  msglen := 0#32
  ie := false
  done := false
  haz := false
  err := .ok
  cmd := 0#32
  pending := none
  inputs := []
  answer := none
  draws := 0
  epoch := 0

/-- `STATUS.BUSY` (10_state.md R32): 1 exactly while a command is pending (R39, R42; log 14). -/
def State.busy (s : State) : Bool := s.pending.isSome

end Sys2Proof.Machine
end

