-- ==== Sys2Proof/Machine/Ops.lean ====
section
/-! DEFINITION. The named operations over memory and registers, and the command lifecycle: how a
command is accepted, completes, fails, and how the two resets act (10_state.md R42,
60_exceptions.md R232, 70_reset_and_hazards.md R260 to R262). -/

namespace Sys2Proof.Machine

/-! ## Memory -/

/-- The first window offset of `MSGBUF` (20_memory.md R61). -/
def msgBase : Nat := 0x1000

/-- The byte written at `addr` since power-on, if any. -/
def Memory.get : Memory → Nat → Option Byte
  | [], _ => none
  | (a, b) :: m, addr => if addr = a then some b else Memory.get m addr

/-- One byte stored, the addresses kept strictly rising. -/
def Memory.put : Memory → Nat → Byte → Memory
  | [], addr, v => [(addr, v)]
  | (a, b) :: m, addr, v =>
    if addr < a then (addr, v) :: (a, b) :: m
    else if addr = a then (addr, v) :: m
    else (a, b) :: Memory.put m addr v

/-- The canonical form: addresses strictly rising, all in `MSGBUF`'s range (20_memory.md R61). A
byte that is not listed has no value of the model's choosing, so no entry can equal it (log 5). -/
abbrev Memory.wf (m : Memory) : Prop :=
  List.Pairwise (fun c c' : Host.Cell => c.1 < c'.1) m
    ∧ ∀ c ∈ m, 0x1000 ≤ c.1 ∧ c.1 < 0x2000

/-- `MSGBUF[j]` (10_state.md R28): the byte written last, or the free value it has held since
power-on (93_implementation_defined.md U2; log 5). -/
def State.msgByte (s : State) (j : Nat) : Byte :=
  (s.mem.get (msgBase + j)).getD (Config.powerOnByte s.epoch j)

/-- `MSGBUF[j] <- v`. -/
def State.setMsgByte (j : Nat) (v : Byte) (s : State) : State :=
  { s with mem := s.mem.put (msgBase + j) v }

/-- `MSGBUF[0] || ... || MSGBUF[L-1]` with `L = MSGLEN` (43_hash.md R160). -/
def State.message (s : State) : List Byte := (List.range s.msglen.toNat).map s.msgByte

/-! ## Register files (00_scope.md R17) -/

/-- `F[i]`. -/
def State.getF (s : State) (i : FReg) : Word256 := s.f[i]

/-- `F[i] <- v`. -/
def State.setF (i : FReg) (v : Word256) (s : State) : State := { s with f := s.f.set i v }

/-- `P[i]`. -/
def State.getP (s : State) (i : PReg) : Point := s.p[i]

/-- `P[i] <- Q`. -/
def State.setP (i : PReg) (Q : Point) (s : State) : State := { s with p := s.p.set i Q }

/-- `KEY[i]`. -/
def State.getKey (s : State) (i : KIdx) : Word32 := s.key[i]

/-- `KEY[i] <- v`. -/
def State.setKey (i : KIdx) (v : Word32) (s : State) : State := { s with key := s.key.set i v }

/-! ## The command lifecycle (10_state.md R42) -/

/-- Acceptance of the command word `w`: event 1 of 10_state.md R42. -/
def State.accept (w : Word32) (s : State) : State :=
  { s with cmd := w, pending := some w, done := false, err := .ok }

/-- Completion with a result code: event 3 of 10_state.md R42. -/
def State.complete (code : ErrCode) (s : State) : State :=
  { s with pending := none, done := true, err := code }

/-- `fail(CODE)` (00_scope.md R17, 60_exceptions.md R232): no destination is written, and the
command completes with the code. The device takes no exception beyond this, and saves nothing
(60_exceptions.md R239). -/
def State.fail (code : ErrCode) (s : State) : State := s.complete code

/-- A command that writes one field register, or fails. -/
def State.commitF (d : FReg) (r : Except ErrCode Word256) (s : State) : State :=
  match r with
  | .ok v => (s.setF d v).complete .ok
  | .error code => s.fail code

/-- A command that writes one point register, or fails. -/
def State.commitP (d : PReg) (r : Except ErrCode Point) (s : State) : State :=
  match r with
  | .ok Q => (s.setP d Q).complete .ok
  | .error code => s.fail code

/-- A command that writes the pair `F[d]`, `F[d+1]`, or fails: all destinations or none
(00_scope.md R18). -/
def State.commitPair (d : FPair) (r : Except ErrCode (Word256 × Word256)) (s : State) : State :=
  match r with
  | .ok (v, v') => ((s.setF d v).setF (d + 1) v').complete .ok
  | .error code => s.fail code

/-- A command that writes `BLK`. -/
def State.commitBlk (x : Block) (s : State) : State :=
  { s with blk := x }.complete .ok

/-- A command that writes `BLK` and `CHAIN`. -/
def State.commitBlkChain (x c : Block) (s : State) : State :=
  { s with blk := x, chain := c }.complete .ok

/-! ## Resets -/

/-- Soft reset (70_reset_and_hazards.md R261, R262; 10_state.md R44): every register to its reset
value, a pending command abandoned, `MSGBUF` unchanged. The model's own fields go on. -/
def State.softReset (s : State) : State :=
  { State.reset with
    mem := s.mem, inputs := s.inputs, answer := s.answer, draws := s.draws, epoch := s.epoch }

/-- Power-on reset (70_reset_and_hazards.md R260; 10_state.md R44): as soft reset, and every byte of
`MSGBUF` takes a fresh free value (U2; log 5, log 20). -/
def State.powerOnReset (s : State) : State :=
  { State.reset with
    inputs := s.inputs, answer := s.answer, draws := s.draws, epoch := s.epoch + 1 }

end Sys2Proof.Machine
end

