-- ==== Sys2Proof/Machine/Operands.lean ====
section
/-! DEFINITION. The forms operands take: the two registers of a pair, the curve constants a selector
names, the halves of a block, the 32-bit words of a wide register (30_encoding.md R91,
47_control.md R221, 10_state.md R26, 20_memory.md R62, R63, R65). -/

namespace Sys2Proof.Machine

/-- The second register of an `Fpair` (30_encoding.md R91). -/
def pairSecond (d : FPair) : FReg := d + 1

/-- The curve constants `p, a, b, Gx, Gy, n`, in the order of `sel` (47_control.md R221); a selector
above 5 names none. -/
def curveConstant (c : Curve) (sel : Sel) : Option Nat :=
  [c.p, c.a, c.b, c.gx, c.gy, c.n][sel.val]?

/-- `L = BLK[63:32]` (10_state.md R26). -/
def leftHalf (x : Block) : Word32 := x.extractLsb' 32 32

/-- `R = BLK[31:0]` (10_state.md R26). -/
def rightHalf (x : Block) : Word32 := x.extractLsb' 0 32

/-- `L || R` (00_scope.md R15). -/
def joinHalves (l r : Word32) : Block := l ++ r

/-- Word `j` of a wide register: bits `32j+31 : 32j`, least significant word first
(20_memory.md R62, R65). -/
def wordOf {n : Nat} (v : BitVec n) (j : Nat) : Word32 := v.extractLsb' (32 * j) 32

/-- The register with word `j` replaced, its other words unchanged (20_memory.md R62). -/
def withWord {n : Nat} (v : BitVec n) (j : Nat) (w : Word32) : BitVec n :=
  (v &&& ~~~((0xFFFFFFFF#32).setWidth n <<< (32 * j))) ||| (w.setWidth n <<< (32 * j))

end Sys2Proof.Machine
end

