-- ==== Sys2Proof/Machine/Cipher.lean ====
section
/-! DEFINITION. The Feistel round engine, the key schedule and CBC chaining, over any S-box table and
then over the hardwired one (46_cipher.md R190 to R200). -/

namespace Sys2Proof.Machine

/-- Each nibble through its own S-box, nibble `i` through box `i` (46_cipher.md R190,
92_eei_decisions.md D24). -/
def substitute (sbox : Fin 8 → BitVec 4 → BitVec 4) (t : Word32) : Word32 :=
  let u (i : Fin 8) : BitVec 4 := sbox i (t.extractLsb' (4 * i) 4)
  u 7 ++ u 6 ++ u 5 ++ u 4 ++ u 3 ++ u 2 ++ u 1 ++ u 0

/-- The round function `f(Rh, K)` of 46_cipher.md R190. -/
def roundFunction (sbox : Fin 8 → BitVec 4 → BitVec 4) (rh k : Word32) : Word32 :=
  (substitute sbox (rh + k)).rotateLeft 11

/-- One Feistel round (46_cipher.md R191). -/
def feistelRound (sbox : Fin 8 → BitVec 4 → BitVec 4) (x : Block) (k : Word32) : Block :=
  joinHalves (rightHalf x) (leftHalf x ^^^ roundFunction sbox (rightHalf x) k)

/-- `ENC_SEQ` (46_cipher.md R192). -/
def encSeq : List KIdx :=
  [0, 1, 2, 3, 4, 5, 6, 7, 0, 1, 2, 3, 4, 5, 6, 7, 0, 1, 2, 3, 4, 5, 6, 7, 7, 6, 5, 4, 3, 2, 1, 0]

/-- `DEC_SEQ` (46_cipher.md R192). -/
def decSeq : List KIdx :=
  [0, 1, 2, 3, 4, 5, 6, 7, 7, 6, 5, 4, 3, 2, 1, 0, 7, 6, 5, 4, 3, 2, 1, 0, 7, 6, 5, 4, 3, 2, 1, 0]

/-- The halves exchanged (46_cipher.md R194, R199). -/
def swapHalves (x : Block) : Block := joinHalves (rightHalf x) (leftHalf x)

/-- The rounds of a subkey sequence, one after another (46_cipher.md R194). -/
def runRounds (sbox : Fin 8 → BitVec 4 → BitVec 4) (key : Vector Word32 8) (seq : List KIdx)
    (x : Block) : Block :=
  seq.foldl (fun y i => feistelRound sbox y key[i]) x

/-- `E(X)` of 46_cipher.md R194: 32 rounds and the final swap. -/
def encryptBlock (sbox : Fin 8 → BitVec 4 → BitVec 4) (key : Vector Word32 8) (x : Block) : Block :=
  swapHalves (runRounds sbox key encSeq x)

/-- `D(X)` of 46_cipher.md R195. -/
def decryptBlock (sbox : Fin 8 → BitVec 4 → BitVec 4) (key : Vector Word32 8) (x : Block) : Block :=
  swapHalves (runRounds sbox key decSeq x)

/-- `BENC` (46_cipher.md R194). -/
def execBenc (s : State) : Host.Outcome State Fault Refusal :=
  .next (s.commitBlk (encryptBlock Config.sbox s.key s.blk))

/-- `BDEC` (46_cipher.md R195). -/
def execBdec (s : State) : Host.Outcome State Fault Refusal :=
  .next (s.commitBlk (decryptBlock Config.sbox s.key s.blk))

/-- `CBCENC` (46_cipher.md R197). -/
def execCbcenc (s : State) : Host.Outcome State Fault Refusal :=
  let c := encryptBlock Config.sbox s.key (s.blk ^^^ s.chain)
  .next (s.commitBlkChain c c)

/-- `CBCDEC` (46_cipher.md R198): `CHAIN` takes the ciphertext block. -/
def execCbcdec (s : State) : Host.Outcome State Fault Refusal :=
  .next (s.commitBlkChain (decryptBlock Config.sbox s.key s.blk ^^^ s.chain) s.blk)

/-- `FROUND Ki` (46_cipher.md R196): one round, no final swap. -/
def execFround (s1 : KIdx) (s : State) : Host.Outcome State Fault Refusal :=
  .next (s.commitBlk (feistelRound Config.sbox s.blk (s.getKey s1)))

/-- `FSWAP` (46_cipher.md R199). -/
def execFswap (s : State) : Host.Outcome State Fault Refusal :=
  .next (s.commitBlk (swapHalves s.blk))

/-- The eight subkeys of a field register, `KEY[0]` the most significant word
(46_cipher.md R200). -/
def subkeysOf (v : Word256) : Vector Word32 8 :=
  Vector.ofFn fun i : Fin 8 => v.extractLsb' (224 - 32 * i.val) 32

/-- `KEYLDF Fs1` (46_cipher.md R200). -/
def execKeyldf (s1 : FReg) (s : State) : Host.Outcome State Fault Refusal :=
  .next ({ s with key := subkeysOf (s.getF s1) }.complete .ok)

end Sys2Proof.Machine
end

