-- ==== Sys2Proof/Machine/Control.lean ====
section
/-! DEFINITION. Control and data movement (47_control.md R220 to R224). -/

namespace Sys2Proof.Machine

/-- `NOP` (47_control.md R220): it completes, and does nothing else. -/
def execNop (s : State) : Host.Outcome State Fault Refusal := .next (s.complete .ok)

/-- `FMOV Fd, Fs1` (47_control.md R222). -/
def execFmov (d s1 : FReg) (s : State) : Host.Outcome State Fault Refusal :=
  .next (s.commitF d (.ok (s.getF s1)))

/-- The result of `CURVEC` (47_control.md R221); a selector that names no constant, which no legal
word holds, is `ILLEGAL` (log 16). -/
def curveConstantResult (c : Curve) (sel : Sel) : Except ErrCode Word256 :=
  match curveConstant c sel with
  | some v => .ok (BitVec.ofNat 256 v)
  | none => .error .illegal

/-- `CURVEC Fd, sel` (47_control.md R221). -/
def execCurvec (d : FReg) (s1 : Sel) (s : State) : Host.Outcome State Fault Refusal :=
  .next (s.commitF d (curveConstantResult Config.curve s1))

/-- `PMOV Pd, Ps1` (47_control.md R223): an Infinity source is written canonical, and no check is
made of any other. -/
def execPmov (d s1 : PReg) (s : State) : Host.Outcome State Fault Refusal :=
  .next (s.commitP d (.ok (s.getP s1).canonical))

/-- `PLDG Pd` (47_control.md R224). -/
def execPldg (d : PReg) (s : State) : Host.Outcome State Fault Refusal :=
  .next (s.commitP d (.ok Config.curve.base))

end Sys2Proof.Machine
end

