-- ==== Sys2Proof/Machine/Ec.lean ====
section
/-! DEFINITION. The elliptic-curve point adder and scalar multiplier (42_curve.md R143 to R145),
over any curve and then over the hardwired one. -/

namespace Sys2Proof.Machine

/-- 42_curve.md R143: non-field points are refused; no on-curve check is made. -/
def ecAddResult (c : Curve) (A B : Point) : Except ErrCode Point :=
  if isFieldPoint c A && isFieldPoint c B then .ok (pointAdd c A B) else .error .badOperand

/-- 42_curve.md R144. -/
def ecMulResult (c : Curve) (k : Word256) (A : Point) : Except ErrCode Point :=
  if isFieldPoint c A then .ok (scalarMult c k.toNat A) else .error .badOperand

/-- A boolean result in a field register (10_state.md R37). -/
def boolWord (b : Bool) : Word256 := if b then 1#256 else 0#256

/-- `ECADD Pd, Ps1, Ps2` (42_curve.md R143). -/
def execEcadd (d s1 s2 : PReg) (s : State) : Host.Outcome State Fault Refusal :=
  .next (s.commitP d (ecAddResult Config.curve (s.getP s1) (s.getP s2)))

/-- `ECMUL Pd, Ps1, Fs2` (42_curve.md R144). -/
def execEcmul (d s1 : PReg) (s2 : FReg) (s : State) : Host.Outcome State Fault Refusal :=
  .next (s.commitP d (ecMulResult Config.curve (s.getF s2) (s.getP s1)))

/-- `ECCHK Fd, Ps1` (42_curve.md R145). -/
def execEcchk (d : FReg) (s1 : PReg) (s : State) : Host.Outcome State Fault Refusal :=
  .next (s.commitF d (.ok (boolWord (onCurve Config.curve (s.getP s1)))))

end Sys2Proof.Machine
end

