-- ==== Sys2Proof/Machine/Hash.lean ====
section
/-! DEFINITION. The hash reference module (43_hash.md R160 to R163). -/

namespace Sys2Proof.Machine

/-- `OS2IP(H(bytes))`: the digest as an integer, below `2^256` (43_hash.md R162). -/
def digest (h : List Byte → Vector Byte 32) (bytes : List Byte) : Word256 :=
  BitVec.ofNat 256 (os2ip (h bytes).toList)

/-- 43_hash.md R160: `MSGLEN` above 4096 is refused, else the first `MSGLEN` bytes are hashed. -/
def hashResult (h : List Byte → Vector Byte 32) (s : State) : Except ErrCode Word256 :=
  if Config.msgbufBytes < s.msglen.toNat then .error .badLength else .ok (digest h s.message)

/-- `HASH Fd` (43_hash.md R160). -/
def execHash (d : FReg) (s : State) : Host.Outcome State Fault Refusal :=
  .next (s.commitF d (hashResult Config.hash s))

end Sys2Proof.Machine
end

