-- ==== Sys2Proof/Machine/Ecdh.lean ====
section
/-! DEFINITION. Key generation and shared-key derivation (44_ecdh.md R170, R171). -/

namespace Sys2Proof.Machine

/-- The range of private key material and of nonces, `[1, n - 1]` (44_ecdh.md R170,
45_ecdsa.md R180, 90_conflicts.md C10). -/
def inScalarRange (c : Curve) (k : Word256) : Bool :=
  decide (1 ≤ k.toNat) && decide (k.toNat ≤ c.n - 1)

/-- 44_ecdh.md R170: the range check, then `dk·G` with the defensive check of the result. -/
def keygenResult (c : Curve) (dk : Word256) : Except ErrCode Point :=
  if !inScalarRange c dk then .error .invalidScalar
  else
    let Q := scalarMult c dk.toNat c.base
    if Q.inf || !onCurve c Q then .error .keygenCheckFailed else .ok Q

/-- 44_ecdh.md R171: Infinity is refused first (90_conflicts.md C1), the private scalar is not range
checked (C10), and `S.x` is hashed as 32 big-endian bytes. -/
def ecdhResult (c : Curve) (h : List Byte → Vector Byte 32) (dk : Word256) (Q : Point) :
    Except ErrCode Word256 :=
  if Q.inf then .error .invalidPublicKey
  else if !onCurve c Q then .error .invalidPublicKey
  else
    let S := scalarMult c dk.toNat Q
    if S.inf then .error .degenerateSecret else .ok (digest h (i2osp Config.xbytes S.x.toNat))

/-- `KEYGEN Pd, Fs1` (44_ecdh.md R170). -/
def execKeygen (d : PReg) (s1 : FReg) (s : State) : Host.Outcome State Fault Refusal :=
  .next (s.commitP d (keygenResult Config.curve (s.getF s1)))

/-- `ECDH Fd, Fs1, Ps2` (44_ecdh.md R171). -/
def execEcdh (d s1 : FReg) (s2 : PReg) (s : State) : Host.Outcome State Fault Refusal :=
  .next (s.commitF d (ecdhResult Config.curve Config.hash (s.getF s1) (s.getP s2)))

end Sys2Proof.Machine
end

