-- ==== Sys2Proof/Machine/Ecdsa.lean ====
section
/-! DEFINITION. The ECDSA signature generator and verifier (45_ecdsa.md R180, R181). -/

namespace Sys2Proof.Machine

/-- 45_ecdsa.md R180: one attempt, with digest `e`, private scalar `dk` and nonce `k`, giving
`(r, s)`; the checks in the rule's order. -/
def signResult (c : Curve) (e dk k : Word256) : Except ErrCode (Word256 × Word256) :=
  if !inScalarRange c dk then .error .invalidScalar
  else if !inScalarRange c k then .error .invalidScalar
  else
    let z := e.toNat % c.n
    let R := scalarMult c k.toNat c.base
    let r := R.x.toNat % c.n
    let s := invMod k.toNat c.n * ((z + r * dk.toNat) % c.n) % c.n
    if R.inf then .error .nonceRejected
    else if r = 0 then .error .nonceRejected
    else if s = 0 then .error .nonceRejected
    else .ok (BitVec.ofNat 256 r, BitVec.ofNat 256 s)

/-- 45_ecdsa.md R181: whether the signature is accepted. -/
def verifyAccepts (c : Curve) (e r s : Word256) (Q : Point) : Bool :=
  if !inScalarRange c r || !inScalarRange c s then false
  else if Q.inf || !onCurve c Q then false
  else
    let z := e.toNat % c.n
    let w := invMod s.toNat c.n
    let u1 := z * w % c.n
    let u2 := r.toNat * w % c.n
    let X := pointAdd c (scalarMult c u1 c.base) (scalarMult c u2 Q)
    if X.inf then false else decide (X.x.toNat % c.n = r.toNat)

/-- `ECDSA_SIGN Fd:Fd+1, Fs1, Fs2, Fs3` (45_ecdsa.md R180). An `Fpair` of 15, which no legal word
holds, fails as an illegal word does (30_encoding.md R97; log 16). -/
def execEcdsaSign (d : FPair) (s1 s2 s3 : FReg) (s : State) : Host.Outcome State Fault Refusal :=
  .next (if FPair.ok d then
      s.commitPair d (signResult Config.curve (s.getF s1) (s.getF s2) (s.getF s3))
    else s.fail .illegal)

/-- `ECDSA_VERIFY Fd, Fs1, Fs2:Fs2+1, Ps3` (45_ecdsa.md R181). A rejection is a result, 0, not an
error. An `Fpair` of 15 fails as an illegal word does (log 16). -/
def execEcdsaVerify (d s1 : FReg) (s2 : FPair) (s3 : PReg) (s : State) :
    Host.Outcome State Fault Refusal :=
  .next (if FPair.ok s2 then
      s.commitF d (.ok (boolWord (verifyAccepts Config.curve
        (s.getF s1) (s.getF s2) (s.getF (pairSecond s2)) (s.getP s3))))
    else s.fail .illegal)

end Sys2Proof.Machine
end

