-- ==== Sys2Proof/Machine/Field.lean ====
section
/-! DEFINITION. Field arithmetic: the modular reducer and the Montgomery multiplier (41_field.md).
Each operation is exact integer arithmetic reduced (R110, R111); the modulus checks are R115 and
R117. -/

namespace Sys2Proof.Machine

/-- The modulus check of the reducer class (41_field.md R115), then the result `v` (below `m`, so it
fits the register, R110). -/
def reducerResult (m : Word256) (v : Nat) : Except ErrCode Word256 :=
  if m.toNat = 0 then .error .badModulus else .ok (BitVec.ofNat 256 v)

/-- The modulus check of the Montgomery class (41_field.md R117), then the result `v`. -/
def montgomeryResult (m : Word256) (v : Nat) : Except ErrCode Word256 :=
  if m.toNat % 2 = 0 then .error .badModulus else .ok (BitVec.ofNat 256 v)

/-- 41_field.md R112. -/
def modAdd (a b m : Word256) : Except ErrCode Word256 :=
  reducerResult m ((a.toNat + b.toNat) % m.toNat)

/-- 41_field.md R113; the remainder is the non-negative one of 00_scope.md R16. -/
def modSub (a b m : Word256) : Except ErrCode Word256 :=
  reducerResult m (residue ((a.toNat : Int) - b.toNat) m.toNat)

/-- 41_field.md R114: `hi` is the high half. -/
def modRed (hi lo m : Word256) : Except ErrCode Word256 :=
  reducerResult m ((hi.toNat * 2 ^ 256 + lo.toNat) % m.toNat)

/-- 41_field.md R118. -/
def montMul (a b m : Word256) : Except ErrCode Word256 :=
  montgomeryResult m (a.toNat * b.toNat * montInverse m.toNat % m.toNat)

/-- 41_field.md R119. -/
def toMont (a m : Word256) : Except ErrCode Word256 :=
  montgomeryResult m (a.toNat * montRadix % m.toNat)

/-- 41_field.md R120. -/
def fromMont (a m : Word256) : Except ErrCode Word256 :=
  montgomeryResult m (a.toNat * montInverse m.toNat % m.toNat)

/-- 41_field.md R121. -/
def modMul (a b m : Word256) : Except ErrCode Word256 :=
  montgomeryResult m (a.toNat * b.toNat % m.toNat)

/-- 41_field.md R122: the whole 256-bit exponent, with `a ^ 0 = 1`. -/
def modExp (a b m : Word256) : Except ErrCode Word256 :=
  montgomeryResult m (powMod a.toNat b.toNat m.toNat)

/-- 41_field.md R123: `a ^ (m - 2) mod m`, and 0 for `m = 1`. -/
def modInv (a m : Word256) : Except ErrCode Word256 :=
  montgomeryResult m (if m.toNat = 1 then 0 else powMod a.toNat (m.toNat - 2) m.toNat)

/-- `MODADD Fd, Fs1, Fs2, Fs3` (41_field.md R112). -/
def execModadd (d s1 s2 s3 : FReg) (s : State) : Host.Outcome State Fault Refusal :=
  .next (s.commitF d (modAdd (s.getF s1) (s.getF s2) (s.getF s3)))

/-- `MODSUB Fd, Fs1, Fs2, Fs3` (41_field.md R113). -/
def execModsub (d s1 s2 s3 : FReg) (s : State) : Host.Outcome State Fault Refusal :=
  .next (s.commitF d (modSub (s.getF s1) (s.getF s2) (s.getF s3)))

/-- `MODRED Fd, Fs1, Fs2, Fs3` (41_field.md R114). -/
def execModred (d s1 s2 s3 : FReg) (s : State) : Host.Outcome State Fault Refusal :=
  .next (s.commitF d (modRed (s.getF s1) (s.getF s2) (s.getF s3)))

/-- `MONTMUL Fd, Fs1, Fs2, Fs3` (41_field.md R118). -/
def execMontmul (d s1 s2 s3 : FReg) (s : State) : Host.Outcome State Fault Refusal :=
  .next (s.commitF d (montMul (s.getF s1) (s.getF s2) (s.getF s3)))

/-- `TOMONT Fd, Fs1, Fs3` (41_field.md R119). -/
def execTomont (d s1 s3 : FReg) (s : State) : Host.Outcome State Fault Refusal :=
  .next (s.commitF d (toMont (s.getF s1) (s.getF s3)))

/-- `FROMMONT Fd, Fs1, Fs3` (41_field.md R120). -/
def execFrommont (d s1 s3 : FReg) (s : State) : Host.Outcome State Fault Refusal :=
  .next (s.commitF d (fromMont (s.getF s1) (s.getF s3)))

/-- `MODMUL Fd, Fs1, Fs2, Fs3` (41_field.md R121). -/
def execModmul (d s1 s2 s3 : FReg) (s : State) : Host.Outcome State Fault Refusal :=
  .next (s.commitF d (modMul (s.getF s1) (s.getF s2) (s.getF s3)))

/-- `MODEXP Fd, Fs1, Fs2, Fs3` (41_field.md R122). -/
def execModexp (d s1 s2 s3 : FReg) (s : State) : Host.Outcome State Fault Refusal :=
  .next (s.commitF d (modExp (s.getF s1) (s.getF s2) (s.getF s3)))

/-- `MODINV Fd, Fs1, Fs3` (41_field.md R123). -/
def execModinv (d s1 s3 : FReg) (s : State) : Host.Outcome State Fault Refusal :=
  .next (s.commitF d (modInv (s.getF s1) (s.getF s3)))

end Sys2Proof.Machine
end

