-- ==== Sys2Proof/Machine/Dispatch.lean ====
section
/-! DEFINITION. Which meaning each command has (30_encoding.md R95): one arm per constructor. -/

namespace Sys2Proof.Machine

def exec (i : Instr) (s : State) : Host.Outcome State Fault Refusal :=
  match i with
  | .nop => Sys2Proof.Machine.execNop s
  | .modadd d s1 s2 s3 => Sys2Proof.Machine.execModadd d s1 s2 s3 s
  | .modsub d s1 s2 s3 => Sys2Proof.Machine.execModsub d s1 s2 s3 s
  | .modred d s1 s2 s3 => Sys2Proof.Machine.execModred d s1 s2 s3 s
  | .montmul d s1 s2 s3 => Sys2Proof.Machine.execMontmul d s1 s2 s3 s
  | .tomont d s1 s3 => Sys2Proof.Machine.execTomont d s1 s3 s
  | .frommont d s1 s3 => Sys2Proof.Machine.execFrommont d s1 s3 s
  | .modmul d s1 s2 s3 => Sys2Proof.Machine.execModmul d s1 s2 s3 s
  | .modexp d s1 s2 s3 => Sys2Proof.Machine.execModexp d s1 s2 s3 s
  | .modinv d s1 s3 => Sys2Proof.Machine.execModinv d s1 s3 s
  | .ecadd d s1 s2 => Sys2Proof.Machine.execEcadd d s1 s2 s
  | .ecmul d s1 s2 => Sys2Proof.Machine.execEcmul d s1 s2 s
  | .ecchk d s1 => Sys2Proof.Machine.execEcchk d s1 s
  | .hash d => Sys2Proof.Machine.execHash d s
  | .keygen d s1 => Sys2Proof.Machine.execKeygen d s1 s
  | .ecdh d s1 s2 => Sys2Proof.Machine.execEcdh d s1 s2 s
  | .ecdsaSign d s1 s2 s3 => Sys2Proof.Machine.execEcdsaSign d s1 s2 s3 s
  | .ecdsaVerify d s1 s2 s3 => Sys2Proof.Machine.execEcdsaVerify d s1 s2 s3 s
  | .benc => Sys2Proof.Machine.execBenc s
  | .bdec => Sys2Proof.Machine.execBdec s
  | .cbcenc => Sys2Proof.Machine.execCbcenc s
  | .cbcdec => Sys2Proof.Machine.execCbcdec s
  | .fround s1 => Sys2Proof.Machine.execFround s1 s
  | .fswap => Sys2Proof.Machine.execFswap s
  | .keyldf s1 => Sys2Proof.Machine.execKeyldf s1 s
  | .fmov d s1 => Sys2Proof.Machine.execFmov d s1 s
  | .curvec d s1 => Sys2Proof.Machine.execCurvec d s1 s
  | .pmov d s1 => Sys2Proof.Machine.execPmov d s1 s
  | .pldg d => Sys2Proof.Machine.execPldg d s

end Sys2Proof.Machine
end

