-- ==== Sys2Proof/Machine/Flags.lean ====
section
/-! DEFINITION. The status flags, the result code and the interrupt output. The device has no other
flags, and no command reads one (10_state.md R30 to R33, R37, R38; 60_exceptions.md R230, R236). -/

namespace Sys2Proof.Machine

/-- The number of a code (60_exceptions.md R230). -/
def ErrCode.number : ErrCode → BitVec 4
  | .ok => 0
  | .illegal => 1
  | .badModulus => 2
  | .badOperand => 3
  | .invalidPublicKey => 4
  | .degenerateSecret => 5
  | .invalidScalar => 6
  | .nonceRejected => 7
  | .badLength => 8
  | .keygenCheckFailed => 9

/-- The word a read of `STATUS` returns: `ERR` in 11:8, `HAZ`, `DONE`, `BUSY` in 2, 1, 0, every
reserved bit 0 (10_state.md R32). -/
def State.statusWord (s : State) : Word32 :=
  0#20 ++ s.err.number ++ 0#5 ++ BitVec.ofBool s.haz ++ BitVec.ofBool s.done ++ BitVec.ofBool s.busy

/-- The word a read of `CTRL` returns: `IE` in bit 0, `SRST` and the reserved bits 0
(10_state.md R31). -/
def State.ctrlWord (s : State) : Word32 := 0#31 ++ BitVec.ofBool s.ie

/-- `irq = CTRL.IE AND STATUS.DONE` (10_state.md R38, 60_exceptions.md R236). -/
def State.irq (s : State) : Bool := s.ie && s.done

/-- A write of `STATUS`: a 1 in bit 1 clears `DONE`, a 1 in bit 2 clears `HAZ`, nothing else
happens (10_state.md R32, R33). Clearing `DONE` is the host's acknowledgement, the only return
from a completion there is (60_exceptions.md R240). -/
def State.writeStatus (v : Word32) (s : State) : State :=
  { s with done := s.done && !v.getLsbD 1, haz := s.haz && !v.getLsbD 2 }

/-- A write of `CTRL`: with bit 1 a soft reset and nothing else, without it `IE` takes bit 0
(10_state.md R31, 70_reset_and_hazards.md R261). -/
def State.writeCtrl (v : Word32) (s : State) : State :=
  if v.getLsbD 1 then s.softReset else { s with ie := v.getLsbD 0 }

end Sys2Proof.Machine
end

