-- ==== Sys2Proof/Machine/Window.lean ====
section
/-! DEFINITION. The register window: the address map, and the host's reads and writes with the busy
rules (20_memory.md R60 to R69, 70_reset_and_hazards.md R270 to R272). -/

namespace Sys2Proof.Machine

/-- What a word of the window is (20_memory.md R61 to R63). -/
inductive Target where
  | id
  | ctrl
  | status
  | cmd
  | msglen
  | f (i : FReg) (j : Fin 8)
  | px (i : PReg) (j : Fin 8)
  | py (i : PReg) (j : Fin 8)
  | pinf (i : PReg)
  | key (i : KIdx)
  | blk (j : Fin 2)
  | chain (j : Fin 2)
  | msg (k : Fin 1024)
  | reserved
deriving DecidableEq, Repr

/-- The words of a point register (20_memory.md R63); `r` is the offset within it. -/
def locateP (i : PReg) (r : Nat) : Target :=
  if r < 0x20 then .px i (Fin.ofNat 8 (r / 4))
  else if r < 0x40 then .py i (Fin.ofNat 8 ((r - 0x20) / 4))
  else if r < 0x44 then .pinf i
  else .reserved

/-- The address map of 20_memory.md R61, for a word offset inside the window. -/
def locate (off : Nat) : Target :=
  if off < 0x004 then .id
  else if off < 0x008 then .ctrl
  else if off < 0x00C then .status
  else if off < 0x010 then .cmd
  else if off < 0x014 then .msglen
  else if off < 0x100 then .reserved
  else if off < 0x300 then
    .f (Fin.ofNat 16 ((off - 0x100) / 0x20)) (Fin.ofNat 8 ((off - 0x100) % 0x20 / 4))
  else if off < 0x600 then locateP (Fin.ofNat 8 ((off - 0x300) / 0x60)) ((off - 0x300) % 0x60)
  else if off < 0x620 then .key (Fin.ofNat 8 ((off - 0x600) / 4))
  else if off < 0x628 then .blk (Fin.ofNat 2 ((off - 0x620) / 4))
  else if off < 0x630 then .chain (Fin.ofNat 2 ((off - 0x628) / 4))
  else if off < 0x1000 then .reserved
  else .msg (Fin.ofNat 1024 ((off - 0x1000) / 4))

/-- A data register: one whose writes are dropped and whose reads are unspecified while `BUSY = 1`
(70_reset_and_hazards.md R270, R272). -/
def Target.isData : Target → Bool
  | .id => false
  | .ctrl => false
  | .status => false
  | .cmd => false
  | .msglen => true
  | .f _ _ => true
  | .px _ _ => true
  | .py _ _ => true
  | .pinf _ => true
  | .key _ => true
  | .blk _ => true
  | .chain _ => true
  | .msg _ => true
  | .reserved => false

/-- The word of `MSGBUF` at index `k`, little-endian byte lanes (20_memory.md R66). -/
def State.msgWord (s : State) (k : Nat) : Word32 :=
  s.msgByte (4 * k + 3) ++ s.msgByte (4 * k + 2) ++ s.msgByte (4 * k + 1) ++ s.msgByte (4 * k)

/-- The word of `MSGBUF` at index `k` replaced: all four bytes (20_memory.md R66). -/
def State.setMsgWord (k : Nat) (v : Word32) (s : State) : State :=
  (((s.setMsgByte (4 * k) (v.extractLsb' 0 8)).setMsgByte (4 * k + 1) (v.extractLsb' 8 8)).setMsgByte
    (4 * k + 2) (v.extractLsb' 16 8)).setMsgByte (4 * k + 3) (v.extractLsb' 24 8)

/-- The defined value of a window word (20_memory.md R61 to R63, R66, R67). -/
def State.readTarget (s : State) : Target → Word32
  | .id => Config.idWord
  | .ctrl => s.ctrlWord
  | .status => s.statusWord
  | .cmd => s.cmd
  | .msglen => s.msglen
  | .f i j => wordOf (s.getF i) j
  | .px i j => wordOf (s.getP i).x j
  | .py i j => wordOf (s.getP i).y j
  | .pinf i => 0#31 ++ BitVec.ofBool (s.getP i).inf
  | .key i => s.getKey i
  | .blk j => wordOf s.blk j
  | .chain j => wordOf s.chain j
  | .msg k => s.msgWord k
  | .reserved => 0#32

/-- A plain store of a data register's word (20_memory.md R61 to R63, R66, R69). -/
def State.storeTarget (v : Word32) (s : State) : Target → State
  | .id => s
  | .ctrl => s
  | .status => s
  | .cmd => s
  | .msglen => { s with msglen := v }
  | .f i j => s.setF i (withWord (s.getF i) j v)
  | .px i j => s.setP i { s.getP i with x := withWord (s.getP i).x j v }
  | .py i j => s.setP i { s.getP i with y := withWord (s.getP i).y j v }
  | .pinf i => s.setP i { s.getP i with inf := v.getLsbD 0 }
  | .key i => s.setKey i v
  | .blk j => { s with blk := withWord s.blk j v }
  | .chain j => { s with chain := withWord s.chain j v }
  | .msg k => s.setMsgWord k v
  | .reserved => s

/-- A host write of the 32-bit word at a word offset (20_memory.md R69, 10_state.md R31, R32, R34,
R42, 70_reset_and_hazards.md R270, R271). -/
def State.hostWrite (off : Nat) (v : Word32) (s : State) : State :=
  match locate off with
  | .ctrl => s.writeCtrl v
  | .status => s.writeStatus v
  | .cmd => if s.busy then { s with haz := true } else s.accept v
  | t =>
    if t.isData then
      if s.busy then { s with haz := true } else s.storeTarget v t
    else s

/-- The value a host read of the word at a word offset returns: of a data register while `BUSY = 1`
a free value, else the word's defined value (70_reset_and_hazards.md R270, R272, U5; log 4,
log 25). -/
def State.hostReadValue (off : Nat) (s : State) : Word32 :=
  if s.busy && (locate off).isData then Config.busyRead s.draws else s.readTarget (locate off)

/-- A host read: nothing of the device changes (20_memory.md R68). The model records the value it
returned, and counts a free value drawn (log 3, log 4). -/
def State.hostRead (off : Nat) (s : State) : State :=
  { s with
    answer := some (s.hostReadValue off)
    draws := if s.busy && (locate off).isData then s.draws + 1 else s.draws }

/-- The check every host access meets: 32 bits wide, at a multiple of 4, inside the window
(20_memory.md R60, R64; log 12, log 13). -/
def busFault (width off : Nat) : Option Fault :=
  if width ≠ 4 ∨ off % 4 ≠ 0 then some .busAccess
  else if 0x2000 ≤ off then some .outsideWindow
  else none

end Sys2Proof.Machine
end

