-- ==== Sys2Proof/Machine/Engine.lean ====
section
/-! DEFINITION. The engine's turn, the host's turn and the platform's: what one step of each agent
does (00_scope.md R3, 10_state.md R42, 20_memory.md R73, 60_exceptions.md R235). -/

namespace Sys2Proof.Machine

/-- The engine performs a command word: it decodes it, and an illegal word fails with `ILLEGAL`
(30_encoding.md R97). -/
def perform (w : Word32) (s : State) : Host.Outcome State Fault Refusal :=
  match decode w with
  | .ok i => exec i s
  | .error _ => .next (s.fail .illegal)

/-- The engine's turn: it performs the pending command (10_state.md R42), and with none pending it
is idle, and nothing changes (60_exceptions.md R247; log 19). -/
def engineTurn (s : State) : Host.Outcome State Fault Refusal :=
  match s.pending with
  | some w => perform w s
  | none => .next s

/-- One item from outside, already taken off the list. An undefined access faults
(20_memory.md R64). -/
def takeInput (x : Input) (s : State) : Host.Outcome State Fault Refusal :=
  match x with
  | .read width off =>
    match busFault width off with
    | some e => .fault e
    | none => .next (s.hostRead off)
  | .write width off v =>
    match busFault width off with
    | some e => .fault e
    | none => .next (s.hostWrite off v)
  | .powerOn => .next s.powerOnReset
  | .engine => engineTurn s

/-- One step of the machine: the next item from outside, and when there is none the engine, so that
a pending command is performed after finitely many host accesses (70_reset_and_hazards.md R275;
log 1). -/
def machineStep (s : State) : Host.Outcome State Fault Refusal :=
  match s.inputs with
  | [] => engineTurn s
  | x :: rest => takeInput x { s with inputs := rest }

end Sys2Proof.Machine
end

