-- ==== Sys2Proof/Machine/Step.lean ====
section
/-! DEFINITION. One step of the machine, and how an instruction is placed where the next step
performs it. -/

namespace Sys2Proof.Machine

/-- One step: an agent's turn (`machineStep`). -/
def step (s : State) : Host.Outcome State Fault Refusal := machineStep s

/-- The command word `w` accepted, with no host access waiting, so that the next step performs it.
The device fetches nothing: a command comes from a host write of `CMD` (10_state.md R41, R42), and
this stands for that write (log 2). -/
def State.withFetchWord (s : State) (nbits w : Nat) : State :=
  { s.accept (BitVec.ofNat 32 (w % 2 ^ nbits)) with inputs := [] }

end Sys2Proof.Machine
end

