-- ==== Sys2Proof/Machine/Assembler.lean ====
section
/-! DEFINITION. The text form of commands and the pseudo-instructions (30_encoding.md R100, R101). -/

namespace Sys2Proof.Machine

/-- `F<i>` (30_encoding.md R100). -/
def fText (i : FReg) : String := "F" ++ toString i.val

/-- `P<i>` (30_encoding.md R100). -/
def pText (i : PReg) : String := "P" ++ toString i.val

/-- `K<i>` (30_encoding.md R100). -/
def kText (i : KIdx) : String := "K" ++ toString i.val

/-- `F<i>:F<i+1>` (30_encoding.md R100). -/
def pairText (i : FPair) : String :=
  "F" ++ toString i.val ++ ":F" ++ toString (i.val + 1)

/-- `p`, `a`, `b`, `gx`, `gy` or `n` (30_encoding.md R100); no text for a selector above 5. -/
def selText (i : Sel) : String := (["p", "a", "b", "gx", "gy", "n"][i.val]?).getD ""

/-- A mnemonic and its operands, separated by commas (30_encoding.md R100). -/
def lineText (mnemonic : String) (operands : List String) : String :=
  if operands.isEmpty then mnemonic else mnemonic ++ " " ++ ", ".intercalate operands

/-- The text of a command: operands in the order `d, s1, s2, s3`, unused fields omitted
(30_encoding.md R100). -/
def asmText : Instr → String
  | .nop => lineText "NOP" []
  | .modadd d s1 s2 s3 => lineText "MODADD" [fText d, fText s1, fText s2, fText s3]
  | .modsub d s1 s2 s3 => lineText "MODSUB" [fText d, fText s1, fText s2, fText s3]
  | .modred d s1 s2 s3 => lineText "MODRED" [fText d, fText s1, fText s2, fText s3]
  | .montmul d s1 s2 s3 => lineText "MONTMUL" [fText d, fText s1, fText s2, fText s3]
  | .tomont d s1 s3 => lineText "TOMONT" [fText d, fText s1, fText s3]
  | .frommont d s1 s3 => lineText "FROMMONT" [fText d, fText s1, fText s3]
  | .modmul d s1 s2 s3 => lineText "MODMUL" [fText d, fText s1, fText s2, fText s3]
  | .modexp d s1 s2 s3 => lineText "MODEXP" [fText d, fText s1, fText s2, fText s3]
  | .modinv d s1 s3 => lineText "MODINV" [fText d, fText s1, fText s3]
  | .ecadd d s1 s2 => lineText "ECADD" [pText d, pText s1, pText s2]
  | .ecmul d s1 s2 => lineText "ECMUL" [pText d, pText s1, fText s2]
  | .ecchk d s1 => lineText "ECCHK" [fText d, pText s1]
  | .hash d => lineText "HASH" [fText d]
  | .keygen d s1 => lineText "KEYGEN" [pText d, fText s1]
  | .ecdh d s1 s2 => lineText "ECDH" [fText d, fText s1, pText s2]
  | .ecdsaSign d s1 s2 s3 => lineText "ECDSA_SIGN" [pairText d, fText s1, fText s2, fText s3]
  | .ecdsaVerify d s1 s2 s3 => lineText "ECDSA_VERIFY" [fText d, fText s1, pairText s2, pText s3]
  | .benc => lineText "BENC" []
  | .bdec => lineText "BDEC" []
  | .cbcenc => lineText "CBCENC" []
  | .cbcdec => lineText "CBCDEC" []
  | .fround s1 => lineText "FROUND" [kText s1]
  | .fswap => lineText "FSWAP" []
  | .keyldf s1 => lineText "KEYLDF" [fText s1]
  | .fmov d s1 => lineText "FMOV" [fText d, fText s1]
  | .curvec d s1 => lineText "CURVEC" [fText d, selText s1]
  | .pmov d s1 => lineText "PMOV" [pText d, pText s1]
  | .pldg d => lineText "PLDG" [pText d]

/-- The pseudo-instructions of 30_encoding.md R101; no other exists. -/
inductive Pseudo where
  | modsqr (d s m : FReg)
  | montsqr (d s m : FReg)
  | ecdbl (d s : PReg)
  | fzero (d s m : FReg)
deriving DecidableEq, Repr

/-- The one command a pseudo-instruction expands to (30_encoding.md R101). -/
def expandPseudo : Pseudo → Instr
  | .modsqr d s m => .modmul d s s m
  | .montsqr d s m => .montmul d s s m
  | .ecdbl d s => .ecadd d s s
  | .fzero d s m => .modsub d s s m

end Sys2Proof.Machine
end

