-- ==== Sys2Proof/Machine/HostProcedures.lean ====
section
/-! DEFINITION. The host's reference procedures: CBC over byte strings with padding (46_cipher.md
R202 to R205) and the signing loop (45_ecdsa.md R182). They are duties of the host program, not
behaviour of the device: each drives the device through the window, as one well-behaved host does
(70_reset_and_hazards.md R265, R276; log 24). -/

namespace Sys2Proof.Machine

/-- Why a host procedure ends without a result. -/
inductive HostFailure where
  /-- `DecryptionFailed` of 46_cipher.md R205. -/
  | decryptionFailed
  /-- `ECDSA_SIGN` reported `INVALID_SCALAR`: a bad private key (45_ecdsa.md R182), or, the model's
  choice, a nonce outside the range R182 draws from (log 27). -/
  | badPrivateKey
  /-- The host drew no further nonce (45_ecdsa.md R182: the loop is bounded only by luck). -/
  | drawsExhausted
  /-- The message is longer than the device's buffer (00_scope.md R5, R8). -/
  | messageTooLong
  /-- The device's step did not end in a next state (it always does; log 24). -/
  | deviceStopped
deriving DecidableEq, Repr

/-- `KEYMAP` and `BLOCKMAP`, `OPEN` host-side bijections (00_scope.md R12; log 10). -/
structure ByteMaps where
  keymap : Vector Byte 32 ≃ Vector Word32 8
  blockmap : Vector Byte 8 ≃ Block

/-! ## Driving the device through the window -/

/-- A command word written to `CMD`, and the engine's turn (70_reset_and_hazards.md R265). -/
def hostCommand (w : Word32) (s : State) : Except HostFailure State :=
  match engineTurn (s.hostWrite 0x00C w) with
  | .next t => .ok t
  | .fault _ => .error .deviceStopped
  | .refused _ => .error .deviceStopped

/-- The two words of `BLK`. -/
def writeBlk (x : Block) (s : State) : State :=
  (s.hostWrite 0x620 (wordOf x 0)).hostWrite 0x624 (wordOf x 1)

/-- The two words of `CHAIN`. -/
def writeChain (x : Block) (s : State) : State :=
  (s.hostWrite 0x628 (wordOf x 0)).hostWrite 0x62C (wordOf x 1)

/-- The eight words of `KEY`. -/
def writeKeys (k : Vector Word32 8) (s : State) : State :=
  (List.finRange 8).foldl (fun t i => t.hostWrite (0x600 + 4 * i.val) k[i]) s

/-- The eight words of `F[i]`. -/
def writeField (i : FReg) (v : Word256) (s : State) : State :=
  (List.range 8).foldl (fun t j => t.hostWrite (0x100 + 0x20 * i.val + 4 * j) (wordOf v j)) s

/-- `BLK` read back as two words. -/
def readBlk (s : State) : Block :=
  joinHalves (s.hostReadValue 0x624) (s.hostReadValue 0x620)

/-- The message in `MSGBUF`, four bytes a word, little-endian lanes, and its length in `MSGLEN`
(20_memory.md R66, 70_reset_and_hazards.md R265). DESIGN CHOICE: a write stores all four bytes of a
word (R66), and where the message ends inside its last word the spec does not say what the host puts
in the lanes past the end (V-HASH-1 alone shows zeros); this host puts zero bytes there (log 26). -/
def writeMessage (msg : List Byte) (s : State) : State :=
  let lane (k t : Nat) : Byte := (msg[4 * k + t]?).getD 0#8
  let words := (List.range ((msg.length + 3) / 4)).foldl
    (fun u k => u.hostWrite (0x1000 + 4 * k) (lane k 3 ++ lane k 2 ++ lane k 1 ++ lane k 0)) s
  words.hostWrite 0x010 (BitVec.ofNat 32 msg.length)

/-! ## CBC over byte strings -/

/-- `pad(pt)` of 46_cipher.md R203: 1 to 8 bytes, each the number of bytes added. -/
def pad (pt : List Byte) : List Byte :=
  pt ++ List.replicate (8 - pt.length % 8) (BitVec.ofNat 8 (8 - pt.length % 8))

/-- The check and removal of the padding at the end of 46_cipher.md R205. -/
def unpad (pt : List Byte) : Option (List Byte) :=
  match pt.getLast? with
  | none => none
  | some l =>
    if l.toNat < 1 ∨ 8 < l.toNat then none
    else if (pt.drop (pt.length - l.toNat)).all (· == l) then some (pt.take (pt.length - l.toNat))
    else none

/-- A byte string cut into 8-byte blocks, in order. -/
def chunks8 : List Byte → List (Vector Byte 8)
  | b0 :: b1 :: b2 :: b3 :: b4 :: b5 :: b6 :: b7 :: rest =>
    #v[b0, b1, b2, b3, b4, b5, b6, b7] :: chunks8 rest
  | _ => []

/-- `KEY` from the key and `CHAIN` from the IV (46_cipher.md R202). -/
def loadCipher (maps : ByteMaps) (key : Vector Byte 32) (iv : Vector Byte 8) (s : State) : State :=
  writeChain (maps.blockmap iv) (writeKeys (maps.keymap key) s)

/-- One block through the device: `BLK` written, the command issued, `BLK` read
(46_cipher.md R204, R205). -/
def cbcBlock (maps : ByteMaps) (w : Word32) (x : Vector Byte 8) (s : State) :
    Except HostFailure (Vector Byte 8 × State) := do
  let t ← hostCommand w (writeBlk (maps.blockmap x) s)
  return (maps.blockmap.symm (readBlk t), t)

/-- The blocks of a byte string through the device, in order. -/
def cbcBlocks (maps : ByteMaps) (w : Word32) :
    List (Vector Byte 8) → State → Except HostFailure (List Byte × State)
  | [], s => .ok ([], s)
  | x :: xs, s => do
    let (y, t) ← cbcBlock maps w x s
    let (ys, u) ← cbcBlocks maps w xs t
    return (y.toList ++ ys, u)

/-- `encrypt(pt, key, iv)` of 46_cipher.md R204. -/
def hostEncrypt (maps : ByteMaps) (pt : List Byte) (key : Vector Byte 32) (iv : Vector Byte 8)
    (s : State) : Except HostFailure (List Byte × State) :=
  cbcBlocks maps (encode .cbcenc) (chunks8 (pad pt)) (loadCipher maps key iv s)

/-- `decrypt(ct, key, iv)` of 46_cipher.md R205. -/
def hostDecrypt (maps : ByteMaps) (ct : List Byte) (key : Vector Byte 32) (iv : Vector Byte 8)
    (s : State) : Except HostFailure (List Byte × State) := do
  if ct.length = 0 ∨ ct.length % 8 ≠ 0 then throw .decryptionFailed
  let (pt', t) ← cbcBlocks maps (encode .cbcdec) (chunks8 ct) (loadCipher maps key iv s)
  match unpad pt' with
  | some pt => return (pt, t)
  | none => throw .decryptionFailed

/-! ## The signing loop -/

/-- The `repeat` of 45_ecdsa.md R182 over the nonces the host draws: a rejected nonce is never used
again, and `INVALID_SCALAR` from a bad private key ends the loop with a failure. DESIGN CHOICE: R182
draws from `[1, n - 1]`, and does not say what follows a draw outside it; this loop takes any draw, and
ends with the same failure when the draw is the cause of `INVALID_SCALAR` (log 27). -/
def signLoop (fr : FPair) (fe fd fk : FReg) : List Word256 → State → Except HostFailure State
  | [], _ => .error .drawsExhausted
  | k :: ks, s => do
    let t ← hostCommand (encode (.ecdsaSign fr fe fd fk)) (writeField fk k s)
    if t.err = .ok then return t
    else if t.err = .invalidScalar then throw .badPrivateKey
    else signLoop fr fe fd fk ks t

/-- The host's `sign` of 45_ecdsa.md R182: the message hashed, then the loop. -/
def hostSign (fr : FPair) (fe fd fk : FReg) (msg : List Byte) (draws : List Word256) (s : State) :
    Except HostFailure State := do
  if Config.msgbufBytes < msg.length then throw .messageTooLong
  let t ← hostCommand (encode (.hash fe)) (writeMessage msg s)
  signLoop fr fe fd fk draws t

end Sys2Proof.Machine
end

