-- ==== Sys2Proof/Safety.lean ====
section
/-! DEFINITION. The terms claims use: legal words, defined accesses, what a command leaves unchanged,
how it completes, and the invariant every step keeps. -/

namespace Sys2Proof.Safety

open Sys2Proof.Machine

/-! ## Legal words, from the tables of 30_encoding.md -/

/-- The operand kinds of 30_encoding.md R91. -/
inductive Kind where
  | unused
  | f
  | p
  | pair
  | sel
  | kidx
deriving DecidableEq, Repr

/-- 30_encoding.md R96 (c) to (g): when a four-bit field is legal as an operand of a kind. -/
def Kind.legal : Kind → BitVec 4 → Bool
  | .unused, x => x == 0#4
  | .f, _ => true
  | .p, x => !x.getLsbD 3
  | .pair, x => decide (x.toNat ≤ 14)
  | .sel, x => decide (x.toNat ≤ 5)
  | .kidx, x => !x.getLsbD 3

/-- A row of 30_encoding.md R95. -/
structure Row where
  op : BitVec 8
  d : Kind
  s1 : Kind
  s2 : Kind
  s3 : Kind
deriving DecidableEq, Repr

/-- The opcode map of 30_encoding.md R95, row for row. -/
def opcodeMap : List Row :=
  [⟨0x00#8, .unused, .unused, .unused, .unused⟩, ⟨0x01#8, .f, .f, .f, .f⟩, ⟨0x02#8, .f, .f, .f, .f⟩,
   ⟨0x03#8, .f, .f, .f, .f⟩, ⟨0x04#8, .f, .f, .f, .f⟩, ⟨0x05#8, .f, .f, .unused, .f⟩,
   ⟨0x06#8, .f, .f, .unused, .f⟩, ⟨0x07#8, .f, .f, .f, .f⟩, ⟨0x08#8, .f, .f, .f, .f⟩,
   ⟨0x09#8, .f, .f, .unused, .f⟩] ++
  [⟨0x10#8, .p, .p, .p, .unused⟩, ⟨0x11#8, .p, .p, .f, .unused⟩, ⟨0x12#8, .f, .p, .unused, .unused⟩,
   ⟨0x20#8, .f, .unused, .unused, .unused⟩, ⟨0x30#8, .p, .f, .unused, .unused⟩,
   ⟨0x31#8, .f, .f, .p, .unused⟩, ⟨0x38#8, .pair, .f, .f, .f⟩, ⟨0x39#8, .f, .f, .pair, .p⟩] ++
  [⟨0x50#8, .unused, .unused, .unused, .unused⟩, ⟨0x51#8, .unused, .unused, .unused, .unused⟩,
   ⟨0x52#8, .unused, .unused, .unused, .unused⟩, ⟨0x53#8, .unused, .unused, .unused, .unused⟩,
   ⟨0x54#8, .unused, .kidx, .unused, .unused⟩, ⟨0x55#8, .unused, .unused, .unused, .unused⟩,
   ⟨0x56#8, .unused, .f, .unused, .unused⟩] ++
  [⟨0x70#8, .f, .f, .unused, .unused⟩, ⟨0x71#8, .f, .sel, .unused, .unused⟩,
   ⟨0x72#8, .p, .p, .unused, .unused⟩, ⟨0x73#8, .p, .unused, .unused, .unused⟩]

/-- A legal command word: all conditions of 30_encoding.md R96, over the fields of R90. -/
def LegalWord (w : Word32) : Prop :=
  w.extractLsb' 24 8 = 0#8 ∧ ∃ r ∈ opcodeMap, r.op = w.extractLsb' 0 8
    ∧ r.d.legal (w.extractLsb' 8 4) = true ∧ r.s1.legal (w.extractLsb' 12 4) = true
    ∧ r.s2.legal (w.extractLsb' 16 4) = true ∧ r.s3.legal (w.extractLsb' 20 4) = true

/-- The word `op | d<<8 | s1<<12 | s2<<16 | s3<<20` (30_encoding.md R100). -/
def commandWord (op d s1 s2 s3 : Nat) : Word32 :=
  BitVec.ofNat 32 (op + d * 2 ^ 8 + s1 * 2 ^ 12 + s2 * 2 ^ 16 + s3 * 2 ^ 20)

/-! ## What a command does to the state -/

/-- Completion with a code (10_state.md R42): `BUSY` 0, `DONE` 1, `ERR` the code. -/
def Completed (code : ErrCode) (t : State) : Prop :=
  t.busy = false ∧ t.pending = none ∧ t.done = true ∧ t.err = code

/-- What no command changes (10_state.md R36): `MSGBUF`, byte by byte and as data, `MSGLEN`, `IE`,
`HAZ`, `CMD`, and the model's own fields. -/
structure Untouched (s t : State) : Prop where
  msgbuf : ∀ j, t.msgByte j = s.msgByte j
  mem : t.mem = s.mem
  msglen : t.msglen = s.msglen
  ie : t.ie = s.ie
  haz : t.haz = s.haz
  cmd : t.cmd = s.cmd
  inputs : t.inputs = s.inputs
  answer : t.answer = s.answer
  draws : t.draws = s.draws
  epoch : t.epoch = s.epoch

/-- The cipher registers unchanged. -/
def SameCipher (s t : State) : Prop := t.key = s.key ∧ t.blk = s.blk ∧ t.chain = s.chain

/-- The command fails with `code`: nothing is written (60_exceptions.md R232). -/
def Fails (code : ErrCode) (s t : State) : Prop :=
  Completed code t ∧ Untouched s t ∧ SameCipher s t
    ∧ (∀ i, t.getF i = s.getF i) ∧ (∀ i, t.getP i = s.getP i)

/-- The command succeeds and writes `v` to `F[d]`, and nothing else. -/
def WritesF (d : FReg) (v : Word256) (s t : State) : Prop :=
  Completed .ok t ∧ Untouched s t ∧ SameCipher s t
    ∧ (∀ i, t.getF i = if i = d then v else s.getF i) ∧ (∀ i, t.getP i = s.getP i)

/-- The command succeeds and writes `v` to `F[d]`, `v'` to `F[d']`, and nothing else. -/
def WritesTwoF (d d' : FReg) (v v' : Word256) (s t : State) : Prop :=
  Completed .ok t ∧ Untouched s t ∧ SameCipher s t
    ∧ (∀ i, t.getF i = if i = d then v else if i = d' then v' else s.getF i)
    ∧ (∀ i, t.getP i = s.getP i)

/-- The command succeeds and writes `Q` to `P[d]`, and nothing else. -/
def WritesP (d : PReg) (Q : Point) (s t : State) : Prop :=
  Completed .ok t ∧ Untouched s t ∧ SameCipher s t
    ∧ (∀ i, t.getF i = s.getF i) ∧ (∀ i, t.getP i = if i = d then Q else s.getP i)

/-- The command succeeds and leaves `KEY`, `BLK` and `CHAIN` as given, and writes nothing else. -/
def WritesCipher (key : KIdx → Word32) (blk chain : Block) (s t : State) : Prop :=
  Completed .ok t ∧ Untouched s t ∧ (∀ i, t.getKey i = key i) ∧ t.blk = blk ∧ t.chain = chain
    ∧ (∀ i, t.getF i = s.getF i) ∧ (∀ i, t.getP i = s.getP i)

/-! ## Which registers a command writes (10_state.md R36) -/

/-- The field registers a command writes when it succeeds. -/
def fieldDests : Instr → List FReg
  | .nop => []
  | .modadd d _ _ _ => [d]
  | .modsub d _ _ _ => [d]
  | .modred d _ _ _ => [d]
  | .montmul d _ _ _ => [d]
  | .tomont d _ _ => [d]
  | .frommont d _ _ => [d]
  | .modmul d _ _ _ => [d]
  | .modexp d _ _ _ => [d]
  | .modinv d _ _ => [d]
  | .ecadd _ _ _ => []
  | .ecmul _ _ _ => []
  | .ecchk d _ => [d]
  | .hash d => [d]
  | .keygen _ _ => []
  | .ecdh d _ _ => [d]
  | .ecdsaSign d _ _ _ => [d, pairSecond d]
  | .ecdsaVerify d _ _ _ => [d]
  | .benc => []
  | .bdec => []
  | .cbcenc => []
  | .cbcdec => []
  | .fround _ => []
  | .fswap => []
  | .keyldf _ => []
  | .fmov d _ => [d]
  | .curvec d _ => [d]
  | .pmov _ _ => []
  | .pldg _ => []

/-- The point registers a command writes when it succeeds. -/
def pointDests : Instr → List PReg
  | .ecadd d _ _ => [d]
  | .ecmul d _ _ => [d]
  | .keygen d _ => [d]
  | .pmov d _ => [d]
  | .pldg d => [d]
  | _ => []

/-- The commands that write `KEY`. -/
def writesKey : Instr → Bool
  | .keyldf _ => true
  | _ => false

/-- The commands that write `BLK`. -/
def writesBlk : Instr → Bool
  | .benc => true
  | .bdec => true
  | .cbcenc => true
  | .cbcdec => true
  | .fround _ => true
  | .fswap => true
  | _ => false

/-- The commands that write `CHAIN`. -/
def writesChain : Instr → Bool
  | .cbcenc => true
  | .cbcdec => true
  | _ => false

/-- Commands performed one after another, while each ends in a next state. -/
def runCommands : List Instr → State → Option State
  | [], s => some s
  | i :: is, s =>
    match exec i s with
    | .next t => runCommands is t
    | .fault _ => none
    | .refused _ => none

/-- The state after a number of steps, while each ends in a next state. -/
def runSteps : Nat → State → Option State
  | 0, s => some s
  | k + 1, s =>
    match step s with
    | .next t => runSteps k t
    | .fault _ => none
    | .refused _ => none

/-! ## Accesses -/

/-- A word offset of a data register: `MSGLEN`, `F`, a point's `x`, `y` or `INF` word, `KEY`, `BLK`,
`CHAIN`, `MSGBUF` (20_memory.md R61, R63; 70_reset_and_hazards.md R270). -/
def DataOffset (off : Nat) : Prop :=
  off % 4 = 0 ∧ (off = 0x010 ∨ (0x100 ≤ off ∧ off < 0x300)
    ∨ (0x300 ≤ off ∧ off < 0x600 ∧ (off - 0x300) % 0x60 < 0x44)
    ∨ (0x600 ≤ off ∧ off < 0x630) ∨ (0x1000 ≤ off ∧ off < 0x2000))

/-- A word offset that holds nothing: the reserved ranges of 20_memory.md R61 and the reserved words
of each point register (R63, R67). -/
def ReservedOffset (off : Nat) : Prop :=
  off % 4 = 0 ∧ ((0x014 ≤ off ∧ off < 0x100)
    ∨ (0x300 ≤ off ∧ off < 0x600 ∧ 0x44 ≤ (off - 0x300) % 0x60)
    ∨ (0x630 ≤ off ∧ off < 0x1000))

/-- A host access the device defines: 32 bits wide, at a multiple of 4, inside the window
(20_memory.md R60, R64). -/
def DefinedAccess (width off : Nat) : Prop := width = 4 ∧ off % 4 = 0 ∧ off < 0x2000

/-- An item from outside that breaks no rule of 20_memory.md R64. -/
def Input.Defined : Input → Prop
  | .read width off => DefinedAccess width off
  | .write width off _ => DefinedAccess width off
  | .powerOn => True
  | .engine => True

/-- Equal in everything the spec gives the device; the model's own record of host reads and the
list of what comes next may differ. -/
def SameDevice (s t : State) : Prop :=
  t.f = s.f ∧ t.p = s.p ∧ t.key = s.key ∧ t.blk = s.blk ∧ t.chain = s.chain ∧ t.mem = s.mem
    ∧ t.msglen = s.msglen ∧ t.ie = s.ie ∧ t.done = s.done ∧ t.haz = s.haz ∧ t.err = s.err
    ∧ t.cmd = s.cmd ∧ t.pending = s.pending ∧ t.epoch = s.epoch

/-! ## The invariant -/

/-- The message buffer is in canonical form; and while a command is pending, `CMD` holds its word,
`DONE` is 0 and `ERR` is 0 (10_state.md R32, R34, R39, R42). -/
def Inv (s : State) : Prop :=
  s.mem.wf ∧ ∀ w, s.pending = some w → s.cmd = w ∧ s.done = false ∧ s.err = .ok

/-! ## Groups of points -/

/-- The canonical points generated by `G` (42_curve.md R146). -/
def Generated (c : Curve) (A : Point) : Prop := ∃ k, A = scalarMult c k c.base

/-- The negation of a point: `(x, (p - y) mod p)` (42_curve.md R146). -/
def negPoint (c : Curve) (A : Point) : Point :=
  if A.inf then Point.infinity
  else { inf := false, x := A.x, y := BitVec.ofNat 256 ((c.p - A.y.toNat) % c.p) }

end Sys2Proof.Safety
end

