-- ==== Sys2Proof/Certificates/Slice0/Obligations.lean ====
section
/-! DEFINITION. The statements for the provers, from the numbered rules of spec/. -/

open Sys2Proof Sys2Proof.Machine Sys2Proof.Safety

/-! ## Encoding (30_encoding.md) -/

/-- The word of every well-formed command decodes to that command, every operand included
(30_encoding.md R90, R91, R95). -/
def Obligations.DecodeEncodeRoundTrip : Prop :=
  ∀ i : Instr, i.wf = true → decode (encode i) = .ok i

/-- The decoder answers a command only for that command's own word, and only a well-formed one: no
two words decode to one command (30_encoding.md R96, R98). -/
def Obligations.DecodedCommandReencodes : Prop :=
  ∀ (w : Word32) (i : Instr), decode w = .ok i → i.wf = true ∧ encode i = w

/-- A word decodes exactly when it meets every condition of 30_encoding.md R96. -/
def Obligations.LegalWordsAreExactlyR96 : Prop :=
  ∀ w : Word32, (∃ i, decode w = .ok i) ↔ LegalWord w

/-- The examples of 30_encoding.md R100: text, word and command. -/
def Obligations.SampleWordsDecode : Prop :=
  (decode 0x00021307#32 = .ok (.modmul 3 1 2 0) ∧ asmText (.modmul 3 1 2 0) = "MODMUL F3, F1, F2, F0")
  ∧ (decode 0x00040111#32 = .ok (.ecmul 1 0 4) ∧ asmText (.ecmul 1 0 4) = "ECMUL P1, P0, F4")
  ∧ (decode 0x00321638#32 = .ok (.ecdsaSign 6 1 2 3)
      ∧ asmText (.ecdsaSign 6 1 2 3) = "ECDSA_SIGN F6:F7, F1, F2, F3")
  ∧ (decode 0x00005054#32 = .ok (.fround 5) ∧ asmText (.fround 5) = "FROUND K5")
  ∧ (decode 0x00005071#32 = .ok (.curvec 0 5) ∧ asmText (.curvec 0 5) = "CURVEC F0, n")

/-- 30_encoding.md R97: at perform an illegal word fails with `ILLEGAL` and changes nothing but
`STATUS`; a legal word is performed by its own meaning. -/
def Obligations.IllegalWordFails : Prop :=
  ∀ (s : State) (w : Word32), s.pending = some w →
    (¬ LegalWord w → ∃ t, engineTurn s = .next t ∧ Fails .illegal s t)
    ∧ (LegalWord w → ∃ i, decode w = .ok i ∧ engineTurn s = exec i s)

/-- When the engine has its turn, a step performs the decoded pending command: with nothing from
outside waiting, or with the engine's turn next on the list, which is then taken off. (That `inputs`
orders the turns is the model's: log 1.) -/
def Obligations.StepRunsTheDecodedCommand : Prop :=
  ∀ (s : State) (w : Word32) (i : Instr), s.pending = some w → decode w = .ok i →
    (s.inputs = [] → step s = exec i s)
    ∧ (∀ rest, s.inputs = .engine :: rest → step s = exec i { s with inputs := rest })

/-! ## Field arithmetic (41_field.md) -/

/-- 41_field.md R112: encoding, result for every operand, `BAD_MODULUS` for `m = 0`, and the frame. -/
def Obligations.ModaddReducesTheSum : Prop :=
  ∀ (d s1 s2 s3 : FReg) (s : State),
    decode (commandWord 0x01 d s1 s2 s3) = .ok (.modadd d s1 s2 s3)
    ∧ ∃ t, exec (.modadd d s1 s2 s3) s = .next t
      ∧ ((s.getF s3).toNat = 0 → Fails .badModulus s t)
      ∧ ((s.getF s3).toNat ≠ 0 → ∃ v : Word256, WritesF d v s t
          ∧ v.toNat = ((s.getF s1).toNat + (s.getF s2).toNat) % (s.getF s3).toNat)

/-- 41_field.md R113: the non-negative remainder of the exact difference. -/
def Obligations.ModsubReducesTheDifference : Prop :=
  ∀ (d s1 s2 s3 : FReg) (s : State),
    decode (commandWord 0x02 d s1 s2 s3) = .ok (.modsub d s1 s2 s3)
    ∧ ∃ t, exec (.modsub d s1 s2 s3) s = .next t
      ∧ ((s.getF s3).toNat = 0 → Fails .badModulus s t)
      ∧ ((s.getF s3).toNat ≠ 0 → ∃ v : Word256, WritesF d v s t
          ∧ (v.toNat : Int) = (((s.getF s1).toNat : Int) - (s.getF s2).toNat) % (s.getF s3).toNat)

/-- 41_field.md R114: `s1` is the high half of the double-width value. -/
def Obligations.ModredReducesTheDoubleWidthValue : Prop :=
  ∀ (d s1 s2 s3 : FReg) (s : State),
    decode (commandWord 0x03 d s1 s2 s3) = .ok (.modred d s1 s2 s3)
    ∧ ∃ t, exec (.modred d s1 s2 s3) s = .next t
      ∧ ((s.getF s3).toNat = 0 → Fails .badModulus s t)
      ∧ ((s.getF s3).toNat ≠ 0 → ∃ v : Word256, WritesF d v s t
          ∧ v.toNat = ((s.getF s1).toNat * 2 ^ 256 + (s.getF s2).toNat) % (s.getF s3).toNat)

/-- 41_field.md R118: the product times the inverse of `R = 2^256` modulo the odd modulus (R116). -/
def Obligations.MontmulIsTheMontgomeryProduct : Prop :=
  ∀ (d s1 s2 s3 : FReg) (s : State),
    decode (commandWord 0x04 d s1 s2 s3) = .ok (.montmul d s1 s2 s3)
    ∧ ∃ t, exec (.montmul d s1 s2 s3) s = .next t
      ∧ ((s.getF s3).toNat % 2 = 0 → Fails .badModulus s t)
      ∧ ((s.getF s3).toNat % 2 = 1 → ∃ v : Word256, WritesF d v s t
          ∧ ∃ rinv < (s.getF s3).toNat, 2 ^ 256 * rinv % (s.getF s3).toNat = 1 % (s.getF s3).toNat
            ∧ v.toNat = (s.getF s1).toNat * (s.getF s2).toNat * rinv % (s.getF s3).toNat)

/-- 41_field.md R119. -/
def Obligations.TomontMultipliesByTheRadix : Prop :=
  ∀ (d s1 s3 : FReg) (s : State),
    decode (commandWord 0x05 d s1 0 s3) = .ok (.tomont d s1 s3)
    ∧ ∃ t, exec (.tomont d s1 s3) s = .next t
      ∧ ((s.getF s3).toNat % 2 = 0 → Fails .badModulus s t)
      ∧ ((s.getF s3).toNat % 2 = 1 → ∃ v : Word256, WritesF d v s t
          ∧ v.toNat = (s.getF s1).toNat * 2 ^ 256 % (s.getF s3).toNat)

/-- 41_field.md R120. -/
def Obligations.FrommontDividesByTheRadix : Prop :=
  ∀ (d s1 s3 : FReg) (s : State),
    decode (commandWord 0x06 d s1 0 s3) = .ok (.frommont d s1 s3)
    ∧ ∃ t, exec (.frommont d s1 s3) s = .next t
      ∧ ((s.getF s3).toNat % 2 = 0 → Fails .badModulus s t)
      ∧ ((s.getF s3).toNat % 2 = 1 → ∃ v : Word256, WritesF d v s t
          ∧ ∃ rinv < (s.getF s3).toNat, 2 ^ 256 * rinv % (s.getF s3).toNat = 1 % (s.getF s3).toNat
            ∧ v.toNat = (s.getF s1).toNat * rinv % (s.getF s3).toNat)

/-- 41_field.md R121. -/
def Obligations.ModmulReducesTheProduct : Prop :=
  ∀ (d s1 s2 s3 : FReg) (s : State),
    decode (commandWord 0x07 d s1 s2 s3) = .ok (.modmul d s1 s2 s3)
    ∧ ∃ t, exec (.modmul d s1 s2 s3) s = .next t
      ∧ ((s.getF s3).toNat % 2 = 0 → Fails .badModulus s t)
      ∧ ((s.getF s3).toNat % 2 = 1 → ∃ v : Word256, WritesF d v s t
          ∧ v.toNat = (s.getF s1).toNat * (s.getF s2).toNat % (s.getF s3).toNat)

/-- 41_field.md R122: the exact integer power, with the whole 256-bit exponent. -/
def Obligations.ModexpReducesThePower : Prop :=
  ∀ (d s1 s2 s3 : FReg) (s : State),
    decode (commandWord 0x08 d s1 s2 s3) = .ok (.modexp d s1 s2 s3)
    ∧ ∃ t, exec (.modexp d s1 s2 s3) s = .next t
      ∧ ((s.getF s3).toNat % 2 = 0 → Fails .badModulus s t)
      ∧ ((s.getF s3).toNat % 2 = 1 → ∃ v : Word256, WritesF d v s t
          ∧ v.toNat = (s.getF s1).toNat ^ (s.getF s2).toNat % (s.getF s3).toNat)

/-- 41_field.md R123: Fermat exponentiation, 0 for `m = 1`, and the multiplicative inverse when the
modulus is prime and the operand is not 0 modulo it. -/
def Obligations.ModinvIsFermatExponentiation : Prop :=
  ∀ (d s1 s3 : FReg) (s : State),
    decode (commandWord 0x09 d s1 0 s3) = .ok (.modinv d s1 s3)
    ∧ ∃ t, exec (.modinv d s1 s3) s = .next t
      ∧ ((s.getF s3).toNat % 2 = 0 → Fails .badModulus s t)
      ∧ ((s.getF s3).toNat = 1 → WritesF d 0#256 s t)
      ∧ ((s.getF s3).toNat % 2 = 1 → (s.getF s3).toNat ≠ 1 → ∃ v : Word256, WritesF d v s t
          ∧ v.toNat = (s.getF s1).toNat ^ ((s.getF s3).toNat - 2) % (s.getF s3).toNat
          ∧ ((s.getF s1).toNat % (s.getF s3).toNat = 0 → v = 0#256)
          ∧ ((s.getF s3).toNat.Prime → (s.getF s1).toNat % (s.getF s3).toNat ≠ 0 →
              (s.getF s1).toNat * v.toNat % (s.getF s3).toNat = 1))

/-- The four Montgomery laws of 41_field.md R124, on the results of the commands. -/
def Obligations.MontgomeryLaws : Prop :=
  ∀ x y m : Word256, m.toNat % 2 = 1 → 3 ≤ m.toNat →
    ∃ X Y Z W : Word256, toMont x m = .ok X ∧ toMont y m = .ok Y ∧ montMul X Y m = .ok Z
      ∧ modMul x y m = .ok W
      ∧ toMont (BitVec.ofNat 256 (x.toNat * y.toNat % m.toNat)) m = .ok Z
      ∧ fromMont X m = .ok (BitVec.ofNat 256 (x.toNat % m.toNat))
      ∧ montMul x (BitVec.ofNat 256 ((2 ^ 256) ^ 2 % m.toNat)) m = .ok X
      ∧ fromMont Z m = .ok W

/-! ## The curve (42_curve.md) -/

/-- 42_curve.md R141, case by case, with the inverse the exact Fermat power of 00_scope.md R19. -/
def Obligations.PointAddFollowsChordAndTangent : Prop :=
  ∀ (c : Curve) (A B : Point), Config.Admissible c →
    isFieldPoint c A = true → isFieldPoint c B = true →
    (A.inf = true → B.inf = true → pointAdd c A B = Point.infinity)
    ∧ (A.inf = true → B.inf = false → pointAdd c A B = B)
    ∧ (A.inf = false → B.inf = true → pointAdd c A B = A)
    ∧ (A.inf = false → B.inf = false → A.x = B.x → (A.y.toNat + B.y.toNat) % c.p = 0 →
        pointAdd c A B = Point.infinity)
    ∧ (A.inf = false → B.inf = false → ¬ (A.x = B.x ∧ (A.y.toNat + B.y.toNat) % c.p = 0) →
        ∃ lam : Nat, lam < c.p
          ∧ (A.x = B.x → A.y = B.y → (lam : Int) =
              (3 * (A.x.toNat : Int) ^ 2 + c.a) * (2 * A.y.toNat % c.p) ^ (c.p - 2) % c.p)
          ∧ (¬ (A.x = B.x ∧ A.y = B.y) → (lam : Int) =
              ((B.y.toNat : Int) - A.y.toNat)
                * (((B.x.toNat : Int) - A.x.toNat) % c.p) ^ (c.p - 2) % c.p)
          ∧ (pointAdd c A B).inf = false
          ∧ ((pointAdd c A B).x.toNat : Int) = ((lam : Int) ^ 2 - A.x.toNat - B.x.toNat) % c.p
          ∧ ((pointAdd c A B).y.toNat : Int) =
              ((lam : Int) * ((A.x.toNat : Int) - (pointAdd c A B).x.toNat) - A.y.toNat) % c.p)

/-- 42_curve.md R142: the scalar is reduced modulo the order, and double-and-add runs over all of
its bits, least significant first. -/
def Obligations.ScalarMultIsDoubleAndAdd : Prop :=
  ∀ (c : Curve) (k : Nat) (A : Point), Config.Admissible c → k < 2 ^ 256 →
    isFieldPoint c A = true →
    (k % c.n = 0 ∨ A.inf = true → scalarMult c k A = Point.infinity)
    ∧ (k % c.n ≠ 0 → A.inf = false → scalarMult c k A =
        ((List.range (Nat.size (k % c.n))).foldl
          (fun (q : Point × Point) i =>
            (if (k % c.n).testBit i then pointAdd c q.1 q.2 else q.1, pointAdd c q.2 q.2))
          (Point.infinity, A)).1)

/-- 42_curve.md R143: a non-field operand is refused, else the sum of R141 is written. -/
def Obligations.EcaddAddsFieldPoints : Prop :=
  ∀ (d s1 s2 : PReg) (s : State),
    decode (commandWord 0x10 d s1 s2 0) = .ok (.ecadd d s1 s2)
    ∧ ∃ t, exec (.ecadd d s1 s2) s = .next t
      ∧ ((∃ A ∈ [s.getP s1, s.getP s2], A.inf = false
            ∧ (Config.curve.p ≤ A.x.toNat ∨ Config.curve.p ≤ A.y.toNat)) → Fails .badOperand s t)
      ∧ ((∀ A ∈ [s.getP s1, s.getP s2], A.inf = true
            ∨ (A.x.toNat < Config.curve.p ∧ A.y.toNat < Config.curve.p)) →
          WritesP d (pointAdd Config.curve (s.getP s1) (s.getP s2)) s t)

/-- 42_curve.md R144: a non-field operand is refused, else the multiple of R142 is written. -/
def Obligations.EcmulMultipliesFieldPoints : Prop :=
  ∀ (d s1 : PReg) (s2 : FReg) (s : State),
    decode (commandWord 0x11 d s1 s2 0) = .ok (.ecmul d s1 s2)
    ∧ ∃ t, exec (.ecmul d s1 s2) s = .next t
      ∧ ((s.getP s1).inf = false → (Config.curve.p ≤ (s.getP s1).x.toNat
            ∨ Config.curve.p ≤ (s.getP s1).y.toNat) → Fails .badOperand s t)
      ∧ ((s.getP s1).inf = true ∨ ((s.getP s1).x.toNat < Config.curve.p
            ∧ (s.getP s1).y.toNat < Config.curve.p) →
          WritesP d (scalarMult Config.curve (s.getF s2).toNat (s.getP s1)) s t)

/-- 42_curve.md R145 with R140: 1 for Infinity and for a field point on the curve, else 0; never an
error. -/
def Obligations.EcchkTestsTheCurveEquation : Prop :=
  ∀ (d : FReg) (s1 : PReg) (s : State),
    decode (commandWord 0x12 d s1 0 0) = .ok (.ecchk d s1)
    ∧ ∃ t v, exec (.ecchk d s1) s = .next t ∧ WritesF d v s t ∧ (v = 0#256 ∨ v = 1#256)
      ∧ (v = 1#256 ↔ (s.getP s1).inf = true
          ∨ ((s.getP s1).x.toNat < Config.curve.p ∧ (s.getP s1).y.toNat < Config.curve.p
            ∧ (((s.getP s1).y.toNat : Int) ^ 2 - (((s.getP s1).x.toNat : Int) ^ 3
                + Config.curve.a * (s.getP s1).x.toNat + Config.curve.b)) % Config.curve.p = 0))

/-- 42_curve.md R146: the points generated by `G` of an admissible curve are closed under addition and
negation and hold `INF`; on them addition is commutative and associative, `INF` is its identity,
`(x, (p - y) mod p)` is the inverse, multiplications compose, every result is on the curve, and a
scalar in range gives no Infinity. -/
def Obligations.GroupLaws : Prop :=
  ∀ c : Curve, Config.Admissible c →
    (Generated c Point.infinity
      ∧ ∀ A B, Generated c A → Generated c B →
        Generated c (negPoint c A) ∧ Generated c (pointAdd c A B))
    ∧ (∀ A B, Generated c A → Generated c B → pointAdd c A B = pointAdd c B A)
    ∧ (∀ A B C, Generated c A → Generated c B → Generated c C →
        pointAdd c (pointAdd c A B) C = pointAdd c A (pointAdd c B C))
    ∧ (∀ A, Generated c A →
        pointAdd c A Point.infinity = A ∧ pointAdd c Point.infinity A = A
        ∧ pointAdd c A (negPoint c A) = Point.infinity)
    ∧ (∀ j k : Nat, scalarMult c j (scalarMult c k c.base) = scalarMult c (j * k % c.n) c.base
        ∧ scalarMult c k (scalarMult c j c.base) = scalarMult c (j * k % c.n) c.base)
    ∧ (∀ A B, Generated c A → Generated c B →
        onCurve c A = true ∧ onCurve c (negPoint c A) = true ∧ onCurve c (pointAdd c A B) = true)
    ∧ (∀ k : Nat, onCurve c (scalarMult c k c.base) = true
        ∧ (1 ≤ k → k ≤ c.n - 1 → (scalarMult c k c.base).inf = false))

/-! ## The hash (43_hash.md) -/

/-- 43_hash.md R160 and R162: `BAD_LENGTH` above 4096, else the digest of the first `MSGLEN` bytes,
`h[0]` its most significant byte. -/
def Obligations.HashWritesTheDigest : Prop :=
  ∀ (d : FReg) (s : State),
    decode (commandWord 0x20 d 0 0 0) = .ok (.hash d)
    ∧ ∃ t, exec (.hash d) s = .next t
      ∧ (4096 < s.msglen.toNat → Fails .badLength s t)
      ∧ (s.msglen.toNat ≤ 4096 → ∃ v : Word256, WritesF d v s t
          ∧ v.toNat = ∑ i : Fin 32,
              ((Config.hash (List.ofFn fun j : Fin s.msglen.toNat => s.msgByte j))[i]).toNat
                * 2 ^ (8 * (31 - i.val)))

/-- 20_memory.md R72: a command reads `MSGBUF` only if it is `HASH`, and then only the first `MSGLEN`
bytes: with other contents elsewhere every command does the same to everything else. -/
def Obligations.NoCommandReadsFurtherMessageBytes : Prop :=
  ∀ (i : Instr) (s : State) (m : Memory) (e : Nat),
    ((∃ d, i = .hash d) →
      ∀ j < s.msglen.toNat, ({ s with mem := m, epoch := e } : State).msgByte j = s.msgByte j) →
    ∃ t, exec i s = .next t
      ∧ exec i { s with mem := m, epoch := e } = .next { t with mem := m, epoch := e }

/-! ## Key generation and ECDH (44_ecdh.md) -/

/-- 44_ecdh.md R170, the checks in their order. The defensive check fails on no admissible curve
(R170, 42_curve.md R146), so the first part says it of the computation, over any curve. -/
def Obligations.KeygenMultipliesTheBasePoint : Prop :=
  (∀ (c : Curve) (dk : Word256), 1 ≤ dk.toNat → dk.toNat ≤ c.n - 1 →
    (scalarMult c dk.toNat c.base).inf = true ∨ onCurve c (scalarMult c dk.toNat c.base) = false →
    keygenResult c dk = .error .keygenCheckFailed)
  ∧ ∀ (d : PReg) (s1 : FReg) (s : State),
    decode (commandWord 0x30 d s1 0 0) = .ok (.keygen d s1)
    ∧ ∃ t, exec (.keygen d s1) s = .next t
      ∧ ((s.getF s1).toNat < 1 ∨ Config.curve.n - 1 < (s.getF s1).toNat → Fails .invalidScalar s t)
      ∧ (1 ≤ (s.getF s1).toNat → (s.getF s1).toNat ≤ Config.curve.n - 1 →
          ((scalarMult Config.curve (s.getF s1).toNat Config.curve.base).inf = true
            ∨ onCurve Config.curve
                (scalarMult Config.curve (s.getF s1).toNat Config.curve.base) = false →
            Fails .keygenCheckFailed s t)
          ∧ ((scalarMult Config.curve (s.getF s1).toNat Config.curve.base).inf = false →
            onCurve Config.curve
                (scalarMult Config.curve (s.getF s1).toNat Config.curve.base) = true →
            WritesP d (scalarMult Config.curve (s.getF s1).toNat Config.curve.base) s t))

/-- With a scalar in range, `KEYGEN` never fails its defensive check: it writes a point that is on
the curve and is not Infinity (44_ecdh.md R170, 42_curve.md R146). -/
def Obligations.KeygenSucceedsInRange : Prop :=
  ∀ (d : PReg) (s1 : FReg) (s : State),
    1 ≤ (s.getF s1).toNat → (s.getF s1).toNat ≤ Config.curve.n - 1 →
    ∃ t, exec (.keygen d s1) s = .next t
      ∧ WritesP d (scalarMult Config.curve (s.getF s1).toNat Config.curve.base) s t
      ∧ (t.getP d).inf = false ∧ onCurve Config.curve (t.getP d) = true

/-- 44_ecdh.md R171, the checks in their order; the x-coordinate is hashed as 32 big-endian bytes. -/
def Obligations.EcdhDerivesTheSharedKey : Prop :=
  ∀ (d s1 : FReg) (s2 : PReg) (s : State),
    decode (commandWord 0x31 d s1 s2 0) = .ok (.ecdh d s1 s2)
    ∧ ∃ t, exec (.ecdh d s1 s2) s = .next t
      ∧ ((s.getP s2).inf = true ∨ onCurve Config.curve (s.getP s2) = false →
          Fails .invalidPublicKey s t)
      ∧ ((s.getP s2).inf = false → onCurve Config.curve (s.getP s2) = true →
          ((scalarMult Config.curve (s.getF s1).toNat (s.getP s2)).inf = true →
            Fails .degenerateSecret s t)
          ∧ ((scalarMult Config.curve (s.getF s1).toNat (s.getP s2)).inf = false →
            ∃ v : Word256, WritesF d v s t
              ∧ v.toNat = ∑ i : Fin 32,
                  ((Config.hash (List.ofFn fun j : Fin 32 => BitVec.ofNat 8
                    ((scalarMult Config.curve (s.getF s1).toNat (s.getP s2)).x.toNat
                      / 2 ^ (8 * (31 - j.val)))))[i]).toNat * 2 ^ (8 * (31 - i.val))))

/-- 44_ecdh.md R172: both parties' `ECDH` commands succeed and write the same value. -/
def Obligations.EcdhCommutes : Prop :=
  ∀ (s : State) (a b d d' : FReg) (i j : PReg),
    1 ≤ (s.getF a).toNat → (s.getF a).toNat ≤ Config.curve.n - 1 →
    1 ≤ (s.getF b).toNat → (s.getF b).toNat ≤ Config.curve.n - 1 →
    s.getP i = scalarMult Config.curve (s.getF a).toNat Config.curve.base →
    s.getP j = scalarMult Config.curve (s.getF b).toNat Config.curve.base →
    ∃ t t' v, exec (.ecdh d a j) s = .next t ∧ exec (.ecdh d' b i) s = .next t'
      ∧ WritesF d v s t ∧ WritesF d' v s t'

/-! ## ECDSA (45_ecdsa.md) -/

/-- 45_ecdsa.md R180: one attempt, the checks in their order, the inverse the exact Fermat power. -/
def Obligations.EcdsaSignMakesOneAttempt : Prop :=
  ∀ (d d' s1 s2 s3 : FReg) (s : State), d'.val = d.val + 1 →
    let n := Config.curve.n
    let e := (s.getF s1).toNat
    let dk := (s.getF s2).toNat
    let k := (s.getF s3).toNat
    let R := scalarMult Config.curve k Config.curve.base
    let r := R.x.toNat % n
    let sg := (k % n) ^ (n - 2) % n * ((e % n + r * dk) % n) % n
    decode (commandWord 0x38 d s1 s2 s3) = .ok (.ecdsaSign d s1 s2 s3)
    ∧ ∃ t, exec (.ecdsaSign d s1 s2 s3) s = .next t
      ∧ (dk < 1 ∨ n - 1 < dk ∨ k < 1 ∨ n - 1 < k → Fails .invalidScalar s t)
      ∧ (1 ≤ dk → dk ≤ n - 1 → 1 ≤ k → k ≤ n - 1 →
          (R.inf = true ∨ r = 0 ∨ sg = 0 → Fails .nonceRejected s t)
          ∧ (R.inf = false → r ≠ 0 → sg ≠ 0 → ∃ vr vs : Word256, vr.toNat = r ∧ vs.toNat = sg
              ∧ WritesTwoF d d' vr vs s t))

/-- 45_ecdsa.md R181: 1 exactly when every check passes and the x-coordinate agrees, else 0; never an
error. -/
def Obligations.EcdsaVerifyDecides : Prop :=
  ∀ (d s1 s2 s2' : FReg) (s3 : PReg) (s : State), s2'.val = s2.val + 1 →
    let n := Config.curve.n
    let e := (s.getF s1).toNat
    let r := (s.getF s2).toNat
    let sg := (s.getF s2').toNat
    let Q := s.getP s3
    let w := (sg % n) ^ (n - 2) % n
    let X := pointAdd Config.curve
      (scalarMult Config.curve (e % n * w % n) Config.curve.base)
      (scalarMult Config.curve (r * w % n) Q)
    decode (commandWord 0x39 d s1 s2 s3) = .ok (.ecdsaVerify d s1 s2 s3)
    ∧ ∃ t v, exec (.ecdsaVerify d s1 s2 s3) s = .next t ∧ WritesF d v s t
      ∧ (v = 0#256 ∨ v = 1#256)
      ∧ (v = 1#256 ↔ (1 ≤ r ∧ r ≤ n - 1 ∧ 1 ≤ sg ∧ sg ≤ n - 1 ∧ Q.inf = false
          ∧ onCurve Config.curve Q = true ∧ X.inf = false ∧ X.x.toNat % n = r))

/-- 45_ecdsa.md R183: what `ECDSA_SIGN` writes, `ECDSA_VERIFY` accepts with the public point of the
private scalar. First for the computations, over any admissible curve; then for the commands, where
the device may have done anything between that keeps the four operands. -/
def Obligations.SignThenVerifyAccepts : Prop :=
  (∀ (c : Curve) (e dk k r sg : Word256), Config.Admissible c →
    signResult c e dk k = .ok (r, sg) →
    verifyAccepts c e r sg (scalarMult c dk.toNat c.base) = true)
  ∧ ∀ (s t u : State) (d d' s1 s2 s3 x e : FReg) (q : PReg), d'.val = d.val + 1 →
    exec (.ecdsaSign d s1 s2 s3) s = .next t → t.err = .ok →
    u.getF d = t.getF d → u.getF d' = t.getF d' → u.getF e = s.getF s1 →
    u.getP q = scalarMult Config.curve (s.getF s2).toNat Config.curve.base →
    ∃ v, exec (.ecdsaVerify x e d q) u = .next v ∧ WritesF x 1#256 u v

/-! ## The cipher (46_cipher.md) -/

/-- 46_cipher.md R190, R191 and R196: one round, the S-boxes nibble by nibble, the rotation by 11 as
00_scope.md R15 defines it, and no final swap. -/
def Obligations.FroundIsOneFeistelRound : Prop :=
  ∀ (i : KIdx) (s : State),
    decode (commandWord 0x54 0 i 0 0) = .ok (.fround i)
    ∧ ∃ (u : Word32) (t : State), exec (.fround i) s = .next t
      ∧ u.toNat = ∑ b : Fin 8,
          (Config.sbox b ((s.blk.extractLsb' 0 32 + s.getKey i).extractLsb' (4 * b.val) 4)).toNat
            * 2 ^ (4 * b.val)
      ∧ WritesCipher s.getKey
          ((s.blk.extractLsb' 0 32 ++ (s.blk.extractLsb' 32 32 ^^^ (u <<< 11 ||| u >>> 21)) :
            BitVec (32 + 32))) s.chain s t

/-- 46_cipher.md R194, R195 and R199: `BENC` runs the rounds of `ENC_SEQ` and swaps, `BDEC` those of
`DEC_SEQ` (R192), and `FSWAP` swaps alone. -/
def Obligations.BlockCommandsWriteBlkInPlace : Prop :=
  ∀ s : State,
    let up : List KIdx := [0, 1, 2, 3, 4, 5, 6, 7]
    let rounds := fun (seq : List KIdx) =>
      seq.foldl (fun X i => feistelRound Config.sbox X (s.getKey i)) s.blk
    let swap := fun X : Block => ((X.extractLsb' 0 32 ++ X.extractLsb' 32 32 : BitVec (32 + 32)) : Block)
    (decode (commandWord 0x50 0 0 0 0) = .ok .benc ∧ ∃ t, exec .benc s = .next t
      ∧ WritesCipher s.getKey (swap (rounds (up ++ up ++ up ++ up.reverse))) s.chain s t)
    ∧ (decode (commandWord 0x51 0 0 0 0) = .ok .bdec ∧ ∃ t, exec .bdec s = .next t
      ∧ WritesCipher s.getKey (swap (rounds (up ++ up.reverse ++ up.reverse ++ up.reverse))) s.chain
          s t)
    ∧ (decode (commandWord 0x55 0 0 0 0) = .ok .fswap ∧ ∃ t, exec .fswap s = .next t
      ∧ WritesCipher s.getKey (swap s.blk) s.chain s t)

/-- 46_cipher.md R197 and R198: CBC chaining; decryption chains the ciphertext block, not the
decrypted output. -/
def Obligations.CbcCommandsChainTheCiphertext : Prop :=
  ∀ s : State,
    (decode (commandWord 0x52 0 0 0 0) = .ok .cbcenc ∧ ∃ t c, exec .cbcenc s = .next t
      ∧ c = encryptBlock Config.sbox s.key (s.blk ^^^ s.chain)
      ∧ WritesCipher s.getKey c c s t)
    ∧ (decode (commandWord 0x53 0 0 0 0) = .ok .cbcdec ∧ ∃ t, exec .cbcdec s = .next t
      ∧ WritesCipher s.getKey (decryptBlock Config.sbox s.key s.blk ^^^ s.chain) s.blk s t)

/-- 46_cipher.md R200: `KEY[0]` is the most significant word of the field register. -/
def Obligations.KeyldfLoadsTheSubkeys : Prop :=
  ∀ (s1 : FReg) (s : State),
    decode (commandWord 0x56 0 s1 0 0) = .ok (.keyldf s1)
    ∧ ∃ (t : State) (key : KIdx → Word32), exec (.keyldf s1) s = .next t
      ∧ (∀ i, (key i).toNat = (s.getF s1).toNat / 2 ^ (224 - 32 * i.val) % 2 ^ 32)
      ∧ WritesCipher key s.blk s.chain s t

/-- 46_cipher.md R193: decryption inverts encryption, and encryption decryption, for every S-box
table, every key and every block. -/
def Obligations.DecryptionInvertsEncryption : Prop :=
  ∀ (sbox : Fin 8 → BitVec 4 → BitVec 4) (key : Vector Word32 8) (x : Block),
    decryptBlock sbox key (encryptBlock sbox key x) = x
    ∧ encryptBlock sbox key (decryptBlock sbox key x) = x

/-- 46_cipher.md R201: the 32 single rounds of a sequence and then `FSWAP` leave `BLK` as the block
command does, and everything else as it does. -/
def Obligations.RoundByRoundEqualsBlockCommand : Prop :=
  ∀ s : State,
    (∃ t, exec .benc s = .next t ∧ runCommands (encSeq.map Instr.fround ++ [.fswap]) s = some t)
    ∧ (∃ t, exec .bdec s = .next t ∧ runCommands (decSeq.map Instr.fround ++ [.fswap]) s = some t)

/-- 46_cipher.md R206: on an idle device the host's `decrypt` gives back what its `encrypt` was given,
for every key, IV, byte string and byte maps; the ciphertext has the padded length (R204). The host
procedures are the model's reference programs (log 24). -/
def Obligations.CipherRoundTrip : Prop :=
  ∀ (maps : ByteMaps) (key : Vector Byte 32) (iv : Vector Byte 8) (pt : List Byte) (s : State),
    s.busy = false →
    ∃ ct t u, hostEncrypt maps pt key iv s = .ok (ct, t)
      ∧ ct.length = (pad pt).length
      ∧ hostDecrypt maps ct key iv t = .ok (pt, u)

/-! ## Control and moves (47_control.md) -/

/-- 47_control.md R220: the word 0 alone is `NOP`; it completes with `OK` and changes nothing else,
and with `IE = 1` it raises `irq`. -/
def Obligations.NopOnlyCompletes : Prop :=
  (∀ w : Word32, decode w = .ok .nop ↔ w = 0#32)
  ∧ (∀ w : Word32, w.extractLsb' 0 8 = 0#8 → w ≠ 0#32 → ¬ ∃ i, decode w = .ok i)
  ∧ ∀ s : State, ∃ t, exec .nop s = .next t ∧ WritesCipher s.getKey s.blk s.chain s t
    ∧ t.irq = s.ie

/-- 47_control.md R221 and R224: the hardwired constants, exactly, and the base point. -/
def Obligations.CurveConstantsAreLoaded : Prop :=
  (∀ (d : FReg) (sel : Sel) (s : State) (h : sel.val < 6),
    decode (commandWord 0x71 d sel 0 0) = .ok (.curvec d sel)
    ∧ ∃ t v, exec (.curvec d sel) s = .next t ∧ WritesF d v s t
      ∧ v.toNat = [Config.curve.p, Config.curve.a, Config.curve.b, Config.curve.gx, Config.curve.gy,
          Config.curve.n][sel.val])
  ∧ (∀ (d : FReg) (sel : Sel), 6 ≤ sel.val → decode (commandWord 0x71 d sel 0 0) = .error .selector)
  ∧ (∀ (d : PReg) (s : State),
    decode (commandWord 0x73 d 0 0 0) = .ok (.pldg d)
    ∧ ∃ t Q, exec (.pldg d) s = .next t ∧ WritesP d Q s t ∧ Q.inf = false
      ∧ Q.x.toNat = Config.curve.gx ∧ Q.y.toNat = Config.curve.gy)

/-- 47_control.md R222 and R223: the moves; an Infinity source is written canonical, and any other
point exactly as read. -/
def Obligations.MovesCopyRegisters : Prop :=
  (∀ (d s1 : FReg) (s : State),
    decode (commandWord 0x70 d s1 0 0) = .ok (.fmov d s1)
    ∧ ∃ t, exec (.fmov d s1) s = .next t ∧ WritesF d (s.getF s1) s t)
  ∧ (∀ (d s1 : PReg) (s : State),
    decode (commandWord 0x72 d s1 0 0) = .ok (.pmov d s1)
    ∧ ∃ t, exec (.pmov d s1) s = .next t
      ∧ ((s.getP s1).inf = true → WritesP d { inf := true, x := 0#256, y := 0#256 } s t)
      ∧ ((s.getP s1).inf = false → WritesP d (s.getP s1) s t))

/-! ## The machine -/

/-- Every step keeps the invariant: the message buffer stays canonical, and while a command is
pending `CMD` holds its word and `DONE` and `ERR` are 0 (10_state.md R32, R34, R39, R42). -/
def Obligations.StepKeepsTheInvariant : Prop :=
  ∀ s t : State, Inv s → step s = .next t → Inv t

/-- The state after reset meets the invariant. -/
def Obligations.ResetMeetsTheInvariant : Prop := Inv State.reset

/-- 10_state.md R44: the values after reset, and after a soft and a power-on reset of any state. A
soft reset keeps `MSGBUF`; of its contents after power-on nothing is said. -/
def Obligations.ResetValues : Prop :=
  ∀ s : State,
    (∀ t ∈ [State.reset, s.softReset, s.powerOnReset],
      (∀ i, t.getF i = 0#256) ∧ (∀ i, t.getP i = { inf := true, x := 0#256, y := 0#256 })
      ∧ (∀ i, t.getKey i = 0#32) ∧ t.blk = 0#64 ∧ t.chain = 0#64 ∧ t.msglen = 0#32
      ∧ t.ctrlWord = 0#32 ∧ t.statusWord = 0#32 ∧ t.cmd = 0#32 ∧ t.pending = none ∧ t.irq = false
      ∧ t.readTarget .id = 0x4D4D0001#32)
    ∧ (∀ j, s.softReset.msgByte j = s.msgByte j)
    ∧ takeInput .powerOn s = .next s.powerOnReset
    ∧ takeInput (.write 4 0x004 2#32) s = .next s.softReset

/-- What follows right after any reset, whatever the state before it: the consequences that
70_reset_and_hazards.md R264 itself derives from 10_state.md R44 and the command rules, with every
command that reads a modulus (41_field.md R115, R117) and with every operand. -/
def Obligations.ResetConsequences : Prop :=
  ∀ s : State, ∀ r ∈ [State.reset, s.softReset, s.powerOnReset],
    (∀ d s1 s2 s3 : FReg,
      ∀ i ∈ [Instr.modadd d s1 s2 s3, .modsub d s1 s2 s3, .modred d s1 s2 s3, .montmul d s1 s2 s3,
        .tomont d s1 s3, .frommont d s1 s3, .modmul d s1 s2 s3, .modexp d s1 s2 s3, .modinv d s1 s3],
      ∃ t, exec i r = .next t ∧ Fails .badModulus r t)
    ∧ (∀ d s1 s2 : PReg, ∃ t, exec (.ecadd d s1 s2) r = .next t ∧ WritesP d Point.infinity r t)
    ∧ (∀ (d : PReg) (s1 : FReg), ∃ t, exec (.keygen d s1) r = .next t ∧ Fails .invalidScalar r t)
    ∧ (∀ d : FReg, ∃ t, exec (.hash d) r = .next t ∧ WritesF d (digest Config.hash []) r t)
    ∧ ∃ t, exec .benc r = .next t
      ∧ WritesCipher (fun _ => 0#32) (encryptBlock Config.sbox (Vector.replicate 8 0#32) 0#64) 0#64
          r t

/-- 70_reset_and_hazards.md R261 and 10_state.md R31: a `CTRL` write with bit 1 set, busy or not, puts
every register to its reset value, ignores bit 0, keeps `MSGBUF`, and abandons a pending command; with
bit 1 clear it only stores `IE`; a read, busy or not, returns `IE` in bit 0, and 0 for `SRST` and every
reserved bit. -/
def Obligations.CtrlWriteResetsOrStoresIe : Prop :=
  ∀ (s : State) (v : Word32),
    (v.getLsbD 1 = true → ∃ t, takeInput (.write 4 0x004 v) s = .next t
      ∧ (∀ i, t.getF i = 0#256) ∧ (∀ i, t.getP i = { inf := true, x := 0#256, y := 0#256 })
      ∧ (∀ i, t.getKey i = 0#32) ∧ t.blk = 0#64 ∧ t.chain = 0#64 ∧ t.msglen = 0#32
      ∧ t.ctrlWord = 0#32 ∧ t.statusWord = 0#32 ∧ t.cmd = 0#32 ∧ t.pending = none ∧ t.irq = false
      ∧ (∀ j, t.msgByte j = s.msgByte j))
    ∧ (v.getLsbD 1 = false →
      takeInput (.write 4 0x004 v) s = .next { s with ie := v.getLsbD 0 })
    ∧ ∃ t w, takeInput (.read 4 0x004) s = .next t ∧ t.answer = some w
      ∧ ∀ i, w.getLsbD i = if i = 0 then s.ie else false

/-- 70_reset_and_hazards.md R262: a pending command leaves `PENDING` only by the engine's perform, by
a power-on reset, or by a `CTRL` write with `SRST`; a reset discards it, with `DONE` 0, no `irq`, and
no destination written. -/
def Obligations.OnlyPerformOrResetEndsACommand : Prop :=
  (∀ (s t : State) (w : Word32), step s = .next t → s.pending = some w → t.pending ≠ some w →
    (s.inputs = [] ∧ perform w s = .next t)
    ∨ (∃ rest, s.inputs = .engine :: rest ∧ perform w { s with inputs := rest } = .next t)
    ∨ (∃ rest, s.inputs = .powerOn :: rest ∧ t = ({ s with inputs := rest } : State).powerOnReset)
    ∨ (∃ rest v, s.inputs = .write 4 0x004 v :: rest ∧ v.getLsbD 1 = true
        ∧ t = ({ s with inputs := rest } : State).softReset))
  ∧ ∀ s : State, ∀ t ∈ [s.softReset, s.powerOnReset],
      t.pending = none ∧ t.done = false ∧ t.irq = false ∧ (∀ i, t.getF i = State.reset.getF i)
      ∧ (∀ i, t.getP i = State.reset.getP i) ∧ t.key = State.reset.key ∧ t.blk = State.reset.blk
      ∧ t.chain = State.reset.chain

/-- 10_state.md R34 and event 1 of R42: a write of `CMD` while idle is an acceptance, and changes
nothing else; a write while busy is dropped and sets `HAZ`; a read returns the accepted word. -/
def Obligations.CmdHoldsTheAcceptedCommand : Prop :=
  (∀ (s : State) (w : Word32), s.busy = false →
    ∃ t, takeInput (.write 4 0x00C w) s = .next t ∧ t.cmd = w ∧ t.pending = some w
      ∧ t.busy = true ∧ t.done = false ∧ t.err = .ok ∧ t.haz = s.haz ∧ t.ie = s.ie
      ∧ SameCipher s t ∧ t.f = s.f ∧ t.p = s.p ∧ t.mem = s.mem ∧ t.msglen = s.msglen
      ∧ (∀ j, t.msgByte j = s.msgByte j)
      ∧ ∃ u, takeInput (.read 4 0x00C) t = .next u ∧ u.answer = some w)
  ∧ (∀ (s : State) (w : Word32), s.busy = true →
    takeInput (.write 4 0x00C w) s = .next { s with haz := true })
  ∧ (∀ s : State, ∃ t, takeInput (.read 4 0x00C) s = .next t ∧ t.answer = some s.cmd)
  ∧ State.reset.cmd = 0#32

/-- 70_reset_and_hazards.md R275: a pending command is performed, or ended by a reset, after finitely
many steps, at most one more than the host accesses that wait. (The bound is the model's: log 1.) -/
def Obligations.PendingCommandEndsInBoundedSteps : Prop :=
  ∀ s : State, s.busy = true → (∀ x ∈ s.inputs, Input.Defined x) →
    ∃ k ≤ s.inputs.length + 1, ∃ t, runSteps k s = some t ∧ t.busy = false

/-- 70_reset_and_hazards.md R271: a write of a data register or of `CMD` while busy changes nothing
but `HAZ`, and `HAZ` stays 1 until a 1 is written to bit 2 of `STATUS` or a reset. -/
def Obligations.BusyWritesAreDropped : Prop :=
  (∀ (s : State) (off : Nat) (v : Word32), s.busy = true → DataOffset off ∨ off = 0x00C →
    takeInput (.write 4 off v) s = .next { s with haz := true }
    ∧ ({ s with haz := true } : State).irq = s.irq)
  ∧ (∀ s t : State, step s = .next t → s.haz = true → t.haz = true
      ∨ (∃ rest v, s.inputs = .write 4 0x008 v :: rest ∧ v.getLsbD 2 = true)
      ∨ (∃ rest v, s.inputs = .write 4 0x004 v :: rest ∧ v.getLsbD 1 = true)
      ∨ (∃ rest, s.inputs = .powerOn :: rest))

/-- 20_memory.md R68: a read changes nothing of the device, and read again it returns the same value,
but for a data register read while busy. -/
def Obligations.ReadsHaveNoSideEffects : Prop :=
  ∀ (s : State) (off : Nat), DefinedAccess 4 off →
    ∃ t, takeInput (.read 4 off) s = .next t ∧ SameDevice s t ∧ t.inputs = s.inputs
      ∧ t.answer.isSome = true
      ∧ (s.busy = false ∨ ¬ DataOffset off → t.draws = s.draws
          ∧ ∃ u, takeInput (.read 4 off) t = .next u ∧ u.answer = t.answer)

/-- 20_memory.md R62: where the words of a field register are, and that a write replaces one word and
nothing else. -/
def Obligations.FieldRegisterWords : Prop :=
  ∀ (s : State) (i : FReg) (j : Fin 8) (v : Word32), s.busy = false →
    (∃ t, takeInput (.read 4 (0x100 + 0x20 * i.val + 4 * j.val)) s = .next t
      ∧ t.answer = some ((s.getF i).extractLsb' (32 * j.val) 32))
    ∧ ∃ t, takeInput (.write 4 (0x100 + 0x20 * i.val + 4 * j.val) v) s = .next t
      ∧ (∀ k : Fin 8, (t.getF i).extractLsb' (32 * k.val) 32 =
          if k = j then v else (s.getF i).extractLsb' (32 * k.val) 32)
      ∧ (∀ i', i' ≠ i → t.getF i' = s.getF i') ∧ { t with f := s.f } = s

/-- 20_memory.md R63: where the words of a point register are: `x`, `y`, the `INF` word with its
reserved bits, and the reserved words after it. -/
def Obligations.PointRegisterWords : Prop :=
  ∀ (s : State) (i : PReg) (j : Fin 8) (v : Word32), s.busy = false →
    let base := 0x300 + 0x60 * i.val
    let word := fun (Q : Word256) (k : Fin 8) => Q.extractLsb' (32 * k.val) 32
    (∃ t, takeInput (.read 4 (base + 4 * j.val)) s = .next t
      ∧ t.answer = some (word (s.getP i).x j))
    ∧ (∃ t, takeInput (.read 4 (base + 0x20 + 4 * j.val)) s = .next t
      ∧ t.answer = some (word (s.getP i).y j))
    ∧ (∃ t, takeInput (.read 4 (base + 0x40)) s = .next t
      ∧ t.answer = some (if (s.getP i).inf then 1#32 else 0#32))
    ∧ (∃ t, takeInput (.write 4 (base + 4 * j.val) v) s = .next t
      ∧ (t.getP i).inf = (s.getP i).inf ∧ (t.getP i).y = (s.getP i).y
      ∧ (∀ k, word (t.getP i).x k = if k = j then v else word (s.getP i).x k)
      ∧ (∀ i', i' ≠ i → t.getP i' = s.getP i') ∧ { t with p := s.p } = s)
    ∧ (∃ t, takeInput (.write 4 (base + 0x20 + 4 * j.val) v) s = .next t
      ∧ (t.getP i).inf = (s.getP i).inf ∧ (t.getP i).x = (s.getP i).x
      ∧ (∀ k, word (t.getP i).y k = if k = j then v else word (s.getP i).y k)
      ∧ (∀ i', i' ≠ i → t.getP i' = s.getP i') ∧ { t with p := s.p } = s)
    ∧ (∃ t, takeInput (.write 4 (base + 0x40) v) s = .next t
      ∧ t.getP i = { s.getP i with inf := v.getLsbD 0 }
      ∧ (∀ i', i' ≠ i → t.getP i' = s.getP i') ∧ { t with p := s.p } = s)
    ∧ (∀ r, 0x44 ≤ r → r < 0x60 → r % 4 = 0 →
        takeInput (.write 4 (base + r) v) s = .next s
        ∧ ∃ t, takeInput (.read 4 (base + r)) s = .next t ∧ t.answer = some 0#32)

/-- 20_memory.md R61, the rows of `KEY`, `BLK`, `CHAIN` and `MSGLEN`, and 10_state.md R29: each word
where the map puts it, and a write of it changes nothing else. -/
def Obligations.CipherRegisterWords : Prop :=
  ∀ (s : State) (v : Word32), s.busy = false →
    (∀ i : KIdx,
      (∃ t, takeInput (.read 4 (0x600 + 4 * i.val)) s = .next t ∧ t.answer = some (s.getKey i))
      ∧ ∃ t, takeInput (.write 4 (0x600 + 4 * i.val) v) s = .next t
        ∧ (∀ i', t.getKey i' = if i' = i then v else s.getKey i') ∧ { t with key := s.key } = s)
    ∧ (∀ j : Fin 2,
      (∃ t, takeInput (.read 4 (0x620 + 4 * j.val)) s = .next t
        ∧ t.answer = some (s.blk.extractLsb' (32 * j.val) 32))
      ∧ (∃ t, takeInput (.write 4 (0x620 + 4 * j.val) v) s = .next t
        ∧ (∀ k : Fin 2, t.blk.extractLsb' (32 * k.val) 32 =
            if k = j then v else s.blk.extractLsb' (32 * k.val) 32) ∧ { t with blk := s.blk } = s)
      ∧ (∃ t, takeInput (.read 4 (0x628 + 4 * j.val)) s = .next t
        ∧ t.answer = some (s.chain.extractLsb' (32 * j.val) 32))
      ∧ (∃ t, takeInput (.write 4 (0x628 + 4 * j.val) v) s = .next t
        ∧ (∀ k : Fin 2, t.chain.extractLsb' (32 * k.val) 32 =
            if k = j then v else s.chain.extractLsb' (32 * k.val) 32)
        ∧ { t with chain := s.chain } = s))
    ∧ (∃ t, takeInput (.read 4 0x010) s = .next t ∧ t.answer = some s.msglen)
    ∧ takeInput (.write 4 0x010 v) s = .next { s with msglen := v }

/-- 20_memory.md R66: little-endian byte lanes of `MSGBUF`; a write stores all four bytes and no
other, and changes nothing else. -/
def Obligations.MessageBufferLanes : Prop :=
  ∀ (s : State) (k : Fin 1024) (v : Word32), s.busy = false →
    (∃ t w, takeInput (.read 4 (0x1000 + 4 * k.val)) s = .next t ∧ t.answer = some w
      ∧ ∀ l : Fin 4, w.extractLsb' (8 * l.val) 8 = s.msgByte (4 * k.val + l.val))
    ∧ ∃ t, takeInput (.write 4 (0x1000 + 4 * k.val) v) s = .next t
      ∧ (∀ l : Fin 4, t.msgByte (4 * k.val + l.val) = v.extractLsb' (8 * l.val) 8)
      ∧ (∀ j, (j < 4 * k.val ∨ 4 * k.val + 4 ≤ j) → t.msgByte j = s.msgByte j)
      ∧ { t with mem := s.mem } = s

/-- 20_memory.md R67 and 10_state.md R30: reserved offsets read as zero and `ID` as its constant, and
writes to them change nothing, `HAZ` included, busy or not; the reserved bits of `CTRL` and `STATUS`
read as zero, busy or not; those of the `INF` words read as zero while idle, for a busy read of an
`INF` word is a free value, which is the model's reading of 70_reset_and_hazards.md R272 (log 25,
DEDUCED); what is written to reserved bits is ignored. -/
def Obligations.ReservedOffsetsAndBits : Prop :=
  (∀ (s : State) (off : Nat) (v : Word32), ReservedOffset off ∨ off = 0x000 →
    takeInput (.write 4 off v) s = .next s
    ∧ ∃ t, takeInput (.read 4 off) s = .next t ∧ SameDevice s t
      ∧ t.answer = some (if off = 0x000 then 0x4D4D0001#32 else 0#32))
  ∧ ∀ (s : State) (v : Word32) (i : PReg),
    (∃ t w, takeInput (.read 4 0x004) s = .next t ∧ t.answer = some w ∧ w &&& ~~~1#32 = 0#32)
    ∧ (∃ t w, takeInput (.read 4 0x008) s = .next t ∧ t.answer = some w
        ∧ w &&& ~~~0xF07#32 = 0#32)
    ∧ (s.busy = false → ∃ t w, takeInput (.read 4 (0x340 + 0x60 * i.val)) s = .next t
        ∧ t.answer = some w ∧ w &&& ~~~1#32 = 0#32)
    ∧ takeInput (.write 4 0x004 v) s = takeInput (.write 4 0x004 (v &&& 3#32)) s
    ∧ takeInput (.write 4 0x008 v) s = takeInput (.write 4 0x008 (v &&& 6#32)) s
    ∧ takeInput (.write 4 (0x340 + 0x60 * i.val) v) s
        = takeInput (.write 4 (0x340 + 0x60 * i.val) (v &&& 1#32)) s

/-- A step faults exactly on a host access the device does not define, with `BusAccessFault` for a
wrong width or alignment (20_memory.md R64), and with the model's own fault beyond the window (log
13); it never refuses, and otherwise it answers a next state. -/
def Obligations.StepFaultsExactlyOnUndefinedAccesses : Prop :=
  ∀ s : State,
    ((∀ x rest, s.inputs = x :: rest → Input.Defined x) → ∃ t, step s = .next t)
    ∧ (∀ width off rest v,
        s.inputs = .read width off :: rest ∨ s.inputs = .write width off v :: rest →
        (width ≠ 4 ∨ off % 4 ≠ 0 → step s = .fault .busAccess)
        ∧ (width = 4 → off % 4 = 0 → 0x2000 ≤ off → step s = .fault .outsideWindow))

/-- 10_state.md R32 and R33: the bits of `STATUS`, with the numbers of `ERR` that 60_exceptions.md R230
gives the codes, and that a write clears exactly the W1C bits it writes 1 to, busy or not. -/
def Obligations.StatusWordAndWriteOneToClear : Prop :=
  ∀ (s : State) (v : Word32),
    (∀ i, s.statusWord.getLsbD i =
      if i = 0 then s.busy else if i = 1 then s.done else if i = 2 then s.haz
      else if 8 ≤ i ∧ i < 12 then s.err.number.getLsbD (i - 8) else false)
    ∧ [ErrCode.ok, .illegal, .badModulus, .badOperand, .invalidPublicKey, .degenerateSecret,
        .invalidScalar, .nonceRejected, .badLength, .keygenCheckFailed].map ErrCode.number
      = [0#4, 1#4, 2#4, 3#4, 4#4, 5#4, 6#4, 7#4, 8#4, 9#4]
    ∧ (∃ t, takeInput (.read 4 0x008) s = .next t ∧ t.answer = some s.statusWord)
    ∧ takeInput (.write 4 0x008 v) s = .next { s with
        done := if v.getLsbD 1 then false else s.done
        haz := if v.getLsbD 2 then false else s.haz }

/-- Every command answers a next state in which it has completed (10_state.md R42, R43); it writes no
register that R36 does not list for it; and when it reports an error it has written none
(60_exceptions.md R232). It is said of ill-formed commands too (an `Fpair` of 15, a selector above 5),
which no word decodes to: that these complete, with `ILLEGAL`, is the model's (log 16, DEDUCED). -/
def Obligations.EveryCommandCompletesAndWritesOnlyItsRegisters : Prop :=
  ∀ (i : Instr) (s : State), ∃ t, exec i s = .next t
    ∧ t.busy = false ∧ t.done = true ∧ Untouched s t
    ∧ (∀ r, r ∉ fieldDests i → t.getF r = s.getF r)
    ∧ (∀ r, r ∉ pointDests i → t.getP r = s.getP r)
    ∧ (writesKey i = false → t.key = s.key)
    ∧ (writesBlk i = false → t.blk = s.blk)
    ∧ (writesChain i = false → t.chain = s.chain)
    ∧ (t.err ≠ .ok → Fails t.err s t)

/-- 60_exceptions.md R236 and R237: `irq` is `IE` and `DONE`; it rises only when the engine completes
a command, or when a `CTRL` write sets `IE` while `DONE` is 1, which raises it at once as clearing
`IE` lowers it; a completion with `IE = 0` sets `DONE` and leaves `irq` 0. -/
def Obligations.IrqFollowsDoneAndEnable : Prop :=
  (∀ s : State, s.irq = true ↔ s.ie = true ∧ s.done = true)
  ∧ (∀ s t : State, step s = .next t → s.irq = false → t.irq = true →
    (∃ w, s.pending = some w ∧ t.pending = none ∧ t.done = true ∧ s.ie = true
      ∧ ((s.inputs = [] ∧ perform w s = .next t)
        ∨ ∃ rest, s.inputs = .engine :: rest ∧ perform w { s with inputs := rest } = .next t))
    ∨ (∃ rest v, s.inputs = .write 4 0x004 v :: rest ∧ v.getLsbD 0 = true ∧ v.getLsbD 1 = false
      ∧ s.done = true))
  ∧ (∀ (s : State) (v : Word32), v.getLsbD 1 = false →
      ∃ t, takeInput (.write 4 0x004 v) s = .next t ∧ t.irq = (v.getLsbD 0 && s.done))
  ∧ ∀ (s t : State) (w : Word32), s.pending = some w → engineTurn s = .next t →
      t.done = true ∧ t.irq = s.ie
end

