-- ==== Sys2Proof/Laws/Arith.lean ====
section
/-! SUPPORT. What the shared arithmetic computes: the remainder, the exact power reduced, the
Montgomery inverse, the byte strings. -/

namespace Sys2Proof.Machine

theorem residue_lt (x : Int) {m : Nat} (hm : 0 < m) : residue x m < m := by
  have h := Int.emod_lt_of_pos x (show (0 : Int) < m by exact_mod_cast hm)
  have h' := Int.emod_nonneg x (show (m : Int) ≠ 0 by exact_mod_cast hm.ne')
  unfold residue; omega

theorem residue_cast (x : Int) {m : Nat} (hm : 0 < m) : (residue x m : Int) = x % m :=
  Int.toNat_of_nonneg (Int.emod_nonneg x (by exact_mod_cast hm.ne'))

@[simp] theorem residue_natCast (x m : Nat) : residue (x : Int) m = x % m := by
  rw [residue, ← Int.natCast_mod, Int.toNat_natCast]

theorem powLoop_eq (m : Nat) : ∀ (fuel base e acc : Nat), e < 2 ^ fuel →
    powLoop m fuel base e acc % m = acc * base ^ e % m
  | 0, base, e, acc, h => by
    have : e = 0 := by simpa using h
    simp [powLoop, this]
  | fuel + 1, base, e, acc, h => by
    rw [powLoop]
    split
    · rename_i h0; simp [h0]
    · rw [powLoop_eq m fuel _ _ _ (by rw [pow_succ] at h; omega)]
      have hsq : (base * base % m) ^ (e / 2) ≡ base ^ (2 * (e / 2)) [MOD m] := by
        rw [pow_mul, pow_two]; exact (Nat.mod_modEq _ _).pow _
      split
      · rename_i hodd
        have he : e = 2 * (e / 2) + 1 := by omega
        calc acc * base % m * (base * base % m) ^ (e / 2)
            ≡ acc * base * base ^ (2 * (e / 2)) [MOD m] := (Nat.mod_modEq _ _).mul hsq
          _ = acc * base ^ e := by conv_rhs => rw [he]
                                   ring
      · rename_i heven
        have he : e = 2 * (e / 2) := by omega
        calc acc * (base * base % m) ^ (e / 2)
            ≡ acc * base ^ (2 * (e / 2)) [MOD m] := hsq.mul_left acc
          _ = acc * base ^ e := by rw [← he]

theorem powLoop_lt {m : Nat} (hm : 0 < m) : ∀ (fuel base e acc : Nat), acc < m →
    powLoop m fuel base e acc < m
  | 0, _, _, _, h => by simpa [powLoop] using h
  | fuel + 1, base, e, acc, h => by
    rw [powLoop]
    split
    · exact h
    · refine powLoop_lt hm fuel _ _ _ ?_
      split
      · exact Nat.mod_lt _ hm
      · exact h

/-- `powMod` is the exact integer power reduced, for an exponent of at most 256 bits
(41_field.md R122). -/
theorem powMod_eq {a b m : Nat} (hm : 0 < m) (hb : b < 2 ^ 256) : powMod a b m = a ^ b % m := by
  have hlt : powMod a b m < m := powLoop_lt hm _ _ _ _ (Nat.mod_lt _ hm)
  rw [← Nat.mod_eq_of_lt hlt, powMod, powLoop_eq m 256 _ _ _ hb]
  exact ((Nat.mod_modEq 1 m).mul ((Nat.mod_modEq a m).pow b)).trans (by rw [one_mul])

theorem powMod_lt {m : Nat} (a b : Nat) (hm : 0 < m) : powMod a b m < m :=
  powLoop_lt hm _ _ _ _ (Nat.mod_lt _ hm)

/-- `Rinv` of 41_field.md R116: below `m`, and the inverse of `R` modulo an odd `m`. -/
theorem montInverse_spec {m : Nat} (hm : m % 2 = 1) :
    montInverse m < m ∧ montRadix * montInverse m % m = 1 % m := by
  have hpos : 0 < m := by omega
  refine ⟨powMod_lt _ _ hpos, ?_⟩
  rw [montInverse, powMod_eq hpos (by norm_num), montRadix]
  have h2 : 2 * ((m + 1) / 2) = m + 1 := by omega
  calc 2 ^ 256 * (((m + 1) / 2) ^ 256 % m)
      ≡ 2 ^ 256 * ((m + 1) / 2) ^ 256 [MOD m] := (Nat.mod_modEq _ _).mul_left _
    _ = (m + 1) ^ 256 := by rw [← mul_pow, h2]
    _ ≡ 1 ^ 256 [MOD m] := Nat.ModEq.pow _ (by simp [Nat.ModEq])
    _ = 1 := one_pow _

theorem invMod_eq (v : Int) {m : Nat} (hm : 0 < m) (hlt : m < 2 ^ 256) :
    invMod v m = residue v m ^ (m - 2) % m := powMod_eq hm (by omega)

/-- `inv_p` and `inv_n` invert modulo a prime (00_scope.md R19; Fermat's little theorem). -/
theorem invMod_mul {v : Int} {m : Nat} (hp : m.Prime) (hlt : m < 2 ^ 256)
    (hv : residue v m ≠ 0) : residue v m * invMod v m % m = 1 := by
  have h2 : 2 ≤ m := hp.two_le
  have hcop : (residue v m).Coprime m :=
    (hp.coprime_iff_not_dvd.2
      (Nat.not_dvd_of_pos_of_lt (Nat.pos_of_ne_zero hv) (residue_lt v hp.pos))).symm
  rw [invMod_eq v hp.pos hlt, Nat.mul_mod, Nat.mod_mod, ← Nat.mul_mod, ← pow_succ']
  have : m - 2 + 1 = Nat.totient m := by rw [Nat.totient_prime hp]; omega
  rw [this]
  have := Nat.ModEq.pow_totient hcop
  rw [Nat.ModEq, Nat.mod_eq_of_lt (show 1 < m by omega)] at this
  exact this

theorem invMod_lt (v : Int) {m : Nat} (hm : 0 < m) : invMod v m < m := powMod_lt _ _ hm

@[simp] theorem i2osp_length : ∀ len x, (i2osp len x).length = len
  | 0, _ => rfl
  | len + 1, x => by simp [i2osp, i2osp_length len x]

theorem os2ip_append (l l' : List Byte) : os2ip (l ++ l') = os2ip l * 256 ^ l'.length + os2ip l' := by
  have key : ∀ (l' : List Byte) (acc : Nat),
      l'.foldl (fun acc b => acc * 256 + b.toNat) acc = acc * 256 ^ l'.length + os2ip l' := by
    intro l'
    induction l' with
    | nil => simp [os2ip]
    | cons b l' ih =>
      intro acc
      simp only [List.foldl_cons, List.length_cons, os2ip]
      rw [ih, ih (0 * 256 + b.toNat)]
      ring
  rw [os2ip, List.foldl_append, key, ← os2ip]

theorem os2ip_lt (l : List Byte) : os2ip l < 256 ^ l.length := by
  induction l using List.reverseRecOn with
  | nil => simp [os2ip]
  | append_singleton l b ih =>
    rw [os2ip_append]
    have hb : os2ip [b] < 256 := by simpa [os2ip] using b.isLt
    simp only [List.length_append, List.length_singleton, pow_succ]
    nlinarith

/-- The integer of the big-endian bytes of `x` is `x` (00_scope.md R17). -/
theorem os2ip_i2osp : ∀ (len x : Nat), os2ip (i2osp len x) = x % 256 ^ len
  | 0, x => by simp [i2osp, os2ip, Nat.mod_one]
  | len + 1, x => by
    rw [i2osp, ← List.singleton_append, os2ip_append, os2ip_i2osp len x, i2osp_length]
    have : os2ip [BitVec.ofNat 8 (x / 256 ^ len)] = x / 256 ^ len % 256 := by simp [os2ip]
    rw [this, pow_succ, Nat.mod_mul]
    ring

end Sys2Proof.Machine
end

