-- ==== Sys2Proof/Laws/Words.lean ====
section
/-! SUPPORT. The 32-bit words of wide registers, the halves of a block, the lanes of `MSGBUF`. -/

namespace Sys2Proof.Machine

theorem getLsbD_wordOf {n : Nat} (v : BitVec n) (j i : Nat) :
    (wordOf v j).getLsbD i = (decide (i < 32) && v.getLsbD (32 * j + i)) := by
  simp [wordOf]

theorem getLsbD_withWord {n : Nat} (v : BitVec n) (j : Nat) (w : Word32) (i : Nat) :
    (withWord v j w).getLsbD i =
      if 32 * j ≤ i ∧ i < 32 * j + 32 then decide (i < n) && w.getLsbD (i - 32 * j)
      else v.getLsbD i := by
  have hones : ∀ k, (0xFFFFFFFF#32).getLsbD k = decide (k < 32) := by
    intro k
    rw [show (0xFFFFFFFF#32) = BitVec.allOnes 32 from rfl, BitVec.getLsbD_allOnes]
  by_cases hn : i < n
  · simp only [withWord, BitVec.getLsbD_or, BitVec.getLsbD_and, BitVec.getLsbD_not,
      BitVec.getLsbD_shiftLeft, BitVec.getLsbD_setWidth, hn, hones]
    by_cases h1 : i < 32 * j
    · simp [h1, show ¬ 32 * j ≤ i by omega]
    · by_cases h2 : i < 32 * j + 32
      · simp [h1, show 32 * j ≤ i by omega, h2, show i - 32 * j < 32 by omega,
          show i - 32 * j < n by omega]
      · have : w.getLsbD (i - 32 * j) = false := BitVec.getLsbD_of_ge _ _ (by omega)
        simp [h1, h2, show ¬ i - 32 * j < 32 by omega, this]
  · rw [BitVec.getLsbD_of_ge _ _ (by omega), BitVec.getLsbD_of_ge v _ (by omega)]
    simp [hn]

/-- A word written reads back, and no other word changes (20_memory.md R62). -/
theorem wordOf_withWord {n : Nat} (v : BitVec n) (j k : Nat) (w : Word32)
    (hj : 32 * j + 32 ≤ n) : wordOf (withWord v j w) k = if k = j then w else wordOf v k := by
  apply BitVec.eq_of_getLsbD_eq
  intro i hi
  rw [getLsbD_wordOf, getLsbD_withWord]
  by_cases h : k = j
  · subst h
    simp [hi, show 32 * k + i < n by omega]
  · rw [if_neg (by omega), if_neg h, getLsbD_wordOf]

theorem getLsbD_joinHalves (l r : Word32) (i : Nat) :
    (joinHalves l r).getLsbD i = if i < 32 then r.getLsbD i else l.getLsbD (i - 32) :=
  BitVec.getLsbD_append

@[simp] theorem leftHalf_joinHalves (l r : Word32) : leftHalf (joinHalves l r) = l := by
  apply BitVec.eq_of_getLsbD_eq
  intro i hi
  simp [leftHalf, getLsbD_joinHalves, hi]

@[simp] theorem rightHalf_joinHalves (l r : Word32) : rightHalf (joinHalves l r) = r := by
  apply BitVec.eq_of_getLsbD_eq
  intro i hi
  simp [rightHalf, getLsbD_joinHalves, hi]

@[simp] theorem joinHalves_halves (x : Block) : joinHalves (leftHalf x) (rightHalf x) = x := by
  apply BitVec.eq_of_getLsbD_eq
  intro i hi
  simp only [getLsbD_joinHalves, leftHalf, rightHalf]
  split
  · simp [*]
  · simp [show i - 32 < 32 by omega, show 32 + (i - 32) = i by omega]

/-- A block is its two words (20_memory.md R61). -/
theorem joinHalves_wordOf (x : Block) : joinHalves (wordOf x 1) (wordOf x 0) = x :=
  joinHalves_halves x

/-- Both words of a block written, in either register, make the block (20_memory.md R65). -/
theorem withWord_both (v x : Block) : withWord (withWord v 0 (wordOf x 0)) 1 (wordOf x 1) = x := by
  apply BitVec.eq_of_getLsbD_eq
  intro i hi
  rw [getLsbD_withWord, getLsbD_withWord, getLsbD_wordOf, getLsbD_wordOf]
  by_cases h : i < 32
  · simp [h, show ¬ 32 ≤ i by omega, show i < 64 by omega]
  · simp [show 32 ≤ i by omega, hi, show i - 32 < 32 by omega, show 32 + (i - 32) = i by omega]

/-- The bits of four bytes joined, the first the most significant. -/
theorem getLsbD_joinBytes (b3 b2 b1 b0 : Byte) (i : Nat) :
    (b3 ++ b2 ++ b1 ++ b0 : BitVec (8 + 8 + 8 + 8)).getLsbD i =
      if i < 8 then b0.getLsbD i else if i < 16 then b1.getLsbD (i - 8)
      else if i < 24 then b2.getLsbD (i - 16) else b3.getLsbD (i - 24) := by
  simp only [BitVec.getLsbD_append, Nat.sub_sub, show 8 + 8 = 16 from rfl, show 16 + 8 = 24 from rfl]
  split_ifs <;> first | rfl | omega

/-- Byte `l` of four bytes joined, counted from the least significant. -/
theorem extractLsb'_joinBytes (b3 b2 b1 b0 : Byte) (l : Fin 4) :
    (b3 ++ b2 ++ b1 ++ b0 : BitVec (8 + 8 + 8 + 8)).extractLsb' (8 * l.val) 8
      = [b0, b1, b2, b3][l.val] := by
  apply BitVec.eq_of_getLsbD_eq
  intro i hi
  rw [BitVec.getLsbD_extractLsb', getLsbD_joinBytes, decide_eq_true hi, Bool.true_and]
  fin_cases l <;> (simp only [List.getElem_cons_zero, List.getElem_cons_succ]; split_ifs) <;>
    first | omega | (congr 1; omega)

/-- The lanes of a message word: byte `4k + l` in bits `8l+7 : 8l` (20_memory.md R66). -/
theorem State.msgWord_lane (s : State) (k : Nat) (l : Fin 4) :
    (s.msgWord k).extractLsb' (8 * l.val) 8 = s.msgByte (4 * k + l.val) := by
  refine (extractLsb'_joinBytes _ _ _ _ l).trans ?_
  fin_cases l <;> rfl

end Sys2Proof.Machine
end

