-- ==== Sys2Proof/Laws/Cipher.lean ====
section
/-! SUPPORT. The Feistel structure: the halves of a round, and that a round undoes itself between
two swaps (46_cipher.md R193). -/

namespace Sys2Proof.Machine

variable (sbox : Fin 8 → BitVec 4 → BitVec 4)

@[simp] theorem leftHalf_feistelRound (x : Block) (k : Word32) :
    leftHalf (feistelRound sbox x k) = rightHalf x := by simp [feistelRound]

@[simp] theorem rightHalf_feistelRound (x : Block) (k : Word32) :
    rightHalf (feistelRound sbox x k) = leftHalf x ^^^ roundFunction sbox (rightHalf x) k := by
  simp [feistelRound]

@[simp] theorem leftHalf_swapHalves (x : Block) : leftHalf (swapHalves x) = rightHalf x := by
  simp [swapHalves]

@[simp] theorem rightHalf_swapHalves (x : Block) : rightHalf (swapHalves x) = leftHalf x := by
  simp [swapHalves]

@[simp] theorem swapHalves_swapHalves (x : Block) : swapHalves (swapHalves x) = x := by
  rw [swapHalves, leftHalf_swapHalves, rightHalf_swapHalves, joinHalves_halves]

/-- `swap ∘ round ∘ swap` undoes `round`, whatever the round function (46_cipher.md R193). -/
theorem feistelRound_undo (x : Block) (k : Word32) :
    feistelRound sbox (swapHalves (feistelRound sbox x k)) k = swapHalves x := by
  rw [feistelRound, leftHalf_swapHalves, rightHalf_swapHalves, leftHalf_feistelRound,
    rightHalf_feistelRound, BitVec.xor_assoc, BitVec.xor_self, BitVec.xor_zero, swapHalves]

theorem runRounds_append (key : Vector Word32 8) (l l' : List KIdx) (x : Block) :
    runRounds sbox key (l ++ l') x = runRounds sbox key l' (runRounds sbox key l x) := by
  simp [runRounds]

end Sys2Proof.Machine
end

