-- ==== Sys2Proof/Laws/Curve.lean ====
section
/-! SUPPORT. The points of an admissible curve are those of Mathlib's Weierstrass curve over
`ZMod p`: `pointAdd` is its addition and `scalarMult` its multiples, so that the group laws of
42_curve.md R146 are those of a proved group. -/

namespace Sys2Proof.Machine

/-! ## Arithmetic modulo a prime -/

theorem residue_zmod (x : Int) {m : Nat} (hm : 0 < m) : ((residue x m : Nat) : ZMod m) = (x : ZMod m) := by
  have h : ((residue x m : Nat) : ZMod m) = (((residue x m : Nat) : Int) : ZMod m) := by push_cast; rfl
  rw [h, residue_cast x hm, ZMod.intCast_mod]

theorem invMod_zmod (v : Int) {m : Nat} [Fact m.Prime] (h3 : 3 ≤ m) (hlt : m < 2 ^ 256) :
    ((invMod v m : Nat) : ZMod m) = (v : ZMod m)⁻¹ := by
  have hm : 0 < m := by omega
  rw [invMod_eq v hm hlt, ZMod.natCast_mod, Nat.cast_pow, residue_zmod v hm]
  by_cases h0 : (v : ZMod m) = 0
  · rw [h0, inv_zero, zero_pow (by omega)]
  · refine eq_inv_of_mul_eq_one_left ?_
    rw [← pow_succ, show m - 2 + 1 = m - 1 by omega, ZMod.pow_card_sub_one_eq_one h0]

theorem natCast_zmod_inj {m a b : Nat} (ha : a < m) (hb : b < m)
    (h : (a : ZMod m) = (b : ZMod m)) : a = b := by
  rw [ZMod.natCast_eq_natCast_iff', Nat.mod_eq_of_lt ha, Nat.mod_eq_of_lt hb] at h
  exact h

/-! ## Points -/

/-- The curve of Mathlib with the device's coefficients. -/
def Curve.toAffine (c : Curve) : WeierstrassCurve.Affine (ZMod c.p) :=
  { a₁ := 0, a₂ := 0, a₃ := 0, a₄ := c.a, a₆ := c.b }

/-- The contents `A` of a point register stand for the point `P`: the canonical Infinity for the
zero, reduced coordinates for any other. -/
def Rep (c : Curve) (A : Point) : c.toAffine.Point → Prop
  | .zero => A = Point.infinity
  | .some x y _ => A.inf = false ∧ A.x.toNat < c.p ∧ A.y.toNat < c.p
      ∧ (A.x.toNat : ZMod c.p) = x ∧ (A.y.toNat : ZMod c.p) = y

theorem rep_zero (c : Curve) : Rep c Point.infinity (0 : c.toAffine.Point) := rfl

theorem rep_zero_iff {c : Curve} {A : Point} : Rep c A 0 ↔ A = Point.infinity := Iff.rfl

/-- One register contents for each point. -/
theorem rep_inj {c : Curve} {A B : Point} {P : c.toAffine.Point} (hA : Rep c A P) (hB : Rep c B P) :
    A = B := by
  cases P with
  | zero => exact hA.trans hB.symm
  | some x y h =>
    obtain ⟨ai, ax, ay, axx, ayy⟩ := hA
    obtain ⟨bi, bx, byy, bxx, byyy⟩ := hB
    have hx := natCast_zmod_inj ax bx (axx.trans bxx.symm)
    have hy := natCast_zmod_inj ay byy (ayy.trans byyy.symm)
    cases A; cases B
    simp_all [BitVec.toNat_inj]

/-- One point for each register contents. -/
theorem rep_unique {c : Curve} {A : Point} {P Q : c.toAffine.Point} (hP : Rep c A P)
    (hQ : Rep c A Q) : P = Q := by
  cases P with
  | zero =>
    cases Q with
    | zero => rfl
    | some x y h => rw [show A = Point.infinity from hP] at hQ; exact absurd hQ.1 (by decide)
  | some x y h =>
    cases Q with
    | zero => rw [show A = Point.infinity from hQ] at hP; exact absurd hP.1 (by decide)
    | some x' y' h' =>
      obtain ⟨-, -, -, hx, hy⟩ := hP
      obtain ⟨-, -, -, hx', hy'⟩ := hQ
      subst hx hy hx' hy'
      rfl

theorem rep_inf {c : Curve} {A : Point} {P : c.toAffine.Point} (h : Rep c A P) :
    A.inf = true ↔ P = 0 := by
  cases P with
  | zero => rw [show A = Point.infinity from h]; exact ⟨fun _ => rfl, fun _ => rfl⟩
  | some x y hxy =>
    refine ⟨fun e => ?_, fun e => absurd e (WeierstrassCurve.Affine.Point.some_ne_zero hxy)⟩
    rw [h.1] at e
    cases e

theorem rep_isFieldPoint {c : Curve} {A : Point} {P : c.toAffine.Point} (h : Rep c A P) :
    isFieldPoint c A = true := by
  cases P with
  | zero => rw [show A = Point.infinity from h]; rfl
  | some x y hxy => simp [isFieldPoint, h.2.1, h.2.2.1]

variable {c : Curve}

theorem toAffine_disc (hc : Config.Admissible c) : c.toAffine.Δ ≠ 0 := by
  have : Fact c.p.Prime := ⟨hc.p_prime⟩
  have h : c.toAffine.Δ = -(2 : ZMod c.p) ^ 4 * ((4 * c.a ^ 3 + 27 * c.b ^ 2 : Nat) : ZMod c.p) := by
    simp only [Curve.toAffine, WeierstrassCurve.Δ, WeierstrassCurve.b₂, WeierstrassCurve.b₄,
      WeierstrassCurve.b₆, WeierstrassCurve.b₈]
    push_cast
    ring
  rw [h]
  refine mul_ne_zero (neg_ne_zero.2 (pow_ne_zero _ ?_)) ?_
  · intro h2
    have : ((2 : Nat) : ZMod c.p) = ((0 : Nat) : ZMod c.p) := by simpa using h2
    have := natCast_zmod_inj (by have := hc.p_ge; omega) (by have := hc.p_ge; omega) this
    omega
  · intro h0
    rw [ZMod.natCast_eq_zero_iff] at h0
    exact hc.nonsingular (Nat.mod_eq_zero_of_dvd h0)

/-- The test of 42_curve.md R140 is the equation of the curve. -/
theorem equation_iff_onCurve (hc : Config.Admissible c) {A : Point} (hi : A.inf = false)
    (hx : A.x.toNat < c.p) (hy : A.y.toNat < c.p) :
    onCurve c A = true ↔ c.toAffine.Equation (A.x.toNat : ZMod c.p) (A.y.toNat : ZMod c.p) := by
  have hm : 0 < c.p := hc.p_prime.pos
  rw [WeierstrassCurve.Affine.equation_iff']
  simp only [onCurve, hi, Bool.false_eq_true, if_false, Curve.toAffine]
  rw [if_neg (by omega), decide_eq_true_iff]
  have key : ∀ z : Int, residue z c.p = 0 ↔ (z : ZMod c.p) = 0 := by
    intro z
    rw [← residue_zmod z hm]
    exact ⟨fun h => by rw [h, Nat.cast_zero],
      fun h => natCast_zmod_inj (residue_lt z hm) hm (by rw [h, Nat.cast_zero])⟩
  rw [key]
  push_cast
  constructor <;> intro h <;> linear_combination h

/-- A canonical point on the curve stands for a point of the group. -/
theorem rep_of_onCurve (hc : Config.Admissible c) {A : Point} (hcan : A.canonical = A)
    (h : onCurve c A = true) : ∃ P, Rep c A P := by
  cases hi : A.inf with
  | true => exact ⟨0, by rw [Point.canonical, hi, if_pos rfl] at hcan; exact hcan.symm⟩
  | false =>
    have hlt : A.x.toNat < c.p ∧ A.y.toNat < c.p := by
      rw [onCurve, hi] at h
      simp only [Bool.false_eq_true, if_false] at h
      split at h
      · cases h
      · omega
    have he := (equation_iff_onCurve hc hi hlt.1 hlt.2).1 h
    exact ⟨.some _ _ ((WeierstrassCurve.Affine.equation_iff_nonsingular_of_Δ_ne_zero
      (toAffine_disc hc)).1 he), hi, hlt.1, hlt.2, rfl, rfl⟩

theorem onCurve_of_rep (hc : Config.Admissible c) {A : Point} {P : c.toAffine.Point}
    (h : Rep c A P) : onCurve c A = true := by
  cases P with
  | zero => rw [show A = Point.infinity from h]; rfl
  | some x y hxy =>
    obtain ⟨hi, hx, hy, ex, ey⟩ := h
    rw [equation_iff_onCurve hc hi hx hy, ex, ey]
    exact hxy.1

theorem rep_base (hc : Config.Admissible c) : ∃ P, Rep c c.base P ∧ P ≠ 0 := by
  obtain ⟨P, hP⟩ := rep_of_onCurve hc (A := c.base) rfl hc.base_onCurve
  exact ⟨P, hP, fun h => by simpa [Curve.base] using (rep_inf hP).2 h⟩

/-! ## Addition and multiples -/

open WeierstrassCurve.Affine in
/-- `pointAdd` is the addition of the group. -/
theorem rep_add (hc : Config.Admissible c) [Fact c.p.Prime] {A B : Point}
    {P Q : c.toAffine.Point} (hA : Rep c A P) (hB : Rep c B Q) : Rep c (pointAdd c A B) (P + Q) := by
  have hm : 0 < c.p := hc.p_prime.pos
  cases P with
  | zero =>
    rw [show A = Point.infinity from hA]
    have : pointAdd c Point.infinity B = B := by
      cases Q with
      | zero => rw [show B = Point.infinity from hB]; rfl
      | some x y h => simp [pointAdd, Point.infinity, Point.canonical, hB.1]
    rw [this]
    exact (zero_add Q).symm ▸ hB
  | some x₁ y₁ h₁ =>
    obtain ⟨ai, ax, ay, ex, ey⟩ := hA
    cases Q with
    | zero =>
      rw [show B = Point.infinity from hB]
      have : pointAdd c A Point.infinity = A := by
        simp [pointAdd, ai, Point.infinity]
      rw [this, ← Point.zero_def, add_zero]
      exact ⟨ai, ax, ay, ex, ey⟩
    | some x₂ y₂ h₂ =>
      obtain ⟨bi, bx, byl, ex', ey'⟩ := hB
      have hxiff : A.x = B.x ↔ x₁ = x₂ := by
        rw [← ex, ← ex']
        exact ⟨fun h => by rw [h],
          fun h => BitVec.eq_of_toNat_eq (natCast_zmod_inj ax bx h)⟩
      have hyiff : A.y = B.y ↔ y₁ = y₂ := by
        rw [← ey, ← ey']
        exact ⟨fun h => by rw [h],
          fun h => BitVec.eq_of_toNat_eq (natCast_zmod_inj ay byl h)⟩
      have hnegY : c.toAffine.negY x₂ y₂ = -y₂ := by simp [negY, Curve.toAffine]
      have hneg : (A.y.toNat + B.y.toNat) % c.p = 0 ↔ y₁ = c.toAffine.negY x₂ y₂ := by
        rw [hnegY, eq_neg_iff_add_eq_zero, ← ey, ← ey', ← Nat.cast_add, ZMod.natCast_eq_zero_iff,
          Nat.dvd_iff_mod_eq_zero]
      rw [pointAdd, ai, bi]
      simp only [Bool.false_eq_true, if_false]
      by_cases hn : A.x = B.x ∧ (A.y.toNat + B.y.toNat) % c.p = 0
      · rw [if_pos hn, Point.add_of_Y_eq (hxiff.1 hn.1) (hneg.1 hn.2)]
        exact rep_zero c
      · rw [if_neg hn]
        have hxy : ¬(x₁ = x₂ ∧ y₁ = c.toAffine.negY x₂ y₂) := by
          rintro ⟨e, e'⟩; exact hn ⟨hxiff.2 e, hneg.2 e'⟩
        rw [Point.add_some hxy]
        have hlam : ((Machine.slope c A B : Nat) : ZMod c.p) = c.toAffine.slope x₁ x₂ y₁ y₂ := by
          by_cases hx : x₁ = x₂
          · have hyne : y₁ ≠ c.toAffine.negY x₂ y₂ := fun e => hxy ⟨hx, e⟩
            have hy : y₁ = y₂ := Y_eq_of_Y_ne h₁.1 h₂.1 hx hyne
            rw [slope_of_Y_ne hx hyne, Machine.slope, if_pos ⟨hxiff.2 hx, hyiff.2 hy⟩,
              residue_zmod _ hm]
            push_cast
            rw [invMod_zmod _ hc.p_ge hc.p_lt]
            push_cast
            rw [ex, ey]
            simp only [Curve.toAffine, negY]
            rw [div_eq_mul_inv]
            congr 1
            · ring
            · congr 1; ring
          · rw [slope_of_X_ne hx, Machine.slope, if_neg (fun e => hx (hxiff.1 e.1)),
              residue_zmod _ hm]
            push_cast
            rw [invMod_zmod _ hc.p_ge hc.p_lt]
            push_cast
            rw [ex, ey, ex', ey', div_eq_mul_inv, ← neg_sub y₂ y₁, ← neg_sub x₂ x₁, inv_neg]
            ring
        have hx3 : ∀ z : Int, (BitVec.ofNat 256 (residue z c.p)).toNat = residue z c.p := by
          intro z
          rw [BitVec.toNat_ofNat, Nat.mod_eq_of_lt ((residue_lt z hm).trans hc.p_lt)]
        refine ⟨rfl, ?_, ?_, ?_, ?_⟩
        · simp only [thirdPoint]; rw [hx3]; exact residue_lt _ hm
        · simp only [thirdPoint]; rw [hx3]; exact residue_lt _ hm
        · simp only [thirdPoint]
          rw [hx3, residue_zmod _ hm]
          push_cast
          rw [hlam, ex, ex']
          simp only [addX, Curve.toAffine]
          ring
        · simp only [thirdPoint]
          rw [hx3, residue_zmod _ hm]
          push_cast
          rw [residue_zmod _ hm]
          push_cast
          rw [hlam, ex, ex', ey]
          simp only [addY, negAddY, negY, addX, Curve.toAffine]
          ring

/-- The loop of 42_curve.md R142 adds a multiple of the group, if its fuel covers the scalar. -/
theorem rep_doubleAndAdd (hc : Config.Admissible c) [Fact c.p.Prime] :
    ∀ (fuel k : Nat) {acc add : Point} {P Q : c.toAffine.Point}, k < 2 ^ fuel →
      Rep c acc P → Rep c add Q → Rep c (doubleAndAdd c fuel k acc add) (P + k • Q)
  | 0, k, acc, add, P, Q, hk, hP, hQ => by
    have : k = 0 := by simpa using hk
    simpa [doubleAndAdd, this] using hP
  | fuel + 1, k, acc, add, P, Q, hk, hP, hQ => by
    rw [doubleAndAdd]
    split
    · rename_i h0; simpa [h0] using hP
    · have hd := rep_add hc hQ hQ
      have hk' : k / 2 < 2 ^ fuel := by rw [pow_succ] at hk; omega
      split
      · rename_i hodd
        have := rep_doubleAndAdd hc fuel (k / 2) hk' (rep_add hc hP hQ) hd
        have e : P + Q + (k / 2) • (Q + Q) = P + k • Q := by
          rw [← two_nsmul, ← mul_nsmul', add_assoc, ← one_nsmul Q, ← mul_nsmul', ← add_nsmul]
          congr 2; omega
        rwa [e] at this
      · rename_i heven
        have := rep_doubleAndAdd hc fuel (k / 2) hk' hP hd
        have e : P + (k / 2) • (Q + Q) = P + k • Q := by
          rw [← two_nsmul, ← mul_nsmul']
          congr 2; omega
        rwa [e] at this

/-- The base point has order `n` (00_scope.md R9 (d)). -/
theorem base_order (hc : Config.Admissible c) [Fact c.p.Prime] {P : c.toAffine.Point}
    (hP : Rep c c.base P) : c.n • P = 0 := by
  have h := rep_doubleAndAdd hc 256 c.n hc.n_lt (rep_zero c) hP
  rw [hc.order, zero_add] at h
  exact (rep_unique h (rep_zero c))

theorem base_addOrderOf (hc : Config.Admissible c) [Fact c.p.Prime] {P : c.toAffine.Point}
    (hP : Rep c c.base P) : addOrderOf P = c.n := by
  have : Fact c.n.Prime := ⟨hc.n_prime⟩
  refine addOrderOf_eq_prime (base_order hc hP) fun h => ?_
  simpa [Curve.base] using (rep_inf hP).2 h

/-- `scalarMult` is the multiple of the group, on points whose order divides `n`. -/
theorem rep_scalarMult (hc : Config.Admissible c) [Fact c.p.Prime] (k : Nat) {A : Point}
    {P : c.toAffine.Point} (hA : Rep c A P) (hn : c.n • P = 0) :
    Rep c (scalarMult c k A) (k • P) := by
  have hmod : k • P = (k % c.n) • P := by
    conv_lhs => rw [← Nat.div_add_mod k c.n, add_nsmul, mul_nsmul, hn, nsmul_zero, zero_add]
  rw [scalarMult]
  split
  · rename_i h
    have : k • P = 0 := by
      rcases h with h | h
      · rw [hmod, h, zero_nsmul]
      · rw [(rep_inf hA).1 h, nsmul_zero]
    rw [this]
    exact rep_zero c
  · have hlt : k % c.n < 2 ^ 256 := (Nat.mod_lt _ hc.n_prime.pos).trans hc.n_lt
    have := rep_doubleAndAdd hc 256 (k % c.n) hlt (rep_zero c) hA
    rwa [zero_add, ← hmod] at this

/-- The multiples of the base point: `k·G` stands for the multiple, and is Infinity exactly when `n`
divides `k`. -/
theorem rep_scalarMult_base (hc : Config.Admissible c) [Fact c.p.Prime] (k : Nat)
    {P : c.toAffine.Point} (hP : Rep c c.base P) :
    Rep c (scalarMult c k c.base) (k • P)
      ∧ ((scalarMult c k c.base).inf = true ↔ c.n ∣ k) := by
  have h := rep_scalarMult hc k hP (base_order hc hP)
  refine ⟨h, ?_⟩
  rw [rep_inf h, ← base_addOrderOf hc hP, addOrderOf_dvd_iff_nsmul_eq_zero]

/-- A point generated by `G` stands for a point whose order divides `n`. -/
theorem rep_of_generated (hc : Config.Admissible c) [Fact c.p.Prime] {A : Point}
    (h : Safety.Generated c A) : ∃ P : c.toAffine.Point, Rep c A P ∧ c.n • P = 0 := by
  obtain ⟨k, rfl⟩ := h
  obtain ⟨P, hP, -⟩ := rep_base hc
  refine ⟨_, (rep_scalarMult_base hc k hP).1, ?_⟩
  rw [← mul_nsmul', mul_comm, mul_nsmul', base_order hc hP, nsmul_zero]

/-- `negPoint` is the inverse of the group. -/
theorem rep_negPoint (hc : Config.Admissible c) [Fact c.p.Prime] {A : Point}
    {P : c.toAffine.Point} (h : Rep c A P) : Rep c (Safety.negPoint c A) (-P) := by
  cases P with
  | zero => rw [show A = Point.infinity from h]; rfl
  | some x y hxy =>
    obtain ⟨hi, hx, hy, ex, ey⟩ := h
    rw [WeierstrassCurve.Affine.Point.neg_some]
    have hlt := Nat.mod_lt (c.p - A.y.toNat) hc.p_prime.pos
    have e : (BitVec.ofNat 256 ((c.p - A.y.toNat) % c.p)).toNat = (c.p - A.y.toNat) % c.p := by
      rw [BitVec.toNat_ofNat, Nat.mod_eq_of_lt (hlt.trans hc.p_lt)]
    simp only [Safety.negPoint, hi]
    refine ⟨rfl, hx, ?_, ex, ?_⟩
    · simpa [e] using hlt
    · simp only [Bool.false_eq_true, if_false, e]
      rw [ZMod.natCast_mod, Nat.cast_sub hy.le, ey]
      simp [WeierstrassCurve.Affine.negY, Curve.toAffine]

/-- `1·A` is `A` for the base point. -/
theorem scalarMult_one_base (hc : Config.Admissible c) : scalarMult c 1 c.base = c.base := by
  have h3 := hc.n_ge
  have h1 : 1 % c.n = 1 := Nat.mod_eq_of_lt (by omega)
  rw [scalarMult, h1, if_neg (by simp [Curve.base])]
  rfl

end Sys2Proof.Machine
end

