-- ==== Sys2Proof/Laws/Decode.lean ====
section
/-! SUPPORT. The fields of a packed word, and that each operand kind reads back what was put. -/

namespace Sys2Proof

/-- Bit `i` of a packed word, field by field (30_encoding.md R90). -/
theorem getLsbD_pack (op : BitVec 8) (d s1 s2 s3 : BitVec 4) (i : Nat) :
    (pack op d s1 s2 s3).getLsbD i =
      if i < 8 then op.getLsbD i
      else if i < 12 then d.getLsbD (i - 8)
      else if i < 16 then s1.getLsbD (i - 12)
      else if i < 20 then s2.getLsbD (i - 16)
      else if i < 24 then s3.getLsbD (i - 20)
      else false := by
  simp only [pack, BitVec.getLsbD_append]
  repeat' split
  all_goals first | rfl | (congr 1; omega) | omega | simp_all
  all_goals (exfalso; omega)

section
variable (op : BitVec 8) (d s1 s2 s3 : BitVec 4)

@[simp] theorem opField_pack : opField (pack op d s1 s2 s3) = op := by
  apply BitVec.eq_of_getLsbD_eq
  intro i hi
  simp [opField, getLsbD_pack, hi]

@[simp] theorem dField_pack : dField (pack op d s1 s2 s3) = d := by
  apply BitVec.eq_of_getLsbD_eq
  intro i hi
  simp [dField, getLsbD_pack, hi, show 8 + i < 12 by omega]

@[simp] theorem s1Field_pack : s1Field (pack op d s1 s2 s3) = s1 := by
  apply BitVec.eq_of_getLsbD_eq
  intro i hi
  simp [s1Field, getLsbD_pack, hi, show ¬ 12 + i < 8 by omega, show 12 + i < 16 by omega]

@[simp] theorem s2Field_pack : s2Field (pack op d s1 s2 s3) = s2 := by
  apply BitVec.eq_of_getLsbD_eq
  intro i hi
  simp [s2Field, getLsbD_pack, hi, show ¬ 16 + i < 8 by omega, show ¬ 16 + i < 12 by omega,
    show 16 + i < 20 by omega]

@[simp] theorem s3Field_pack : s3Field (pack op d s1 s2 s3) = s3 := by
  apply BitVec.eq_of_getLsbD_eq
  intro i hi
  simp [s3Field, getLsbD_pack, hi, show ¬ 20 + i < 8 by omega, show ¬ 20 + i < 12 by omega,
    show ¬ 20 + i < 16 by omega, show 20 + i < 24 by omega]

@[simp] theorem zField_pack : zField (pack op d s1 s2 s3) = 0#8 := by
  apply BitVec.eq_of_getLsbD_eq
  intro i hi
  simp [zField, getLsbD_pack, show ¬ 24 + i < 8 by omega, show ¬ 24 + i < 12 by omega,
    show ¬ 24 + i < 16 by omega, show ¬ 24 + i < 20 by omega, show ¬ 24 + i < 24 by omega]

/-- Decoding a packed word is decoding its fields. -/
@[simp] theorem decode_pack : decode (pack op d s1 s2 s3) = decodeFields op d s1 s2 s3 := by
  simp [decode]

end

@[simp] theorem readF_putF (i : FReg) : readF (putF i) = i := rfl

@[simp] theorem readP_putP (i : PReg) : readP (putP i) = .ok i := by
  revert i; decide

@[simp] theorem readKIdx_putKIdx (i : KIdx) : readKIdx (putKIdx i) = .ok i := by
  revert i; decide

theorem readFPair_putFPair {i : FPair} (h : FPair.ok i = true) : readFPair (putFPair i) = .ok i := by
  simp [readFPair, putFPair, h]

theorem readSel_putSel {i : Sel} (h : Sel.ok i = true) : readSel (putSel i) = .ok i := by
  simp [readSel, putSel, h]

end Sys2Proof
end

