-- ==== Sys2Proof/Laws/Memory.lean ====
section
/-! SUPPORT. The message buffer: a read after a write, and that every memory operation keeps the
canonical form. -/

namespace Sys2Proof.Machine

theorem Memory.get_put (m : Memory) (addr addr' : Nat) (v : Byte) :
    (m.put addr v).get addr' = if addr' = addr then some v else m.get addr' := by
  induction m with
  | nil => simp [Memory.put, Memory.get]
  | cons c m ih =>
    obtain ⟨a, b⟩ := c
    simp only [Memory.put]
    split
    · simp only [Memory.get]
    · split
      · rename_i h; subst h; simp only [Memory.get]; split <;> rfl
      · rename_i h; simp only [Memory.get, ih]
        split
        · rename_i h'; subst h'; rw [if_neg (Ne.symm h)]
        · rfl

@[simp] theorem Memory.get_put_same (m : Memory) (addr : Nat) (v : Byte) :
    (m.put addr v).get addr = some v := by simp [Memory.get_put]

theorem Memory.get_put_ne (m : Memory) {addr addr' : Nat} (v : Byte) (h : addr' ≠ addr) :
    (m.put addr v).get addr' = m.get addr' := by simp [Memory.get_put, h]

/-- Which cells a store leaves: the old ones at other addresses, and the new one. -/
theorem Memory.mem_put {m : Memory} {addr : Nat} {v : Byte} {c : Host.Cell}
    (h : c ∈ m.put addr v) : c = (addr, v) ∨ c ∈ m := by
  induction m with
  | nil => simpa [Memory.put] using h
  | cons c' m ih =>
    obtain ⟨a, b⟩ := c'
    simp only [Memory.put] at h
    split at h
    · rcases List.mem_cons.1 h with h | h
      · exact .inl h
      · exact .inr h
    · split at h
      · rcases List.mem_cons.1 h with h | h
        · exact .inl h
        · exact .inr (List.mem_cons_of_mem _ h)
      · rcases List.mem_cons.1 h with h | h
        · exact .inr (h ▸ List.mem_cons_self)
        · exact (ih h).imp id (List.mem_cons_of_mem _)

theorem Memory.pairwise_put {m : Memory} (addr : Nat) (v : Byte)
    (h : m.Pairwise (fun c c' : Host.Cell => c.1 < c'.1)) :
    (m.put addr v).Pairwise (fun c c' : Host.Cell => c.1 < c'.1) := by
  induction m with
  | nil => simp [Memory.put]
  | cons c m ih =>
    obtain ⟨a, b⟩ := c
    obtain ⟨ha, hm⟩ := List.pairwise_cons.1 h
    simp only [Memory.put]
    split
    · rename_i hlt
      refine List.pairwise_cons.2 ⟨fun c' hc' => ?_, h⟩
      rcases List.mem_cons.1 hc' with rfl | hc'
      · exact hlt
      · exact lt_trans hlt (ha c' hc')
    · split
      · rename_i heq; subst heq
        exact List.pairwise_cons.2 ⟨ha, hm⟩
      · rename_i hge hne
        refine List.pairwise_cons.2 ⟨fun c' hc' => ?_, ih hm⟩
        rcases Memory.mem_put hc' with rfl | hc'
        · show a < addr; omega
        · exact ha c' hc'

theorem Memory.wf_nil : Memory.wf [] := by simp [Memory.wf]

/-- A store in the buffer's range keeps the canonical form. -/
theorem Memory.wf_put {m : Memory} {addr : Nat} (v : Byte) (h : m.wf) (lo : 0x1000 ≤ addr)
    (hi : addr < 0x2000) : (m.put addr v).wf := by
  refine ⟨Memory.pairwise_put addr v h.1, fun c hc => ?_⟩
  rcases Memory.mem_put hc with rfl | hc
  · exact ⟨lo, hi⟩
  · exact h.2 c hc

theorem State.setMsgByte_wf {s : State} {j : Nat} (v : Byte) (h : s.mem.wf) (hj : j < 4096) :
    (s.setMsgByte j v).mem.wf :=
  Memory.wf_put v h (by simp [msgBase]) (by simp only [msgBase]; omega)

theorem State.setMsgWord_wf {s : State} {k : Nat} (v : Word32) (h : s.mem.wf) (hk : k < 1024) :
    (s.setMsgWord k v).mem.wf := by
  unfold State.setMsgWord
  iterate 4 refine State.setMsgByte_wf _ ?_ (by omega)
  exact h

theorem State.msgByte_setMsgByte (s : State) (j j' : Nat) (v : Byte) :
    (s.setMsgByte j v).msgByte j' = if j' = j then v else s.msgByte j' := by
  simp only [State.msgByte, State.setMsgByte, Memory.get_put]
  by_cases h : j' = j
  · simp [h]
  · simp [h]

/-- `MSGBUF[j]` depends on the stored bytes and on the power-on it belongs to, and on nothing
else. -/
theorem State.msgByte_congr {s t : State} (hm : t.mem = s.mem) (he : t.epoch = s.epoch) (j : Nat) :
    t.msgByte j = s.msgByte j := by simp [State.msgByte, hm, he]

theorem State.message_congr {s t : State} (hm : t.mem = s.mem) (he : t.epoch = s.epoch)
    (hl : t.msglen = s.msglen) : t.message = s.message := by
  simp only [State.message, hl]
  exact List.map_congr_left fun j _ => State.msgByte_congr hm he j

end Sys2Proof.Machine
end

