-- ==== Sys2Proof/Laws/State.lean ====
section
/-! SUPPORT. One lemma per field per update of the state, each true by `rfl`, so that no proof
unfolds a record update. -/

namespace Sys2Proof.Machine

variable (s : State)

/-! ### `State.setF` -/

@[simp] theorem State.setF_f (i : FReg) (v : Word256) : (s.setF i v).f = s.f.set i v := rfl
@[simp] theorem State.setF_p (i : FReg) (v : Word256) : (s.setF i v).p = s.p := rfl
@[simp] theorem State.setF_key (i : FReg) (v : Word256) : (s.setF i v).key = s.key := rfl
@[simp] theorem State.setF_blk (i : FReg) (v : Word256) : (s.setF i v).blk = s.blk := rfl
@[simp] theorem State.setF_chain (i : FReg) (v : Word256) : (s.setF i v).chain = s.chain := rfl
@[simp] theorem State.setF_mem (i : FReg) (v : Word256) : (s.setF i v).mem = s.mem := rfl
@[simp] theorem State.setF_msglen (i : FReg) (v : Word256) : (s.setF i v).msglen = s.msglen := rfl
@[simp] theorem State.setF_ie (i : FReg) (v : Word256) : (s.setF i v).ie = s.ie := rfl
@[simp] theorem State.setF_done (i : FReg) (v : Word256) : (s.setF i v).done = s.done := rfl
@[simp] theorem State.setF_haz (i : FReg) (v : Word256) : (s.setF i v).haz = s.haz := rfl
@[simp] theorem State.setF_err (i : FReg) (v : Word256) : (s.setF i v).err = s.err := rfl
@[simp] theorem State.setF_cmd (i : FReg) (v : Word256) : (s.setF i v).cmd = s.cmd := rfl
@[simp] theorem State.setF_pending (i : FReg) (v : Word256) : (s.setF i v).pending = s.pending := rfl
@[simp] theorem State.setF_inputs (i : FReg) (v : Word256) : (s.setF i v).inputs = s.inputs := rfl
@[simp] theorem State.setF_answer (i : FReg) (v : Word256) : (s.setF i v).answer = s.answer := rfl
@[simp] theorem State.setF_draws (i : FReg) (v : Word256) : (s.setF i v).draws = s.draws := rfl
@[simp] theorem State.setF_epoch (i : FReg) (v : Word256) : (s.setF i v).epoch = s.epoch := rfl
@[simp] theorem State.setF_busy (i : FReg) (v : Word256) : (s.setF i v).busy = s.busy := rfl

/-! ### `State.setP` -/

@[simp] theorem State.setP_f (i : PReg) (Q : Point) : (s.setP i Q).f = s.f := rfl
@[simp] theorem State.setP_p (i : PReg) (Q : Point) : (s.setP i Q).p = s.p.set i Q := rfl
@[simp] theorem State.setP_key (i : PReg) (Q : Point) : (s.setP i Q).key = s.key := rfl
@[simp] theorem State.setP_blk (i : PReg) (Q : Point) : (s.setP i Q).blk = s.blk := rfl
@[simp] theorem State.setP_chain (i : PReg) (Q : Point) : (s.setP i Q).chain = s.chain := rfl
@[simp] theorem State.setP_mem (i : PReg) (Q : Point) : (s.setP i Q).mem = s.mem := rfl
@[simp] theorem State.setP_msglen (i : PReg) (Q : Point) : (s.setP i Q).msglen = s.msglen := rfl
@[simp] theorem State.setP_ie (i : PReg) (Q : Point) : (s.setP i Q).ie = s.ie := rfl
@[simp] theorem State.setP_done (i : PReg) (Q : Point) : (s.setP i Q).done = s.done := rfl
@[simp] theorem State.setP_haz (i : PReg) (Q : Point) : (s.setP i Q).haz = s.haz := rfl
@[simp] theorem State.setP_err (i : PReg) (Q : Point) : (s.setP i Q).err = s.err := rfl
@[simp] theorem State.setP_cmd (i : PReg) (Q : Point) : (s.setP i Q).cmd = s.cmd := rfl
@[simp] theorem State.setP_pending (i : PReg) (Q : Point) : (s.setP i Q).pending = s.pending := rfl
@[simp] theorem State.setP_inputs (i : PReg) (Q : Point) : (s.setP i Q).inputs = s.inputs := rfl
@[simp] theorem State.setP_answer (i : PReg) (Q : Point) : (s.setP i Q).answer = s.answer := rfl
@[simp] theorem State.setP_draws (i : PReg) (Q : Point) : (s.setP i Q).draws = s.draws := rfl
@[simp] theorem State.setP_epoch (i : PReg) (Q : Point) : (s.setP i Q).epoch = s.epoch := rfl
@[simp] theorem State.setP_busy (i : PReg) (Q : Point) : (s.setP i Q).busy = s.busy := rfl

/-! ### `State.setKey` -/

@[simp] theorem State.setKey_f (i : KIdx) (v : Word32) : (s.setKey i v).f = s.f := rfl
@[simp] theorem State.setKey_p (i : KIdx) (v : Word32) : (s.setKey i v).p = s.p := rfl
@[simp] theorem State.setKey_key (i : KIdx) (v : Word32) : (s.setKey i v).key = s.key.set i v := rfl
@[simp] theorem State.setKey_blk (i : KIdx) (v : Word32) : (s.setKey i v).blk = s.blk := rfl
@[simp] theorem State.setKey_chain (i : KIdx) (v : Word32) : (s.setKey i v).chain = s.chain := rfl
@[simp] theorem State.setKey_mem (i : KIdx) (v : Word32) : (s.setKey i v).mem = s.mem := rfl
@[simp] theorem State.setKey_msglen (i : KIdx) (v : Word32) : (s.setKey i v).msglen = s.msglen := rfl
@[simp] theorem State.setKey_ie (i : KIdx) (v : Word32) : (s.setKey i v).ie = s.ie := rfl
@[simp] theorem State.setKey_done (i : KIdx) (v : Word32) : (s.setKey i v).done = s.done := rfl
@[simp] theorem State.setKey_haz (i : KIdx) (v : Word32) : (s.setKey i v).haz = s.haz := rfl
@[simp] theorem State.setKey_err (i : KIdx) (v : Word32) : (s.setKey i v).err = s.err := rfl
@[simp] theorem State.setKey_cmd (i : KIdx) (v : Word32) : (s.setKey i v).cmd = s.cmd := rfl
@[simp] theorem State.setKey_pending (i : KIdx) (v : Word32) : (s.setKey i v).pending = s.pending := rfl
@[simp] theorem State.setKey_inputs (i : KIdx) (v : Word32) : (s.setKey i v).inputs = s.inputs := rfl
@[simp] theorem State.setKey_answer (i : KIdx) (v : Word32) : (s.setKey i v).answer = s.answer := rfl
@[simp] theorem State.setKey_draws (i : KIdx) (v : Word32) : (s.setKey i v).draws = s.draws := rfl
@[simp] theorem State.setKey_epoch (i : KIdx) (v : Word32) : (s.setKey i v).epoch = s.epoch := rfl
@[simp] theorem State.setKey_busy (i : KIdx) (v : Word32) : (s.setKey i v).busy = s.busy := rfl

/-! ### `State.setMsgByte` -/

@[simp] theorem State.setMsgByte_f (j : Nat) (v : Byte) : (s.setMsgByte j v).f = s.f := rfl
@[simp] theorem State.setMsgByte_p (j : Nat) (v : Byte) : (s.setMsgByte j v).p = s.p := rfl
@[simp] theorem State.setMsgByte_key (j : Nat) (v : Byte) : (s.setMsgByte j v).key = s.key := rfl
@[simp] theorem State.setMsgByte_blk (j : Nat) (v : Byte) : (s.setMsgByte j v).blk = s.blk := rfl
@[simp] theorem State.setMsgByte_chain (j : Nat) (v : Byte) : (s.setMsgByte j v).chain = s.chain := rfl
@[simp] theorem State.setMsgByte_mem (j : Nat) (v : Byte) : (s.setMsgByte j v).mem = s.mem.put (msgBase + j) v := rfl
@[simp] theorem State.setMsgByte_msglen (j : Nat) (v : Byte) : (s.setMsgByte j v).msglen = s.msglen := rfl
@[simp] theorem State.setMsgByte_ie (j : Nat) (v : Byte) : (s.setMsgByte j v).ie = s.ie := rfl
@[simp] theorem State.setMsgByte_done (j : Nat) (v : Byte) : (s.setMsgByte j v).done = s.done := rfl
@[simp] theorem State.setMsgByte_haz (j : Nat) (v : Byte) : (s.setMsgByte j v).haz = s.haz := rfl
@[simp] theorem State.setMsgByte_err (j : Nat) (v : Byte) : (s.setMsgByte j v).err = s.err := rfl
@[simp] theorem State.setMsgByte_cmd (j : Nat) (v : Byte) : (s.setMsgByte j v).cmd = s.cmd := rfl
@[simp] theorem State.setMsgByte_pending (j : Nat) (v : Byte) : (s.setMsgByte j v).pending = s.pending := rfl
@[simp] theorem State.setMsgByte_inputs (j : Nat) (v : Byte) : (s.setMsgByte j v).inputs = s.inputs := rfl
@[simp] theorem State.setMsgByte_answer (j : Nat) (v : Byte) : (s.setMsgByte j v).answer = s.answer := rfl
@[simp] theorem State.setMsgByte_draws (j : Nat) (v : Byte) : (s.setMsgByte j v).draws = s.draws := rfl
@[simp] theorem State.setMsgByte_epoch (j : Nat) (v : Byte) : (s.setMsgByte j v).epoch = s.epoch := rfl
@[simp] theorem State.setMsgByte_busy (j : Nat) (v : Byte) : (s.setMsgByte j v).busy = s.busy := rfl

/-! ### `State.setMsgWord` -/

@[simp] theorem State.setMsgWord_f (k : Nat) (v : Word32) : (s.setMsgWord k v).f = s.f := rfl
@[simp] theorem State.setMsgWord_p (k : Nat) (v : Word32) : (s.setMsgWord k v).p = s.p := rfl
@[simp] theorem State.setMsgWord_key (k : Nat) (v : Word32) : (s.setMsgWord k v).key = s.key := rfl
@[simp] theorem State.setMsgWord_blk (k : Nat) (v : Word32) : (s.setMsgWord k v).blk = s.blk := rfl
@[simp] theorem State.setMsgWord_chain (k : Nat) (v : Word32) : (s.setMsgWord k v).chain = s.chain := rfl
@[simp] theorem State.setMsgWord_msglen (k : Nat) (v : Word32) : (s.setMsgWord k v).msglen = s.msglen := rfl
@[simp] theorem State.setMsgWord_ie (k : Nat) (v : Word32) : (s.setMsgWord k v).ie = s.ie := rfl
@[simp] theorem State.setMsgWord_done (k : Nat) (v : Word32) : (s.setMsgWord k v).done = s.done := rfl
@[simp] theorem State.setMsgWord_haz (k : Nat) (v : Word32) : (s.setMsgWord k v).haz = s.haz := rfl
@[simp] theorem State.setMsgWord_err (k : Nat) (v : Word32) : (s.setMsgWord k v).err = s.err := rfl
@[simp] theorem State.setMsgWord_cmd (k : Nat) (v : Word32) : (s.setMsgWord k v).cmd = s.cmd := rfl
@[simp] theorem State.setMsgWord_pending (k : Nat) (v : Word32) : (s.setMsgWord k v).pending = s.pending := rfl
@[simp] theorem State.setMsgWord_inputs (k : Nat) (v : Word32) : (s.setMsgWord k v).inputs = s.inputs := rfl
@[simp] theorem State.setMsgWord_answer (k : Nat) (v : Word32) : (s.setMsgWord k v).answer = s.answer := rfl
@[simp] theorem State.setMsgWord_draws (k : Nat) (v : Word32) : (s.setMsgWord k v).draws = s.draws := rfl
@[simp] theorem State.setMsgWord_epoch (k : Nat) (v : Word32) : (s.setMsgWord k v).epoch = s.epoch := rfl
@[simp] theorem State.setMsgWord_busy (k : Nat) (v : Word32) : (s.setMsgWord k v).busy = s.busy := rfl

/-! ### `State.accept` -/

@[simp] theorem State.accept_f (w : Word32) : (s.accept w).f = s.f := rfl
@[simp] theorem State.accept_p (w : Word32) : (s.accept w).p = s.p := rfl
@[simp] theorem State.accept_key (w : Word32) : (s.accept w).key = s.key := rfl
@[simp] theorem State.accept_blk (w : Word32) : (s.accept w).blk = s.blk := rfl
@[simp] theorem State.accept_chain (w : Word32) : (s.accept w).chain = s.chain := rfl
@[simp] theorem State.accept_mem (w : Word32) : (s.accept w).mem = s.mem := rfl
@[simp] theorem State.accept_msglen (w : Word32) : (s.accept w).msglen = s.msglen := rfl
@[simp] theorem State.accept_ie (w : Word32) : (s.accept w).ie = s.ie := rfl
@[simp] theorem State.accept_done (w : Word32) : (s.accept w).done = false := rfl
@[simp] theorem State.accept_haz (w : Word32) : (s.accept w).haz = s.haz := rfl
@[simp] theorem State.accept_err (w : Word32) : (s.accept w).err = .ok := rfl
@[simp] theorem State.accept_cmd (w : Word32) : (s.accept w).cmd = w := rfl
@[simp] theorem State.accept_pending (w : Word32) : (s.accept w).pending = some w := rfl
@[simp] theorem State.accept_inputs (w : Word32) : (s.accept w).inputs = s.inputs := rfl
@[simp] theorem State.accept_answer (w : Word32) : (s.accept w).answer = s.answer := rfl
@[simp] theorem State.accept_draws (w : Word32) : (s.accept w).draws = s.draws := rfl
@[simp] theorem State.accept_epoch (w : Word32) : (s.accept w).epoch = s.epoch := rfl
@[simp] theorem State.accept_busy (w : Word32) : (s.accept w).busy = true := rfl

/-! ### `State.complete` -/

@[simp] theorem State.complete_f (code : ErrCode) : (s.complete code).f = s.f := rfl
@[simp] theorem State.complete_p (code : ErrCode) : (s.complete code).p = s.p := rfl
@[simp] theorem State.complete_key (code : ErrCode) : (s.complete code).key = s.key := rfl
@[simp] theorem State.complete_blk (code : ErrCode) : (s.complete code).blk = s.blk := rfl
@[simp] theorem State.complete_chain (code : ErrCode) : (s.complete code).chain = s.chain := rfl
@[simp] theorem State.complete_mem (code : ErrCode) : (s.complete code).mem = s.mem := rfl
@[simp] theorem State.complete_msglen (code : ErrCode) : (s.complete code).msglen = s.msglen := rfl
@[simp] theorem State.complete_ie (code : ErrCode) : (s.complete code).ie = s.ie := rfl
@[simp] theorem State.complete_done (code : ErrCode) : (s.complete code).done = true := rfl
@[simp] theorem State.complete_haz (code : ErrCode) : (s.complete code).haz = s.haz := rfl
@[simp] theorem State.complete_err (code : ErrCode) : (s.complete code).err = code := rfl
@[simp] theorem State.complete_cmd (code : ErrCode) : (s.complete code).cmd = s.cmd := rfl
@[simp] theorem State.complete_pending (code : ErrCode) : (s.complete code).pending = none := rfl
@[simp] theorem State.complete_inputs (code : ErrCode) : (s.complete code).inputs = s.inputs := rfl
@[simp] theorem State.complete_answer (code : ErrCode) : (s.complete code).answer = s.answer := rfl
@[simp] theorem State.complete_draws (code : ErrCode) : (s.complete code).draws = s.draws := rfl
@[simp] theorem State.complete_epoch (code : ErrCode) : (s.complete code).epoch = s.epoch := rfl
@[simp] theorem State.complete_busy (code : ErrCode) : (s.complete code).busy = false := rfl

/-! ### `State.fail` -/

@[simp] theorem State.fail_f (code : ErrCode) : (s.fail code).f = s.f := rfl
@[simp] theorem State.fail_p (code : ErrCode) : (s.fail code).p = s.p := rfl
@[simp] theorem State.fail_key (code : ErrCode) : (s.fail code).key = s.key := rfl
@[simp] theorem State.fail_blk (code : ErrCode) : (s.fail code).blk = s.blk := rfl
@[simp] theorem State.fail_chain (code : ErrCode) : (s.fail code).chain = s.chain := rfl
@[simp] theorem State.fail_mem (code : ErrCode) : (s.fail code).mem = s.mem := rfl
@[simp] theorem State.fail_msglen (code : ErrCode) : (s.fail code).msglen = s.msglen := rfl
@[simp] theorem State.fail_ie (code : ErrCode) : (s.fail code).ie = s.ie := rfl
@[simp] theorem State.fail_done (code : ErrCode) : (s.fail code).done = true := rfl
@[simp] theorem State.fail_haz (code : ErrCode) : (s.fail code).haz = s.haz := rfl
@[simp] theorem State.fail_err (code : ErrCode) : (s.fail code).err = code := rfl
@[simp] theorem State.fail_cmd (code : ErrCode) : (s.fail code).cmd = s.cmd := rfl
@[simp] theorem State.fail_pending (code : ErrCode) : (s.fail code).pending = none := rfl
@[simp] theorem State.fail_inputs (code : ErrCode) : (s.fail code).inputs = s.inputs := rfl
@[simp] theorem State.fail_answer (code : ErrCode) : (s.fail code).answer = s.answer := rfl
@[simp] theorem State.fail_draws (code : ErrCode) : (s.fail code).draws = s.draws := rfl
@[simp] theorem State.fail_epoch (code : ErrCode) : (s.fail code).epoch = s.epoch := rfl
@[simp] theorem State.fail_busy (code : ErrCode) : (s.fail code).busy = false := rfl

/-! ### `State.commitBlk` -/

@[simp] theorem State.commitBlk_f (x : Block) : (s.commitBlk x).f = s.f := rfl
@[simp] theorem State.commitBlk_p (x : Block) : (s.commitBlk x).p = s.p := rfl
@[simp] theorem State.commitBlk_key (x : Block) : (s.commitBlk x).key = s.key := rfl
@[simp] theorem State.commitBlk_blk (x : Block) : (s.commitBlk x).blk = x := rfl
@[simp] theorem State.commitBlk_chain (x : Block) : (s.commitBlk x).chain = s.chain := rfl
@[simp] theorem State.commitBlk_mem (x : Block) : (s.commitBlk x).mem = s.mem := rfl
@[simp] theorem State.commitBlk_msglen (x : Block) : (s.commitBlk x).msglen = s.msglen := rfl
@[simp] theorem State.commitBlk_ie (x : Block) : (s.commitBlk x).ie = s.ie := rfl
@[simp] theorem State.commitBlk_done (x : Block) : (s.commitBlk x).done = true := rfl
@[simp] theorem State.commitBlk_haz (x : Block) : (s.commitBlk x).haz = s.haz := rfl
@[simp] theorem State.commitBlk_err (x : Block) : (s.commitBlk x).err = .ok := rfl
@[simp] theorem State.commitBlk_cmd (x : Block) : (s.commitBlk x).cmd = s.cmd := rfl
@[simp] theorem State.commitBlk_pending (x : Block) : (s.commitBlk x).pending = none := rfl
@[simp] theorem State.commitBlk_inputs (x : Block) : (s.commitBlk x).inputs = s.inputs := rfl
@[simp] theorem State.commitBlk_answer (x : Block) : (s.commitBlk x).answer = s.answer := rfl
@[simp] theorem State.commitBlk_draws (x : Block) : (s.commitBlk x).draws = s.draws := rfl
@[simp] theorem State.commitBlk_epoch (x : Block) : (s.commitBlk x).epoch = s.epoch := rfl
@[simp] theorem State.commitBlk_busy (x : Block) : (s.commitBlk x).busy = false := rfl

/-! ### `State.commitBlkChain` -/

@[simp] theorem State.commitBlkChain_f (x c : Block) : (s.commitBlkChain x c).f = s.f := rfl
@[simp] theorem State.commitBlkChain_p (x c : Block) : (s.commitBlkChain x c).p = s.p := rfl
@[simp] theorem State.commitBlkChain_key (x c : Block) : (s.commitBlkChain x c).key = s.key := rfl
@[simp] theorem State.commitBlkChain_blk (x c : Block) : (s.commitBlkChain x c).blk = x := rfl
@[simp] theorem State.commitBlkChain_chain (x c : Block) : (s.commitBlkChain x c).chain = c := rfl
@[simp] theorem State.commitBlkChain_mem (x c : Block) : (s.commitBlkChain x c).mem = s.mem := rfl
@[simp] theorem State.commitBlkChain_msglen (x c : Block) : (s.commitBlkChain x c).msglen = s.msglen := rfl
@[simp] theorem State.commitBlkChain_ie (x c : Block) : (s.commitBlkChain x c).ie = s.ie := rfl
@[simp] theorem State.commitBlkChain_done (x c : Block) : (s.commitBlkChain x c).done = true := rfl
@[simp] theorem State.commitBlkChain_haz (x c : Block) : (s.commitBlkChain x c).haz = s.haz := rfl
@[simp] theorem State.commitBlkChain_err (x c : Block) : (s.commitBlkChain x c).err = .ok := rfl
@[simp] theorem State.commitBlkChain_cmd (x c : Block) : (s.commitBlkChain x c).cmd = s.cmd := rfl
@[simp] theorem State.commitBlkChain_pending (x c : Block) : (s.commitBlkChain x c).pending = none := rfl
@[simp] theorem State.commitBlkChain_inputs (x c : Block) : (s.commitBlkChain x c).inputs = s.inputs := rfl
@[simp] theorem State.commitBlkChain_answer (x c : Block) : (s.commitBlkChain x c).answer = s.answer := rfl
@[simp] theorem State.commitBlkChain_draws (x c : Block) : (s.commitBlkChain x c).draws = s.draws := rfl
@[simp] theorem State.commitBlkChain_epoch (x c : Block) : (s.commitBlkChain x c).epoch = s.epoch := rfl
@[simp] theorem State.commitBlkChain_busy (x c : Block) : (s.commitBlkChain x c).busy = false := rfl

/-! ### `State.writeStatus` -/

@[simp] theorem State.writeStatus_f (v : Word32) : (s.writeStatus v).f = s.f := rfl
@[simp] theorem State.writeStatus_p (v : Word32) : (s.writeStatus v).p = s.p := rfl
@[simp] theorem State.writeStatus_key (v : Word32) : (s.writeStatus v).key = s.key := rfl
@[simp] theorem State.writeStatus_blk (v : Word32) : (s.writeStatus v).blk = s.blk := rfl
@[simp] theorem State.writeStatus_chain (v : Word32) : (s.writeStatus v).chain = s.chain := rfl
@[simp] theorem State.writeStatus_mem (v : Word32) : (s.writeStatus v).mem = s.mem := rfl
@[simp] theorem State.writeStatus_msglen (v : Word32) : (s.writeStatus v).msglen = s.msglen := rfl
@[simp] theorem State.writeStatus_ie (v : Word32) : (s.writeStatus v).ie = s.ie := rfl
@[simp] theorem State.writeStatus_done (v : Word32) : (s.writeStatus v).done = (s.done && !v.getLsbD 1) := rfl
@[simp] theorem State.writeStatus_haz (v : Word32) : (s.writeStatus v).haz = (s.haz && !v.getLsbD 2) := rfl
@[simp] theorem State.writeStatus_err (v : Word32) : (s.writeStatus v).err = s.err := rfl
@[simp] theorem State.writeStatus_cmd (v : Word32) : (s.writeStatus v).cmd = s.cmd := rfl
@[simp] theorem State.writeStatus_pending (v : Word32) : (s.writeStatus v).pending = s.pending := rfl
@[simp] theorem State.writeStatus_inputs (v : Word32) : (s.writeStatus v).inputs = s.inputs := rfl
@[simp] theorem State.writeStatus_answer (v : Word32) : (s.writeStatus v).answer = s.answer := rfl
@[simp] theorem State.writeStatus_draws (v : Word32) : (s.writeStatus v).draws = s.draws := rfl
@[simp] theorem State.writeStatus_epoch (v : Word32) : (s.writeStatus v).epoch = s.epoch := rfl
@[simp] theorem State.writeStatus_busy (v : Word32) : (s.writeStatus v).busy = s.busy := rfl

/-! ### `State.hostRead` -/

@[simp] theorem State.hostRead_f (off : Nat) : (s.hostRead off).f = s.f := rfl
@[simp] theorem State.hostRead_p (off : Nat) : (s.hostRead off).p = s.p := rfl
@[simp] theorem State.hostRead_key (off : Nat) : (s.hostRead off).key = s.key := rfl
@[simp] theorem State.hostRead_blk (off : Nat) : (s.hostRead off).blk = s.blk := rfl
@[simp] theorem State.hostRead_chain (off : Nat) : (s.hostRead off).chain = s.chain := rfl
@[simp] theorem State.hostRead_mem (off : Nat) : (s.hostRead off).mem = s.mem := rfl
@[simp] theorem State.hostRead_msglen (off : Nat) : (s.hostRead off).msglen = s.msglen := rfl
@[simp] theorem State.hostRead_ie (off : Nat) : (s.hostRead off).ie = s.ie := rfl
@[simp] theorem State.hostRead_done (off : Nat) : (s.hostRead off).done = s.done := rfl
@[simp] theorem State.hostRead_haz (off : Nat) : (s.hostRead off).haz = s.haz := rfl
@[simp] theorem State.hostRead_err (off : Nat) : (s.hostRead off).err = s.err := rfl
@[simp] theorem State.hostRead_cmd (off : Nat) : (s.hostRead off).cmd = s.cmd := rfl
@[simp] theorem State.hostRead_pending (off : Nat) : (s.hostRead off).pending = s.pending := rfl
@[simp] theorem State.hostRead_inputs (off : Nat) : (s.hostRead off).inputs = s.inputs := rfl
@[simp] theorem State.hostRead_answer (off : Nat) : (s.hostRead off).answer = some (s.hostReadValue off) := rfl
@[simp] theorem State.hostRead_draws (off : Nat) : (s.hostRead off).draws = (if s.busy && (locate off).isData then s.draws + 1 else s.draws) := rfl
@[simp] theorem State.hostRead_epoch (off : Nat) : (s.hostRead off).epoch = s.epoch := rfl
@[simp] theorem State.hostRead_busy (off : Nat) : (s.hostRead off).busy = s.busy := rfl

/-! ### `State.reset` and the two resets -/

@[simp] theorem State.reset_f : State.reset.f = Vector.replicate 16 0#256 := rfl
@[simp] theorem State.reset_p : State.reset.p = Vector.replicate 8 Point.infinity := rfl
@[simp] theorem State.reset_key : State.reset.key = Vector.replicate 8 0#32 := rfl
@[simp] theorem State.reset_blk : State.reset.blk = 0#64 := rfl
@[simp] theorem State.reset_chain : State.reset.chain = 0#64 := rfl
@[simp] theorem State.reset_mem : State.reset.mem = [] := rfl
@[simp] theorem State.reset_msglen : State.reset.msglen = 0#32 := rfl
@[simp] theorem State.reset_ie : State.reset.ie = false := rfl
@[simp] theorem State.reset_done : State.reset.done = false := rfl
@[simp] theorem State.reset_haz : State.reset.haz = false := rfl
@[simp] theorem State.reset_err : State.reset.err = .ok := rfl
@[simp] theorem State.reset_cmd : State.reset.cmd = 0#32 := rfl
@[simp] theorem State.reset_pending : State.reset.pending = none := rfl
@[simp] theorem State.reset_inputs : State.reset.inputs = [] := rfl
@[simp] theorem State.reset_answer : State.reset.answer = none := rfl
@[simp] theorem State.reset_draws : State.reset.draws = 0 := rfl
@[simp] theorem State.reset_epoch : State.reset.epoch = 0 := rfl
@[simp] theorem State.reset_busy : State.reset.busy = false := rfl

@[simp] theorem State.softReset_f : s.softReset.f = Vector.replicate 16 0#256 := rfl
@[simp] theorem State.softReset_p : s.softReset.p = Vector.replicate 8 Point.infinity := rfl
@[simp] theorem State.softReset_key : s.softReset.key = Vector.replicate 8 0#32 := rfl
@[simp] theorem State.softReset_blk : s.softReset.blk = 0#64 := rfl
@[simp] theorem State.softReset_chain : s.softReset.chain = 0#64 := rfl
@[simp] theorem State.softReset_mem : s.softReset.mem = s.mem := rfl
@[simp] theorem State.softReset_msglen : s.softReset.msglen = 0#32 := rfl
@[simp] theorem State.softReset_ie : s.softReset.ie = false := rfl
@[simp] theorem State.softReset_done : s.softReset.done = false := rfl
@[simp] theorem State.softReset_haz : s.softReset.haz = false := rfl
@[simp] theorem State.softReset_err : s.softReset.err = .ok := rfl
@[simp] theorem State.softReset_cmd : s.softReset.cmd = 0#32 := rfl
@[simp] theorem State.softReset_pending : s.softReset.pending = none := rfl
@[simp] theorem State.softReset_inputs : s.softReset.inputs = s.inputs := rfl
@[simp] theorem State.softReset_answer : s.softReset.answer = s.answer := rfl
@[simp] theorem State.softReset_draws : s.softReset.draws = s.draws := rfl
@[simp] theorem State.softReset_epoch : s.softReset.epoch = s.epoch := rfl
@[simp] theorem State.softReset_busy : s.softReset.busy = false := rfl

@[simp] theorem State.powerOnReset_f : s.powerOnReset.f = Vector.replicate 16 0#256 := rfl
@[simp] theorem State.powerOnReset_p : s.powerOnReset.p = Vector.replicate 8 Point.infinity := rfl
@[simp] theorem State.powerOnReset_key : s.powerOnReset.key = Vector.replicate 8 0#32 := rfl
@[simp] theorem State.powerOnReset_blk : s.powerOnReset.blk = 0#64 := rfl
@[simp] theorem State.powerOnReset_chain : s.powerOnReset.chain = 0#64 := rfl
@[simp] theorem State.powerOnReset_mem : s.powerOnReset.mem = [] := rfl
@[simp] theorem State.powerOnReset_msglen : s.powerOnReset.msglen = 0#32 := rfl
@[simp] theorem State.powerOnReset_ie : s.powerOnReset.ie = false := rfl
@[simp] theorem State.powerOnReset_done : s.powerOnReset.done = false := rfl
@[simp] theorem State.powerOnReset_haz : s.powerOnReset.haz = false := rfl
@[simp] theorem State.powerOnReset_err : s.powerOnReset.err = .ok := rfl
@[simp] theorem State.powerOnReset_cmd : s.powerOnReset.cmd = 0#32 := rfl
@[simp] theorem State.powerOnReset_pending : s.powerOnReset.pending = none := rfl
@[simp] theorem State.powerOnReset_inputs : s.powerOnReset.inputs = s.inputs := rfl
@[simp] theorem State.powerOnReset_answer : s.powerOnReset.answer = s.answer := rfl
@[simp] theorem State.powerOnReset_draws : s.powerOnReset.draws = s.draws := rfl
@[simp] theorem State.powerOnReset_epoch : s.powerOnReset.epoch = s.epoch + 1 := rfl
@[simp] theorem State.powerOnReset_busy : s.powerOnReset.busy = false := rfl

end Sys2Proof.Machine
end

