-- ==== Sys2Proof/Laws/Ops.lean ====
section
/-! SUPPORT. What each shared operation does, once: the register files, and how a command
commits. -/

namespace Sys2Proof.Machine

theorem State.getF_setF (s : State) (i j : FReg) (v : Word256) :
    (s.setF i v).getF j = if j = i then v else s.getF j := by
  by_cases h : j = i
  · subst h; simp [State.getF]
  · have h' : i.val ≠ j.val := fun e => h (Fin.ext e.symm)
    simp [State.getF, h, Vector.getElem_set_ne _ _ h']

theorem State.getP_setP (s : State) (i j : PReg) (Q : Point) :
    (s.setP i Q).getP j = if j = i then Q else s.getP j := by
  by_cases h : j = i
  · subst h; simp [State.getP]
  · have h' : i.val ≠ j.val := fun e => h (Fin.ext e.symm)
    simp [State.getP, h, Vector.getElem_set_ne _ _ h']

theorem State.getKey_setKey (s : State) (i j : KIdx) (v : Word32) :
    (s.setKey i v).getKey j = if j = i then v else s.getKey j := by
  by_cases h : j = i
  · subst h; simp [State.getKey]
  · have h' : i.val ≠ j.val := fun e => h (Fin.ext e.symm)
    simp [State.getKey, h, Vector.getElem_set_ne _ _ h']

@[simp] theorem State.getF_complete (s : State) (code : ErrCode) (i : FReg) :
    (s.complete code).getF i = s.getF i := rfl

@[simp] theorem State.getP_complete (s : State) (code : ErrCode) (i : PReg) :
    (s.complete code).getP i = s.getP i := rfl

@[simp] theorem State.getF_setP (s : State) (d : PReg) (Q : Point) (i : FReg) :
    (s.setP d Q).getF i = s.getF i := rfl

@[simp] theorem State.getP_setF (s : State) (d : FReg) (v : Word256) (i : PReg) :
    (s.setF d v).getP i = s.getP i := rfl

@[simp] theorem State.msgByte_complete (s : State) (code : ErrCode) (j : Nat) :
    (s.complete code).msgByte j = s.msgByte j := rfl

@[simp] theorem State.msgByte_setF (s : State) (d : FReg) (v : Word256) (j : Nat) :
    (s.setF d v).msgByte j = s.msgByte j := rfl

@[simp] theorem State.msgByte_setP (s : State) (d : PReg) (Q : Point) (j : Nat) :
    (s.setP d Q).msgByte j = s.msgByte j := rfl

@[simp] theorem State.commitF_ok (s : State) (d : FReg) (v : Word256) :
    s.commitF d (.ok v) = (s.setF d v).complete .ok := rfl

@[simp] theorem State.commitF_error (s : State) (d : FReg) (code : ErrCode) :
    s.commitF d (.error code) = s.fail code := rfl

@[simp] theorem State.commitP_ok (s : State) (d : PReg) (Q : Point) :
    s.commitP d (.ok Q) = (s.setP d Q).complete .ok := rfl

@[simp] theorem State.commitP_error (s : State) (d : PReg) (code : ErrCode) :
    s.commitP d (.error code) = s.fail code := rfl

@[simp] theorem State.commitPair_ok (s : State) (d : FPair) (v v' : Word256) :
    s.commitPair d (.ok (v, v')) = ((s.setF d v).setF (d + 1) v').complete .ok := rfl

@[simp] theorem State.commitPair_error (s : State) (d : FPair) (code : ErrCode) :
    s.commitPair d (.error code) = s.fail code := rfl

theorem State.fail_eq_complete (s : State) (code : ErrCode) : s.fail code = s.complete code := rfl

/-- All that a command writing one field register can do. -/
theorem State.commitF_cases (s : State) (d : FReg) (r : Except ErrCode Word256) :
    (∃ v, r = .ok v ∧ s.commitF d r = (s.setF d v).complete .ok) ∨
    (∃ code, r = .error code ∧ s.commitF d r = s.complete code) := by
  cases r with
  | ok v => exact .inl ⟨v, rfl, rfl⟩
  | error code => exact .inr ⟨code, rfl, rfl⟩

/-- All that a command writing one point register can do. -/
theorem State.commitP_cases (s : State) (d : PReg) (r : Except ErrCode Point) :
    (∃ Q, r = .ok Q ∧ s.commitP d r = (s.setP d Q).complete .ok) ∨
    (∃ code, r = .error code ∧ s.commitP d r = s.complete code) := by
  cases r with
  | ok v => exact .inl ⟨v, rfl, rfl⟩
  | error code => exact .inr ⟨code, rfl, rfl⟩

/-- All that a command writing a pair of field registers can do. -/
theorem State.commitPair_cases (s : State) (d : FPair) (r : Except ErrCode (Word256 × Word256)) :
    (∃ v v', r = .ok (v, v') ∧ s.commitPair d r = ((s.setF d v).setF (d + 1) v').complete .ok) ∨
    (∃ code, r = .error code ∧ s.commitPair d r = s.complete code) := by
  match r with
  | .ok (v, v') => exact .inl ⟨v, v', rfl, rfl⟩
  | .error code => exact .inr ⟨code, rfl, rfl⟩

theorem pairSecond_ne {d : FPair} (h : FPair.ok d = true) : pairSecond d ≠ d := by
  revert d; decide

/-- The second register of a well-formed pair is the next one (30_encoding.md R91). -/
theorem pairSecond_val {d : FPair} (h : FPair.ok d = true) : (pairSecond d).val = d.val + 1 := by
  revert d; decide

end Sys2Proof.Machine
end

