-- ==== Sys2Proof/Laws/Frames.lean ====
section
/-! SUPPORT. How each way a command can end meets the frames of `Safety`, and what the helper terms
of the statements are equal to. -/

namespace Sys2Proof.Machine

open Sys2Proof.Safety

theorem untouched_complete (s : State) (code : ErrCode) : Untouched s (s.complete code) :=
  ⟨fun _ => rfl, rfl, rfl, rfl, rfl, rfl, rfl, rfl, rfl, rfl⟩

theorem fails_fail (s : State) (code : ErrCode) : Fails code s (s.fail code) :=
  ⟨⟨rfl, rfl, rfl, rfl⟩, untouched_complete s code, ⟨rfl, rfl, rfl⟩, fun _ => rfl, fun _ => rfl⟩

theorem writesF_setF (s : State) (d : FReg) (v : Word256) :
    WritesF d v s ((s.setF d v).complete .ok) :=
  ⟨⟨rfl, rfl, rfl, rfl⟩, ⟨fun _ => rfl, rfl, rfl, rfl, rfl, rfl, rfl, rfl, rfl, rfl⟩,
    ⟨rfl, rfl, rfl⟩,
    fun i => by simp [State.getF_setF], fun _ => rfl⟩

theorem writesTwoF_setF (s : State) {d d' : FReg} (v v' : Word256) (h : d ≠ d') :
    WritesTwoF d d' v v' s (((s.setF d v).setF d' v').complete .ok) := by
  refine ⟨⟨rfl, rfl, rfl, rfl⟩, ⟨fun _ => rfl, rfl, rfl, rfl, rfl, rfl, rfl, rfl, rfl, rfl⟩, ⟨rfl, rfl, rfl⟩, fun i => ?_, fun _ => rfl⟩
  rw [State.getF_complete, State.getF_setF, State.getF_setF]
  by_cases hi : i = d
  · simp [hi, h]
  · simp [hi]

theorem writesP_setP (s : State) (d : PReg) (Q : Point) :
    WritesP d Q s ((s.setP d Q).complete .ok) :=
  ⟨⟨rfl, rfl, rfl, rfl⟩, ⟨fun _ => rfl, rfl, rfl, rfl, rfl, rfl, rfl, rfl, rfl, rfl⟩, ⟨rfl, rfl, rfl⟩, fun _ => rfl,
    fun i => by simp [State.getP_setP]⟩

theorem writesCipher_set (s : State) (key : Vector Word32 8) (blk chain : Block) :
    WritesCipher (fun i => key[i]) blk chain s
      ({ s with key := key, blk := blk, chain := chain }.complete .ok) :=
  ⟨⟨rfl, rfl, rfl, rfl⟩, ⟨fun _ => rfl, rfl, rfl, rfl, rfl, rfl, rfl, rfl, rfl, rfl⟩, fun _ => rfl, rfl, rfl, fun _ => rfl,
    fun _ => rfl⟩

theorem inScalarRange_iff {c : Curve} {k : Word256} :
    inScalarRange c k = true ↔ 1 ≤ k.toNat ∧ k.toNat ≤ c.n - 1 := by
  rw [inScalarRange, Bool.and_eq_true, decide_eq_true_iff, decide_eq_true_iff]

theorem boolWord_eq_one {b : Bool} : boolWord b = 1#256 ↔ b = true := by
  cases b <;> simp [boolWord]

/-- The word of 30_encoding.md R100 is the packed word of R90. -/
theorem commandWord_eq_pack (op : BitVec 8) (d s1 s2 s3 : BitVec 4) :
    commandWord op.toNat d.toNat s1.toNat s2.toNat s3.toNat = pack op d s1 s2 s3 := by
  have h : ∀ (n m x y : Nat), y < 2 ^ m → x <<< m ||| y = x * 2 ^ m + y := by
    intro n m x y hy
    rw [Nat.shiftLeft_eq, mul_comm, Nat.two_pow_add_eq_or_of_lt hy]
  apply BitVec.eq_of_toNat_eq
  simp only [commandWord, pack, BitVec.toNat_append, BitVec.toNat_ofNat]
  rw [h 8 8 _ _ op.isLt, h 8 4 _ _ d.isLt, h 8 4 _ _ s1.isLt, h 8 4 _ _ s2.isLt, h 8 4 _ _ s3.isLt]
  have := op.isLt
  have := d.isLt
  have := s1.isLt
  have := s2.isLt
  have := s3.isLt
  omega

end Sys2Proof.Machine
end

