-- ==== Sys2Proof/Laws/Hash.lean ====
section
/-! SUPPORT. The message and the digest as integers (43_hash.md R160, R162). -/

namespace Sys2Proof.Machine

/-- The message is the first `MSGLEN` bytes of the buffer. -/
theorem State.message_eq_ofFn (s : State) :
    s.message = List.ofFn fun j : Fin s.msglen.toNat => s.msgByte j := by
  simp [State.message, List.ofFn_eq_map, ← List.map_coe_finRange_eq_range]

/-- The integer of a byte string as a sum, byte 0 the most significant (00_scope.md R17). -/
theorem os2ip_ofFn : ∀ (n : Nat) (f : Fin n → Byte),
    os2ip (List.ofFn f) = ∑ i : Fin n, (f i).toNat * 256 ^ (n - 1 - i.val)
  | 0, _ => rfl
  | n + 1, f => by
    rw [List.ofFn_succ, ← List.singleton_append, os2ip_append, os2ip_ofFn n, Fin.sum_univ_succ,
      List.length_ofFn]
    congr 1
    · simp [os2ip]
    · refine Finset.sum_congr rfl fun i _ => ?_
      rw [Fin.val_succ]
      congr 2
      omega

/-- The digest as an integer: byte 0 is the most significant (43_hash.md R162). -/
theorem digest_toNat (h : List Byte → Vector Byte 32) (bytes : List Byte) :
    (digest h bytes).toNat = ∑ i : Fin 32, ((h bytes)[i]).toNat * 2 ^ (8 * (31 - i.val)) := by
  have hl := os2ip_lt (h bytes).toList
  rw [digest, BitVec.toNat_ofNat, Nat.mod_eq_of_lt (by simpa using hl)]
  have hD : (h bytes).toList = List.ofFn fun i : Fin 32 => (h bytes)[i] := by
    refine List.ext_getElem (by simp) fun i h1 h2 => ?_
    rw [List.getElem_ofFn]
    simp
  rw [hD, os2ip_ofFn]
  refine Finset.sum_congr rfl fun i _ => ?_
  rw [pow_mul]
  rfl

end Sys2Proof.Machine
end

