-- ==== Sys2Proof/Laws/Window.lean ====
section
/-! SUPPORT. The address map at each register's own offsets, and all that a host access can do. -/

namespace Sys2Proof.Machine

theorem locate_f (i : FReg) (j : Fin 8) : locate (0x100 + 0x20 * i.val + 4 * j.val) = .f i j := by
  revert i j; decide +kernel

theorem locate_px (i : PReg) (j : Fin 8) : locate (0x300 + 0x60 * i.val + 4 * j.val) = .px i j := by
  revert i j; decide +kernel

theorem locate_py (i : PReg) (j : Fin 8) :
    locate (0x300 + 0x60 * i.val + 0x20 + 4 * j.val) = .py i j := by
  revert i j; decide +kernel

theorem locate_pinf (i : PReg) : locate (0x300 + 0x60 * i.val + 0x40) = .pinf i := by
  revert i; decide +kernel

theorem locate_p_reserved (i : PReg) (r : Nat) (lo : 0x44 ≤ r) (hi : r < 0x60) :
    locate (0x300 + 0x60 * i.val + r) = .reserved := by
  have key : ∀ i : PReg, ∀ r : Fin 0x60, 0x44 ≤ r.val →
      locate (0x300 + 0x60 * i.val + r.val) = .reserved := by decide +kernel
  exact key i ⟨r, hi⟩ lo

theorem locate_key (i : KIdx) : locate (0x600 + 4 * i.val) = .key i := by
  revert i; decide +kernel

theorem locate_blk (j : Fin 2) : locate (0x620 + 4 * j.val) = .blk j := by
  revert j; decide +kernel

theorem locate_chain (j : Fin 2) : locate (0x628 + 4 * j.val) = .chain j := by
  revert j; decide +kernel

theorem locate_msg (k : Fin 1024) : locate (0x1000 + 4 * k.val) = .msg k := by
  revert k; decide +kernel

/-- The offsets that are none of `CTRL`, `STATUS` and `CMD` are no such target. -/
theorem locate_plain {off : Nat} (h : off < 0x004 ∨ 0x010 ≤ off) :
    locate off ≠ .ctrl ∧ locate off ≠ .status ∧ locate off ≠ .cmd := by
  have hp : ∀ i r, locateP i r ≠ .ctrl ∧ locateP i r ≠ .status ∧ locateP i r ≠ .cmd := by
    intro i r
    unfold locateP
    by_cases h1 : r < 0x20
    · rw [if_pos h1]; simp
    rw [if_neg h1]
    by_cases h2 : r < 0x40
    · rw [if_pos h2]; simp
    rw [if_neg h2]
    by_cases h3 : r < 0x44
    · rw [if_pos h3]; simp
    rw [if_neg h3]; simp
  unfold locate
  by_cases h1 : off < 0x004
  · rw [if_pos h1]; simp
  rw [if_neg h1, if_neg (by omega), if_neg (by omega), if_neg (by omega)]
  by_cases h2 : off < 0x014
  · rw [if_pos h2]; simp
  rw [if_neg h2]
  by_cases h3 : off < 0x100
  · rw [if_pos h3]; simp
  rw [if_neg h3]
  by_cases h4 : off < 0x300
  · rw [if_pos h4]; simp
  rw [if_neg h4]
  by_cases h5 : off < 0x600
  · rw [if_pos h5]; exact hp _ _
  rw [if_neg h5]
  by_cases h6 : off < 0x620
  · rw [if_pos h6]; simp
  rw [if_neg h6]
  by_cases h7 : off < 0x628
  · rw [if_pos h7]; simp
  rw [if_neg h7]
  by_cases h8 : off < 0x630
  · rw [if_pos h8]; simp
  rw [if_neg h8]
  by_cases h9 : off < 0x1000
  · rw [if_pos h9]; simp
  rw [if_neg h9]; simp

theorem locate_ctrl {off : Nat} (h : locate off = .ctrl) : 0x004 ≤ off ∧ off < 0x008 := by
  by_cases hr : off < 0x004 ∨ 0x010 ≤ off
  · exact absurd h (locate_plain hr).1
  · by_contra hc
    have : off / 4 = 2 ∨ off / 4 = 3 := by omega
    unfold locate at h
    rw [if_neg (by omega), if_neg (by omega)] at h
    by_cases h1 : off < 0x00C
    · rw [if_pos h1] at h; cases h
    · rw [if_neg h1, if_pos (by omega)] at h; cases h

theorem locate_status {off : Nat} (h : locate off = .status) : 0x008 ≤ off ∧ off < 0x00C := by
  by_cases hr : off < 0x004 ∨ 0x010 ≤ off
  · exact absurd h (locate_plain hr).2.1
  · by_contra hc
    unfold locate at h
    rw [if_neg (by omega)] at h
    by_cases h1 : off < 0x008
    · rw [if_pos h1] at h; cases h
    · rw [if_neg h1, if_neg (by omega), if_pos (by omega)] at h; cases h

theorem locate_cmd {off : Nat} (h : locate off = .cmd) : 0x00C ≤ off ∧ off < 0x010 := by
  by_cases hr : off < 0x004 ∨ 0x010 ≤ off
  · exact absurd h (locate_plain hr).2.2
  · by_contra hc
    unfold locate at h
    rw [if_neg (by omega)] at h
    by_cases h1 : off < 0x008
    · rw [if_pos h1] at h; cases h
    · rw [if_neg h1, if_pos (by omega)] at h; cases h

/-- The data registers are at the offsets of `Safety.DataOffset`. -/
theorem locate_isData {off : Nat} (ha : off % 4 = 0) (hlt : off < 0x2000) :
    (locate off).isData = true ↔ Safety.DataOffset off := by
  have key : ∀ k : Fin 2048, (locate (4 * k.val)).isData = true ↔ Safety.DataOffset (4 * k.val) := by
    unfold Safety.DataOffset
    decide +kernel
  have h4 : 4 * (off / 4) = off := by omega
  simpa [h4] using key ⟨off / 4, by omega⟩

/-- The offsets that hold nothing are those of `Safety.ReservedOffset`. -/
theorem locate_reserved {off : Nat} (ha : off % 4 = 0) (hlt : off < 0x2000) :
    locate off = .reserved ↔ Safety.ReservedOffset off := by
  have key : ∀ k : Fin 2048, locate (4 * k.val) = .reserved ↔ Safety.ReservedOffset (4 * k.val) := by
    unfold Safety.ReservedOffset
    decide +kernel
  have h4 : 4 * (off / 4) = off := by omega
  simpa [h4] using key ⟨off / 4, by omega⟩

/-- An access that meets no bus fault (20_memory.md R60, R64). -/
theorem busFault_none {width off : Nat} :
    busFault width off = none ↔ width = 4 ∧ off % 4 = 0 ∧ off < 0x2000 := by
  unfold busFault
  split_ifs <;> simp <;> omega

/-- All that a host write can do (10_state.md R31, R32, R34; 70_reset_and_hazards.md R270, R271). -/
theorem State.hostWrite_cases (s : State) (off : Nat) (v : Word32) :
    (locate off = .ctrl ∧ s.hostWrite off v = s.writeCtrl v) ∨
    (locate off = .status ∧ s.hostWrite off v = s.writeStatus v) ∨
    (locate off = .cmd ∧ s.busy = false ∧ s.hostWrite off v = s.accept v) ∨
    ((locate off = .cmd ∨ (locate off).isData = true) ∧ s.busy = true ∧
      s.hostWrite off v = { s with haz := true }) ∨
    ((locate off).isData = true ∧ s.busy = false ∧
      s.hostWrite off v = s.storeTarget v (locate off)) ∨
    ((locate off = .id ∨ locate off = .reserved) ∧ s.hostWrite off v = s) := by
  unfold State.hostWrite
  cases hb : s.busy <;> cases locate off <;> simp [Target.isData]

theorem State.hostWrite_data {s : State} {off : Nat} (v : Word32) (hb : s.busy = false)
    (hd : (locate off).isData = true) : s.hostWrite off v = s.storeTarget v (locate off) := by
  unfold State.hostWrite
  revert hd
  cases locate off <;> simp [Target.isData, hb]

theorem State.hostReadValue_idle {s : State} (off : Nat) (hb : s.busy = false) :
    s.hostReadValue off = s.readTarget (locate off) := by simp [State.hostReadValue, hb]

/-- A stored word keeps the memory's canonical form. -/
theorem State.storeTarget_wf {s : State} (v : Word32) (t : Target) (h : s.mem.wf) :
    (s.storeTarget v t).mem.wf := by
  cases t with
  | msg k => exact State.setMsgWord_wf v h k.isLt
  | _ => exact h

end Sys2Proof.Machine
end

