-- ==== Sys2Proof/Laws/HostProcedures.lean ====
section
/-! SUPPORT. What the host's accesses do to an idle device, register by register, and what one
command through `CMD` does. -/

namespace Sys2Proof.Machine

/-- An accepted word is what the engine's turn performs. -/
theorem hostCommand_idle {s : State} (w : Word32) (hb : s.busy = false) :
    hostCommand w s = match perform w (s.accept w) with
      | .next t => .ok t
      | .fault _ => .error .deviceStopped
      | .refused _ => .error .deviceStopped := by
  have : s.hostWrite 0x00C w = s.accept w := by
    show (if s.busy then _ else _) = _
    rw [hb]; rfl
  rw [hostCommand, this]
  rfl

theorem writeBlk_idle {s : State} (x : Block) (hb : s.busy = false) :
    writeBlk x s = { s with blk := x } := by
  have h0 : ∀ (t : State) (w : Word32), t.busy = false →
      t.hostWrite 0x620 w = { t with blk := withWord t.blk 0 w } := fun t w ht =>
    State.hostWrite_data w ht rfl
  have h1 : ∀ (t : State) (w : Word32), t.busy = false →
      t.hostWrite 0x624 w = { t with blk := withWord t.blk 1 w } := fun t w ht =>
    State.hostWrite_data w ht rfl
  rw [writeBlk, h0 s _ hb, h1]
  · simp [withWord_both]
  · exact hb

theorem writeChain_idle {s : State} (x : Block) (hb : s.busy = false) :
    writeChain x s = { s with chain := x } := by
  have h0 : ∀ (t : State) (w : Word32), t.busy = false →
      t.hostWrite 0x628 w = { t with chain := withWord t.chain 0 w } := fun t w ht =>
    State.hostWrite_data w ht rfl
  have h1 : ∀ (t : State) (w : Word32), t.busy = false →
      t.hostWrite 0x62C w = { t with chain := withWord t.chain 1 w } := fun t w ht =>
    State.hostWrite_data w ht rfl
  rw [writeChain, h0 s _ hb, h1]
  · simp [withWord_both]
  · exact hb

theorem readBlk_idle {s : State} (hb : s.busy = false) : readBlk s = s.blk := by
  rw [readBlk, State.hostReadValue_idle _ hb, State.hostReadValue_idle _ hb]
  exact joinHalves_wordOf s.blk

theorem hostWrite_key_idle {s : State} (i : KIdx) (v : Word32) (hb : s.busy = false) :
    s.hostWrite (0x600 + 4 * i.val) v = s.setKey i v := by
  rw [State.hostWrite_data v hb (by rw [locate_key]; rfl), locate_key]
  rfl

theorem writeKeys_idle {s : State} (k : Vector Word32 8) (hb : s.busy = false) :
    writeKeys k s = { s with key := k } := by
  have step : ∀ (l : List (Fin 8)) (t : State), t.busy = false →
      l.foldl (fun t i => t.hostWrite (0x600 + 4 * i.val) k[i]) t
        = l.foldl (fun t i => t.setKey i k[i]) t := by
    intro l
    induction l with
    | nil => intros; rfl
    | cons i l ih =>
      intro t ht
      simp only [List.foldl_cons]
      rw [hostWrite_key_idle i _ ht, ih _ (by simpa using ht)]
  rw [writeKeys, step _ _ hb]
  have key : ∀ (l : List (Fin 8)) (t : State),
      l.foldl (fun t i => t.setKey i k[i]) t
        = { t with key := l.foldl (fun v (i : Fin 8) => v.set i k[i]) t.key } := by
    intro l
    induction l with
    | nil => intros; rfl
    | cons i l ih => intro t; simp only [List.foldl_cons]; rw [ih]; rfl
  rw [key]
  congr 1
  apply Vector.ext
  intro i hi
  have h8 : i = 0 ∨ i = 1 ∨ i = 2 ∨ i = 3 ∨ i = 4 ∨ i = 5 ∨ i = 6 ∨ i = 7 := by omega
  have hl : List.finRange 8 = [0, 1, 2, 3, 4, 5, 6, 7] := by decide
  rw [hl]
  rcases h8 with rfl | rfl | rfl | rfl | rfl | rfl | rfl | rfl <;>
    simp

theorem loadCipher_idle {s : State} (maps : ByteMaps) (key : Vector Byte 32) (iv : Vector Byte 8)
    (hb : s.busy = false) :
    loadCipher maps key iv s
      = { s with key := maps.keymap key, chain := maps.blockmap iv } := by
  rw [loadCipher, writeKeys_idle _ hb, writeChain_idle]
  exact hb

/-- One CBC block encrypted on an idle device (46_cipher.md R197, R204). -/
theorem cbcBlock_encrypt {s : State} (maps : ByteMaps) (x : Vector Byte 8) (hb : s.busy = false) :
    let c := encryptBlock Config.sbox s.key (maps.blockmap x ^^^ s.chain)
    cbcBlock maps (encode .cbcenc) x s = .ok (maps.blockmap.symm c,
      { s with blk := c, chain := c, cmd := encode .cbcenc, pending := none, done := true,
               err := .ok }) := by
  have hd : decode (encode .cbcenc) = .ok .cbcenc := by decide
  simp only [cbcBlock]
  rw [writeBlk_idle _ hb, hostCommand_idle (s := { s with blk := maps.blockmap x }) _ hb]
  simp only [perform, hd, exec, execCbcenc]
  simp only [bind, Except.bind, pure, Except.pure]
  rw [readBlk_idle rfl]
  rfl

/-- One CBC block decrypted on an idle device (46_cipher.md R198, R205). -/
theorem cbcBlock_decrypt {s : State} (maps : ByteMaps) (x : Vector Byte 8) (hb : s.busy = false) :
    let y := decryptBlock Config.sbox s.key (maps.blockmap x) ^^^ s.chain
    cbcBlock maps (encode .cbcdec) x s = .ok (maps.blockmap.symm y,
      { s with blk := y, chain := maps.blockmap x, cmd := encode .cbcdec, pending := none,
               done := true, err := .ok }) := by
  have hd : decode (encode .cbcdec) = .ok .cbcdec := by decide
  simp only [cbcBlock]
  rw [writeBlk_idle _ hb, hostCommand_idle (s := { s with blk := maps.blockmap x }) _ hb]
  simp only [perform, hd, exec, execCbcdec]
  simp only [bind, Except.bind, pure, Except.pure]
  rw [readBlk_idle rfl]
  rfl

end Sys2Proof.Machine
end

