-- ==== Sys2Proof/Laws/PerInstr.lean ====
section
/-! SUPPORT. What the word of every command looks like, instruction by instruction: its reserved
byte is 0 and its opcode byte names its row (30_encoding.md R90, R95). -/

namespace Sys2Proof.Laws

/-- The opcode of each command (30_encoding.md R95). -/
def opcode : Instr → BitVec 8
  | .nop => 0x00#8
  | .modadd _ _ _ _ => 0x01#8
  | .modsub _ _ _ _ => 0x02#8
  | .modred _ _ _ _ => 0x03#8
  | .montmul _ _ _ _ => 0x04#8
  | .tomont _ _ _ => 0x05#8
  | .frommont _ _ _ => 0x06#8
  | .modmul _ _ _ _ => 0x07#8
  | .modexp _ _ _ _ => 0x08#8
  | .modinv _ _ _ => 0x09#8
  | .ecadd _ _ _ => 0x10#8
  | .ecmul _ _ _ => 0x11#8
  | .ecchk _ _ => 0x12#8
  | .hash _ => 0x20#8
  | .keygen _ _ => 0x30#8
  | .ecdh _ _ _ => 0x31#8
  | .ecdsaSign _ _ _ _ => 0x38#8
  | .ecdsaVerify _ _ _ _ => 0x39#8
  | .benc => 0x50#8
  | .bdec => 0x51#8
  | .cbcenc => 0x52#8
  | .cbcdec => 0x53#8
  | .fround _ => 0x54#8
  | .fswap => 0x55#8
  | .keyldf _ => 0x56#8
  | .fmov _ _ => 0x70#8
  | .curvec _ _ => 0x71#8
  | .pmov _ _ => 0x72#8
  | .pldg _ => 0x73#8

def EncodeHeader.Statement (i : Instr) : Prop :=
  zField (encode i) = 0#8 ∧ opField (encode i) = opcode i

theorem EncodeHeader.nop : EncodeHeader.Statement .nop := by
  simp [EncodeHeader.Statement, encode, opcode]
theorem EncodeHeader.modadd (d s1 s2 s3 : FReg) : EncodeHeader.Statement (.modadd d s1 s2 s3) := by
  simp [EncodeHeader.Statement, encode, opcode]
theorem EncodeHeader.modsub (d s1 s2 s3 : FReg) : EncodeHeader.Statement (.modsub d s1 s2 s3) := by
  simp [EncodeHeader.Statement, encode, opcode]
theorem EncodeHeader.modred (d s1 s2 s3 : FReg) : EncodeHeader.Statement (.modred d s1 s2 s3) := by
  simp [EncodeHeader.Statement, encode, opcode]
theorem EncodeHeader.montmul (d s1 s2 s3 : FReg) : EncodeHeader.Statement (.montmul d s1 s2 s3) := by
  simp [EncodeHeader.Statement, encode, opcode]
theorem EncodeHeader.tomont (d s1 s3 : FReg) : EncodeHeader.Statement (.tomont d s1 s3) := by
  simp [EncodeHeader.Statement, encode, opcode]
theorem EncodeHeader.frommont (d s1 s3 : FReg) : EncodeHeader.Statement (.frommont d s1 s3) := by
  simp [EncodeHeader.Statement, encode, opcode]
theorem EncodeHeader.modmul (d s1 s2 s3 : FReg) : EncodeHeader.Statement (.modmul d s1 s2 s3) := by
  simp [EncodeHeader.Statement, encode, opcode]
theorem EncodeHeader.modexp (d s1 s2 s3 : FReg) : EncodeHeader.Statement (.modexp d s1 s2 s3) := by
  simp [EncodeHeader.Statement, encode, opcode]
theorem EncodeHeader.modinv (d s1 s3 : FReg) : EncodeHeader.Statement (.modinv d s1 s3) := by
  simp [EncodeHeader.Statement, encode, opcode]
theorem EncodeHeader.ecadd (d s1 s2 : PReg) : EncodeHeader.Statement (.ecadd d s1 s2) := by
  simp [EncodeHeader.Statement, encode, opcode]
theorem EncodeHeader.ecmul (d s1 : PReg) (s2 : FReg) : EncodeHeader.Statement (.ecmul d s1 s2) := by
  simp [EncodeHeader.Statement, encode, opcode]
theorem EncodeHeader.ecchk (d : FReg) (s1 : PReg) : EncodeHeader.Statement (.ecchk d s1) := by
  simp [EncodeHeader.Statement, encode, opcode]
theorem EncodeHeader.hash (d : FReg) : EncodeHeader.Statement (.hash d) := by
  simp [EncodeHeader.Statement, encode, opcode]
theorem EncodeHeader.keygen (d : PReg) (s1 : FReg) : EncodeHeader.Statement (.keygen d s1) := by
  simp [EncodeHeader.Statement, encode, opcode]
theorem EncodeHeader.ecdh (d s1 : FReg) (s2 : PReg) : EncodeHeader.Statement (.ecdh d s1 s2) := by
  simp [EncodeHeader.Statement, encode, opcode]
theorem EncodeHeader.ecdsaSign (d : FPair) (s1 s2 s3 : FReg) : EncodeHeader.Statement (.ecdsaSign d s1 s2 s3) := by
  simp [EncodeHeader.Statement, encode, opcode]
theorem EncodeHeader.ecdsaVerify (d s1 : FReg) (s2 : FPair) (s3 : PReg) : EncodeHeader.Statement (.ecdsaVerify d s1 s2 s3) := by
  simp [EncodeHeader.Statement, encode, opcode]
theorem EncodeHeader.benc : EncodeHeader.Statement .benc := by
  simp [EncodeHeader.Statement, encode, opcode]
theorem EncodeHeader.bdec : EncodeHeader.Statement .bdec := by
  simp [EncodeHeader.Statement, encode, opcode]
theorem EncodeHeader.cbcenc : EncodeHeader.Statement .cbcenc := by
  simp [EncodeHeader.Statement, encode, opcode]
theorem EncodeHeader.cbcdec : EncodeHeader.Statement .cbcdec := by
  simp [EncodeHeader.Statement, encode, opcode]
theorem EncodeHeader.fround (s1 : KIdx) : EncodeHeader.Statement (.fround s1) := by
  simp [EncodeHeader.Statement, encode, opcode]
theorem EncodeHeader.fswap : EncodeHeader.Statement .fswap := by
  simp [EncodeHeader.Statement, encode, opcode]
theorem EncodeHeader.keyldf (s1 : FReg) : EncodeHeader.Statement (.keyldf s1) := by
  simp [EncodeHeader.Statement, encode, opcode]
theorem EncodeHeader.fmov (d s1 : FReg) : EncodeHeader.Statement (.fmov d s1) := by
  simp [EncodeHeader.Statement, encode, opcode]
theorem EncodeHeader.curvec (d : FReg) (s1 : Sel) : EncodeHeader.Statement (.curvec d s1) := by
  simp [EncodeHeader.Statement, encode, opcode]
theorem EncodeHeader.pmov (d s1 : PReg) : EncodeHeader.Statement (.pmov d s1) := by
  simp [EncodeHeader.Statement, encode, opcode]
theorem EncodeHeader.pldg (d : PReg) : EncodeHeader.Statement (.pldg d) := by
  simp [EncodeHeader.Statement, encode, opcode]

end Sys2Proof.Laws
end

