-- ==== Sys2Proof/Laws/Step.lean ====
section
/-! SUPPORT. All that one step can do. -/

namespace Sys2Proof.Machine

theorem step_cases {s t : State} (h : step s = .next t) :
    (s.inputs = [] ∧ engineTurn s = .next t) ∨
    ∃ x rest, s.inputs = x :: rest ∧ takeInput x { s with inputs := rest } = .next t := by
  unfold step machineStep at h
  split at h
  · rename_i hi; exact .inl ⟨hi, h⟩
  · rename_i x rest hi; exact .inr ⟨x, rest, hi, h⟩

theorem engineTurn_cases {s t : State} (h : engineTurn s = .next t) :
    (s.pending = none ∧ t = s) ∨
    (∃ w i, s.pending = some w ∧ decode w = .ok i ∧ exec i s = .next t) ∨
    (∃ w e, s.pending = some w ∧ decode w = .error e ∧ t = s.fail .illegal) := by
  unfold engineTurn perform at h
  split at h
  · rename_i w hw
    split at h
    · rename_i i hi; exact .inr (.inl ⟨w, i, hw, hi, h⟩)
    · rename_i e he; cases h; exact .inr (.inr ⟨w, e, hw, he, rfl⟩)
  · rename_i hn; cases h; exact .inl ⟨hn, rfl⟩

theorem takeInput_cases {x : Input} {s t : State} (h : takeInput x s = .next t) :
    (∃ width off, x = .read width off ∧ busFault width off = none ∧ t = s.hostRead off) ∨
    (∃ width off v, x = .write width off v ∧ busFault width off = none ∧ t = s.hostWrite off v) ∨
    (x = .powerOn ∧ t = s.powerOnReset) ∨ (x = .engine ∧ engineTurn s = .next t) := by
  unfold takeInput at h
  split at h
  · split at h
    · cases h
    · rename_i hf; cases h; exact .inl ⟨_, _, rfl, hf, rfl⟩
  · split at h
    · cases h
    · rename_i hf; cases h; exact .inr (.inl ⟨_, _, _, rfl, hf, rfl⟩)
  · cases h; exact .inr (.inr (.inl ⟨rfl, rfl⟩))
  · exact .inr (.inr (.inr ⟨rfl, h⟩))

end Sys2Proof.Machine
end

