-- ==== Sys2Proof/Tests/Slice0.lean ====
section
/-! SUPPORT. Tests: words written out from 30_encoding.md R90 and R95, and single steps with the
expected results of 95_test_vectors.md; an id such as V-FLD-9 names the vector. -/

set_option Elab.async false

namespace Sys2Proof.Tests

open Sys2Proof.Machine Sys2Proof.Safety

/-! ## Well-formedness: a pair of 15 and a selector above 5 (30_encoding.md R96 (f), (g)) -/

theorem test_wf_sign_pair :
    (Instr.ecdsaSign 15 0 0 0).wf = false ∧ (Instr.ecdsaSign 14 0 0 0).wf = true
    ∧ decode (encode (.ecdsaSign 15 0 0 0)) = .error .pairIndex := by decide

theorem test_wf_verify_pair :
    (Instr.ecdsaVerify 0 0 15 0).wf = false ∧ (Instr.ecdsaVerify 0 0 14 0).wf = true
    ∧ decode (encode (.ecdsaVerify 0 0 15 0)) = .error .pairIndex := by decide

theorem test_wf_selector :
    (Instr.curvec 0 6).wf = false ∧ (Instr.curvec 0 5).wf = true
    ∧ decode (encode (.curvec 0 6)) = .error .selector
    ∧ decode (encode (.curvec 0 15)) = .error .selector := by decide

/-! ## Decoding: words of 95_test_vectors.md sections 2 and 3 -/

theorem test_decode_nop : decode 0x00000000#32 = .ok .nop := by decide
theorem test_decode_modadd : decode 0x00311101#32 = .ok (.modadd 1 1 1 3) := by decide
theorem test_decode_modsub : decode 0x00875902#32 = .ok (.modsub 9 5 7 8) := by decide
theorem test_decode_modred : decode 0x00321003#32 = .ok (.modred 0 1 2 3) := by decide
theorem test_decode_montmul : decode 0x00043504#32 = .ok (.montmul 5 3 4 0) := by decide
theorem test_decode_tomont : decode 0x00301005#32 = .ok (.tomont 0 1 3) := by decide
theorem test_decode_frommont : decode 0x00005606#32 = .ok (.frommont 6 5 0) := by decide
theorem test_decode_modmul : decode 0x0001BB07#32 = .ok (.modmul 11 11 1 0) := by decide
theorem test_decode_modexp : decode 0x00321008#32 = .ok (.modexp 0 1 2 3) := by decide
theorem test_decode_modinv : decode 0x00301009#32 = .ok (.modinv 0 1 3) := by decide
theorem test_decode_ecadd : decode 0x00021010#32 = .ok (.ecadd 0 1 2) := by decide
theorem test_decode_ecmul : decode 0x00040111#32 = .ok (.ecmul 1 0 4) := by decide
theorem test_decode_ecchk : decode 0x00007012#32 = .ok (.ecchk 0 7) := by decide
theorem test_decode_hash : decode 0x00000520#32 = .ok (.hash 5) := by decide
theorem test_decode_keygen : decode 0x00001030#32 = .ok (.keygen 0 1) := by decide
theorem test_decode_ecdh : decode 0x00021031#32 = .ok (.ecdh 0 1 2) := by decide
theorem test_decode_ecdsaSign : decode 0x00210438#32 = .ok (.ecdsaSign 4 0 1 2) := by decide
theorem test_decode_ecdsaVerify : decode 0x00140639#32 = .ok (.ecdsaVerify 6 0 4 1) := by decide
theorem test_decode_benc : decode 0x00000050#32 = .ok .benc := by decide
theorem test_decode_bdec : decode 0x00000051#32 = .ok .bdec := by decide
theorem test_decode_cbcenc : decode 0x00000052#32 = .ok .cbcenc := by decide
theorem test_decode_cbcdec : decode 0x00000053#32 = .ok .cbcdec := by decide
theorem test_decode_fround : decode 0x00005054#32 = .ok (.fround 5) := by decide
theorem test_decode_fswap : decode 0x00000055#32 = .ok .fswap := by decide
theorem test_decode_keyldf : decode 0x0000F056#32 = .ok (.keyldf 15) := by decide
theorem test_decode_fmov : decode 0x00009570#32 = .ok (.fmov 5 9) := by decide
theorem test_decode_curvec : decode 0x00002C71#32 = .ok (.curvec 12 2) := by decide
theorem test_decode_pmov : decode 0x00002172#32 = .ok (.pmov 1 2) := by decide
theorem test_decode_pldg : decode 0x00000373#32 = .ok (.pldg 3) := by decide

/-- The words of V-DEC-2 to V-DEC-14, V-DEC-19, V-DEC-21 and V-DEC-23 are illegal. -/
theorem test_decode_illegal :
    decode 0x00000100#32 = .error .unusedField ∧ decode 0x0000000A#32 = .error .unknownOpcode
    ∧ decode 0x01000001#32 = .error .reservedField ∧ decode 0x00000810#32 = .error .pointIndex
    ∧ decode 0x00080010#32 = .error .pointIndex ∧ decode 0x00800010#32 = .error .unusedField
    ∧ decode 0x00000F38#32 = .error .pairIndex ∧ decode 0x00F00039#32 = .error .pointIndex
    ∧ decode 0x00006071#32 = .error .selector ∧ decode 0x00008054#32 = .error .subkeyIndex
    ∧ decode 0x00100020#32 = .error .unusedField ∧ decode 0x00001050#32 = .error .unusedField
    ∧ decode 0x000000FF#32 = .error .unknownOpcode ∧ decode 0x00800131#32 = .error .unusedField
    ∧ decode 0xFFFFFFFF#32 = .error .reservedField := by decide

/-- The words that the encoder gives, against 95_test_vectors.md. -/
theorem test_encode :
    encode (.modadd 1 1 1 3) = 0x00311101#32 ∧ encode (.modinv 0 1 3) = 0x00301009#32
    ∧ encode (.ecdsaVerify 6 0 4 1) = 0x00140639#32 ∧ encode (.curvec 12 2) = 0x00002C71#32
    ∧ encode (.keyldf 15) = 0x0000F056#32 ∧ encode (.fround 5) = 0x00005054#32 := by decide

theorem test_decodeTableWord :
    decodeTableWord 32 0x00210438 = some (.ecdsaSign 4 0 1 2)
    ∧ decodeTableWord 32 0x0000000A = none := by decide

/-- A pseudo-instruction, from program 3 step 11 (30_encoding.md R101). -/
theorem test_pseudo : encode (expandPseudo (.modsqr 10 2 0)) = 0x00022A07#32
    ∧ asmText (expandPseudo (.ecdbl 0 1)) = "ECADD P0, P1, P1" := by decide

/-! ## Helpers -/

/-- The state after power-on with some field registers set. -/
def withF (l : List (FReg × Word256)) : State :=
  l.foldl (fun s x => s.setF x.1 x.2) State.reset

/-- What is seen of the state after one step that performs a word. -/
def after {α : Type} (s : State) (w : Nat) (see : State → α) : Option α :=
  match step (s.withFetchWord 32 w) with
  | .next t => some (see t)
  | .fault _ => none
  | .refused _ => none

/-- `F0` and the result code. -/
def f0 (t : State) : Word256 × ErrCode := (t.getF 0, t.err)

/-- A point with `inf = 0`. -/
def pt (x y : Nat) : Point := { inf := false, x := BitVec.ofNat 256 x, y := BitVec.ofNat 256 y }

/-- `pK` of 95_test_vectors.md. -/
def pK : Word256 := 0xFFFFFFFFFFFFFFFFFFFFFFFFFFFFFFFFFFFFFFFFFFFFFFFFFFFFFFFEFFFFFC2F#256

/-- `MX` of 95_test_vectors.md. -/
def mx : Word256 := BitVec.allOnes 256

/-! ## Field arithmetic (section 2.1) -/

/-- V-FLD-2, V-FLD-5, V-FLD-3. -/
theorem test_modadd :
    after (withF [(1, mx), (2, mx), (3, pK)]) 0x00321001 f0 = some (0x2000007a0#256, .ok)
    ∧ after (withF [(1, 5), (2, 9), (3, 8)]) 0x00321001 f0 = some (6#256, .ok)
    ∧ after (withF [(0, 4), (1, 5), (2, 9)]) 0x00321001 f0 = some (4#256, .badModulus) := by
  decide +kernel

/-- V-FLD-6, V-FLD-7, V-FLD-8. -/
theorem test_modsub :
    after (withF [(1, 3), (2, 5), (3, 7)]) 0x00321002 f0 = some (5#256, .ok)
    ∧ after (withF [(2, 1), (3, pK)]) 0x00321002 f0 = some (pK - 1#256, .ok)
    ∧ after (withF [(0, 4), (1, 3), (2, 5)]) 0x00321002 f0 = some (4#256, .badModulus) := by
  decide +kernel

/-- V-FLD-9, V-FLD-10, V-FLD-12. -/
theorem test_modred :
    after (withF [(1, 1), (3, 97)]) 0x00321003 f0 = some (61#256, .ok)
    ∧ after (withF [(1, mx), (2, mx), (3, pK)]) 0x00321003 f0
        = some (0x1000007a2000e90a0#256, .ok)
    ∧ after (withF [(1, 1)]) 0x00321003 f0 = some (0#256, .badModulus) := by
  decide +kernel

/-- V-FLD-13, V-FLD-14, V-FLD-15, V-FLD-16. -/
theorem test_montmul :
    after (withF [(1, 2), (2, 3), (3, 97)]) 0x00321004 f0 = some (16#256, .ok)
    ∧ after (withF [(1, mx), (2, mx), (3, pK)]) 0x00321004 f0
        = some (0xc9bd1905155383999c46c2c295f2b761bcb223fedc24a059d838091e08681cf9#256, .ok)
    ∧ after (withF [(1, 2), (2, 3), (3, 98)]) 0x00321004 f0 = some (0#256, .badModulus)
    ∧ after (withF [(1, 2), (2, 3), (3, 1)]) 0x00321004 f0 = some (0#256, .ok) := by
  decide +kernel

/-- V-FLD-19, V-FLD-20, V-FLD-21. -/
theorem test_tomont :
    after (withF [(1, 5), (3, 97)]) 0x00301005 f0 = some (14#256, .ok)
    ∧ after (withF [(1, 1), (3, pK)]) 0x00301005 f0 = some (0x1000003d1#256, .ok)
    ∧ after (withF [(1, 5), (3, 96)]) 0x00301005 f0 = some (0#256, .badModulus) := by
  decide +kernel

/-- V-FLD-22, V-FLD-23. -/
theorem test_frommont :
    after (withF [(1, 14), (3, 97)]) 0x00301006 f0 = some (5#256, .ok)
    ∧ after (withF [(1, 0x1000003d1), (3, pK)]) 0x00301006 f0 = some (1#256, .ok) := by
  decide +kernel

/-- V-FLD-24, V-FLD-26, and V-FLD-40 with all four operands one register. -/
theorem test_modmul :
    after (withF [(1, pK - 1), (2, pK - 1), (3, pK)]) 0x00321007 f0 = some (1#256, .ok)
    ∧ after (withF [(1, 7), (2, 8), (3, 10)]) 0x00321007 f0 = some (0#256, .badModulus)
    ∧ after (withF [(3, 7)]) 0x00333307 (fun t => (t.getF 3, t.err)) = some (0#256, .ok) := by
  decide +kernel

/-- V-FLD-28, V-FLD-29, V-FLD-31, V-FLD-32. -/
theorem test_modexp :
    after (withF [(3, 7)]) 0x00321008 f0 = some (1#256, .ok)
    ∧ after (withF [(3, 1)]) 0x00321008 f0 = some (0#256, .ok)
    ∧ after (withF [(1, 2), (2, mx), (3, pK)]) 0x00321008 f0
        = some (0x8def9a2d066170a549da6a66080937db048efe08772c8f7c20e351dfb71856e0#256, .ok)
    ∧ after (withF [(1, 3), (2, 5), (3, 4)]) 0x00321008 f0 = some (0#256, .badModulus) := by
  decide +kernel

/-- V-FLD-34, V-FLD-35, V-FLD-36, V-FLD-37. -/
theorem test_modinv :
    after (withF [(1, 2), (3, 9)]) 0x00301009 f0 = some (2#256, .ok)
    ∧ after (withF [(3, 7)]) 0x00301009 f0 = some (0#256, .ok)
    ∧ after (withF [(1, 5), (3, 1)]) 0x00301009 f0 = some (0#256, .ok)
    ∧ after (withF [(1, 2), (3, pK)]) 0x00301009 f0
        = some (0x7fffffffffffffffffffffffffffffffffffffffffffffffffffffff7ffffe18#256, .ok) := by
  decide +kernel

/-! ## The curve commands, on `TOY` (sections 2.2, 2.4, 2.5)

The device's own curve is uninterpreted, so these are about the functions its commands call. -/

/-- V-EC-1, V-EC-3, V-EC-8 (off the curve), V-EC-9, V-EC-10. -/
theorem test_ecadd :
    ecAddResult Config.toy (pt 1 28) (pt 1 28) = .ok (pt 68 81)
    ∧ ecAddResult Config.toy (pt 1 28) (pt 1 69) = .ok Point.infinity
    ∧ ecAddResult Config.toy (pt 1 28) (pt 1 29) = .ok (pt 95 69)
    ∧ ecAddResult Config.toy (pt 98 28) (pt 1 28) = .error .badOperand
    ∧ ecAddResult Config.toy { pt 98 28 with inf := true } (pt 1 28) = .ok (pt 1 28) := by
  decide +kernel

/-- V-EC-6, on the inadmissible `TOY2`: a point of order 2 doubled. -/
theorem test_ecadd_order_two :
    ecAddResult { p := 97, a := 0, b := 96, gx := 1, gy := 0, n := 0 } (pt 1 0) (pt 1 0)
      = .ok Point.infinity := by decide +kernel

/-- V-EC-11, V-EC-12, V-EC-14, V-EC-18 (off the curve), V-EC-19. -/
theorem test_ecmul :
    ecMulResult Config.toy 78 (pt 1 28) = .ok (pt 1 69)
    ∧ ecMulResult Config.toy 79 (pt 1 28) = .ok Point.infinity
    ∧ ecMulResult Config.toy mx (pt 1 28) = .ok (pt 5 61)
    ∧ ecMulResult Config.toy 3 (pt 1 29) = .ok (pt 6 38)
    ∧ ecMulResult Config.toy 3 (pt 98 28) = .error .badOperand := by
  decide +kernel

/-- V-EC-20 to V-EC-23. -/
theorem test_ecchk :
    onCurve Config.toy (pt 1 28) = true ∧ onCurve Config.toy (pt 1 29) = false
    ∧ onCurve Config.toy (pt 98 28) = false
    ∧ onCurve Config.toy { pt 5 5 with inf := true } = true := by
  decide +kernel

/-- V-ECDH-1, V-ECDH-3, V-ECDH-5, V-ECDH-6. -/
theorem test_keygen :
    keygenResult Config.toy 5 = .ok (pt 20 76) ∧ keygenResult Config.toy 78 = .ok (pt 1 69)
    ∧ keygenResult Config.toy 0 = .error .invalidScalar
    ∧ keygenResult Config.toy 79 = .error .invalidScalar := by
  decide +kernel

/-- V-ECDH-8 (the shared point is `35·G`, with x = 5), V-ECDH-10, V-ECDH-11, V-ECDH-14. -/
theorem test_ecdh (h : List Byte → Vector Byte 32) :
    ecdhResult Config.toy h 5 (pt 12 38)
        = .ok (digest h (List.replicate 31 0#8 ++ [5#8]))
    ∧ ecdhResult Config.toy h 5 Point.infinity = .error .invalidPublicKey
    ∧ ecdhResult Config.toy h 5 (pt 1 29) = .error .invalidPublicKey
    ∧ ecdhResult Config.toy h 79 (pt 12 38) = .error .degenerateSecret :=
  ⟨rfl, rfl, rfl, rfl⟩

/-- `OS2IP(SHA-256("hello"))`, the digest of 95_test_vectors.md section 2.5. -/
def helloDigest : Word256 :=
  0x2cf24dba5fb0a30e26e83b2ac5b9e29e1b161e5c1fa7425e73043362938b9824#256

/-- V-ECDSA-1, V-ECDSA-2 (s = 0), V-ECDSA-5, V-ECDSA-6, and V-ECDSA-8 on `TOY3` (r = 0). -/
theorem test_ecdsaSign :
    signResult Config.toy helloDigest 5 3 = .ok (53#256, 35#256)
    ∧ signResult Config.toy helloDigest 5 10 = .error .nonceRejected
    ∧ signResult Config.toy helloDigest 5 79 = .error .invalidScalar
    ∧ signResult Config.toy helloDigest 0 3 = .error .invalidScalar
    ∧ signResult { p := 103, a := 0, b := 5, gx := 2, gy := 42, n := 97 } 0 5 22
        = .error .nonceRejected := by
  decide +kernel

/-- V-ECDSA-10, V-ECDSA-12, V-ECDSA-14 to V-ECDSA-19. -/
theorem test_ecdsaVerify :
    verifyAccepts Config.toy helloDigest 53 35 (pt 20 76) = true
    ∧ verifyAccepts Config.toy helloDigest 53 34 (pt 20 76) = false
    ∧ verifyAccepts Config.toy helloDigest 53 79 (pt 20 76) = false
    ∧ verifyAccepts Config.toy helloDigest 53 35 Point.infinity = false
    ∧ verifyAccepts Config.toy helloDigest 53 35 (pt 1 29) = false
    ∧ verifyAccepts Config.toy helloDigest 53 35 (pt 1 28) = false
    ∧ verifyAccepts Config.toy helloDigest 53 35 (pt 12 38) = true
    ∧ verifyAccepts Config.toy 0 53 62 (pt 20 76) = true := by
  decide +kernel

/-! ## The hash (section 2.3) -/

/-- V-HASH-4: a length of 4097 is refused, and `F0` keeps its value. -/
theorem test_hash_too_long :
    after { withF [(0, 9)] with msglen := 4097#32 } 0x00000020 f0 = some (9#256, .badLength) := by
  decide +kernel

/-- V-HASH-5: with `MSGLEN = 4`, the first four bytes of "hellX" are hashed. -/
theorem test_hash_reads_the_length :
    ((State.reset.setMsgWord 0 0x6C6C6568#32).setMsgWord 1 0x00000058#32 |> fun s =>
      { s with msglen := 4#32 }.message) = [0x68#8, 0x65#8, 0x6C#8, 0x6C#8] := rfl

/-! ## The cipher, over given S-boxes (section 2.6) -/

/-- `SBOX_ID`. -/
def sboxId (_ : Fin 8) (v : BitVec 4) : BitVec 4 := v

/-- `SBOX_MAGMA`, a row as one number, entry 15 its most significant digit. -/
def sboxMagma (i : Fin 8) (v : BitVec 4) : BitVec 4 :=
  let rows : List (BitVec 64) := [0x1F307D8E9B5A264C, 0xF0DB74E1C5A93286, 0x069C471EDAF2853B,
    0xB9E35A076F4D128C, 0xC24BE390D618A5F7, 0x0E34187BAC296FD5, 0x73AD0B4FC19652E8,
    0x2BC96AF43850DE71]
  (rows.getD i 0).extractLsb' (4 * v.toNat) 4

/-- The key of V-CIPH-1. -/
def keyA : Vector Word32 8 :=
  #v[0x01234567, 0x89ABCDEF, 0xFEDCBA98, 0x76543210, 1, 2, 3, 4]

/-- The key of V-CIPH-4. -/
def keyR : Vector Word32 8 :=
  #v[0xFFEEDDCC, 0xBBAA9988, 0x77665544, 0x33221100, 0xF0F1F2F3, 0xF4F5F6F7, 0xF8F9FAFB,
    0xFCFDFEFF]

/-- 46_cipher.md R190 and the RFC 8891 chain of section 2.6. -/
theorem test_round_function :
    roundFunction sboxId 0x12345678 0 = 0xA2B3C091#32
    ∧ roundFunction sboxId 0xFFFFFFFF 1 = 0#32
    ∧ roundFunction sboxMagma 0xFEDCBA98 0x87654321 = 0xFDCBC20C#32
    ∧ roundFunction sboxMagma 0x87654321 0xFDCBC20C = 0x7E791A4B#32 := by
  decide +kernel

/-- V-CIPH-1, V-CIPH-4. -/
theorem test_benc :
    encryptBlock sboxId keyA 0x0123456789ABCDEF = 0x8DF09C762FBED255#64
    ∧ encryptBlock sboxMagma keyR 0xFEDCBA9876543210 = 0x4EE901E5C2D8CA3D#64 := by
  decide +kernel

/-- V-CIPH-2. -/
theorem test_bdec :
    decryptBlock sboxId keyA 0x8DF09C762FBED255 = 0x0123456789ABCDEF#64 := by
  decide +kernel

/-- V-CIPH-5: the block that `CBCENC` encrypts is the xor with the chain. -/
theorem test_cbcenc :
    encryptBlock sboxMagma keyR (0x92DEF06B3C130A59 ^^^ 0x1234567890ABCDEF)
      = 0x96D1B05EEA683919#64 := by
  decide +kernel

/-- V-CIPH-7. -/
theorem test_cbcdec :
    decryptBlock sboxMagma keyR 0xF396B78C1D47BB61 ^^^ 0x96D1B05EEA683919
      = 0xDB54C704F8189D20#64 := by
  decide +kernel

/-- What `CBCDEC` leaves in `CHAIN`: the ciphertext block (V-CIPH-7, for any S-boxes). -/
theorem test_cbcdec_chain :
    after { State.reset with blk := 5#64, chain := 9#64 } 0x00000053 (fun t => (t.chain, t.err))
      = some (5#64, .ok) := rfl

/-- V-CIPH-10, V-CIPH-11. -/
theorem test_fround :
    feistelRound sboxId 0x0123456789ABCDEF (keyA[0]) = 0x89ABCDEF79B9F131#64
    ∧ feistelRound sboxMagma 0x0123456789ABCDEF (keyA[0]) = 0x89ABCDEF65661F3D#64 := by
  decide +kernel

/-- V-CIPH-12. -/
theorem test_fswap :
    after { State.reset with blk := 0x0123456789ABCDEF#64 } 0x00000055 (fun t => (t.blk, t.err))
      = some (0x89ABCDEF01234567#64, .ok) := by
  decide +kernel

/-- V-CIPH-14: `KEY[0]` is the most significant word. -/
theorem test_keyldf :
    after (withF [(1, 0x96de8fc8c256fa1e1556d41af431cace7dca68707c78dd88c3acab8b17164c47#256)])
      0x00001056 (fun t => t.key)
    = some #v[0x96DE8FC8#32, 0xC256FA1E#32, 0x1556D41A#32, 0xF431CACE#32, 0x7DCA6870#32,
        0x7C78DD88#32, 0xC3ACAB8B#32, 0x17164C47#32] := by
  decide +kernel

/-- V-HOST-1, V-HOST-2, V-HOST-4: the padding of "hello" and of nothing, and a bad last byte. -/
theorem test_padding :
    pad [0x68#8, 0x65#8, 0x6C#8, 0x6C#8, 0x6F#8]
        = [0x68#8, 0x65#8, 0x6C#8, 0x6C#8, 0x6F#8, 3#8, 3#8, 3#8]
    ∧ pad [] = List.replicate 8 8#8
    ∧ unpad [0x68#8, 0x65#8, 0x6C#8, 0x6C#8, 0x6F#8, 3#8, 3#8, 3#8]
        = some [0x68#8, 0x65#8, 0x6C#8, 0x6C#8, 0x6F#8]
    ∧ unpad [0x03#8, 0xA1#8, 0x04#8, 0x2B#8, 0x7C#8, 0xA7#8, 0x0B#8, 0x3E#8] = none
    ∧ unpad [1#8, 2#8, 3#8, 4#8, 5#8, 6#8, 2#8, 3#8] = none := by
  decide +kernel

/-! ## Control and moves (section 2.7) -/

/-- V-CTL-1. -/
theorem test_nop : after (withF [(0, 5)]) 0x00000000 f0 = some (5#256, .ok) := by decide +kernel

/-- V-CTL-2 to V-CTL-7: the constants of `TOY` by selector, and none above 5. -/
theorem test_curvec :
    (List.range 6).map (fun i => curveConstantResult Config.toy (Fin.ofNat 16 i))
      = [.ok 97#256, .ok 0#256, .ok 7#256, .ok 1#256, .ok 28#256, .ok 79#256]
    ∧ curveConstantResult Config.toy 6 = .error .illegal := by
  decide +kernel

/-- V-CTL-9. -/
theorem test_fmov :
    after (withF [(1, mx)]) 0x00001070 (fun t => (t.getF 0, t.getF 1)) = some (mx, mx) := by
  decide +kernel

/-- V-CTL-10, and an off-curve source copied as it is (47_control.md R223). -/
theorem test_pmov :
    after (State.reset.setP 1 { pt 5 7 with inf := true }) 0x00001072 (fun t => t.getP 0)
        = some Point.infinity
    ∧ after (State.reset.setP 1 (pt 98 7)) 0x00001072 (fun t => t.getP 0) = some (pt 98 7) := by
  decide +kernel

/-- V-CTL-12, on `TOY`. -/
theorem test_pldg : Config.toy.base = pt 1 28 := by decide

/-! ## The register window, status and hazards (section 2.9), one step each -/

/-- What is seen of the state after one step on a host access. -/
def hostStep {α : Type} (s : State) (x : Input) (see : State → α) : Option α :=
  match step { s with inputs := [x] } with
  | .next t => some (see t)
  | .fault _ => none
  | .refused _ => none

/-- `STATUS` and `irq`. -/
def statusIrq (t : State) : Word32 × Bool := (t.statusWord, t.irq)

/-- V-MMIO-1, V-MMIO-2. -/
theorem test_read_constants :
    hostStep State.reset (.read 4 0x000) (·.answer) = some (some 0x4D4D0001#32)
    ∧ hostStep State.reset (.read 4 0x014) (·.answer) = some (some 0#32)
    ∧ hostStep State.reset (.read 4 0x344) (·.answer) = some (some 0#32)
    ∧ hostStep State.reset (.read 4 0x630) (·.answer) = some (some 0#32) := by
  decide +kernel

/-- V-MMIO-3. -/
theorem test_write_word :
    hostStep State.reset (.write 4 0x100 5) (fun t => (t.getF 0, t.statusWord))
      = some (5#256, 0#32)
    ∧ hostStep State.reset (.write 4 0x1000 0x41) (fun t => (t.msgByte 0, t.msgByte 1))
      = some (0x41#8, 0#8) := by
  decide +kernel

/-- V-MMIO-4. -/
theorem test_acceptance :
    hostStep State.reset (.write 4 0x00C 0x70) statusIrq
      = some (1#32, false) := by
  decide +kernel

/-- A device that has accepted the word 0. -/
def busyState : State := State.reset.accept 0#32

/-- V-MMIO-5, V-MMIO-6, V-MMIO-7. -/
theorem test_busy_writes :
    hostStep busyState (.write 4 0x100 7) (fun t => (t.getF 0, t.statusWord)) = some (0#256, 5#32)
    ∧ hostStep busyState (.write 4 0x00C 0x70) (fun t => (t.cmd, t.statusWord)) = some (0#32, 5#32)
    ∧ hostStep busyState (.write 4 0x004 1) statusIrq = some (1#32, false) := by
  decide +kernel

/-- V-MMIO-8: the engine performs with `IE = 1` and `HAZ = 1`. -/
theorem test_completion :
    after { State.reset with ie := true, haz := true } 0 statusIrq = some (6#32, true) := by
  decide +kernel

/-- V-MMIO-9, V-MMIO-10, V-MMIO-12. -/
theorem test_write_one_to_clear :
    hostStep { State.reset with done := true, haz := true, ie := true } (.write 4 0x008 2) statusIrq
      = some (4#32, false)
    ∧ hostStep { State.reset with haz := true } (.write 4 0x008 4) statusIrq = some (0#32, false)
    ∧ hostStep { State.reset with done := true, err := .illegal } (.write 4 0x008 2) statusIrq
      = some (0x100#32, false) := by
  decide +kernel

/-- V-MMIO-11: an illegal word at perform. -/
theorem test_illegal_word :
    after { State.reset with ie := true } 0x0000000A statusIrq = some (0x102#32, true) := by
  decide +kernel

/-- V-MMIO-16: soft reset abandons the pending command, ignores the `IE` bit written with it, and
keeps `MSGBUF`. -/
theorem test_soft_reset :
    hostStep { (busyState.setF 0 5#256).setMsgByte 0 65#8 with msglen := 5 } (.write 4 0x004 3)
      (fun t => (t.statusWord, t.ie, t.msglen, t.getF 0, t.msgByte 0))
    = some (0#32, false, 0#32, 0#256, 65#8) := by
  decide +kernel

/-- 20_memory.md R64: a 16-bit access and an unaligned one. -/
theorem test_bus_faults :
    step { State.reset with inputs := [.read 2 0x100] } = .fault .busAccess
    ∧ step { State.reset with inputs := [.write 4 0x102 0] } = .fault .busAccess
    ∧ step { State.reset with inputs := [.read 4 0x2000] } = .fault .outsideWindow :=
  ⟨rfl, rfl, rfl⟩

/-! ## Witnesses: for each statement with hypotheses, a state and operands that meet them

`test_hyp_<Name>` belongs to the statement `Obligations.<Name>`. The device's curve is uninterpreted:
where a clause needs to know its points, the witness is a state of a device whose curve is `TOY`. -/

theorem test_hyp_DecodeEncodeRoundTrip :
    (Instr.ecdsaSign 14 15 15 15).wf = true ∧ (Instr.curvec 15 5).wf = true
    ∧ (Instr.ecdsaVerify 15 15 14 7).wf = true := by decide

theorem test_hyp_DecodedCommandReencodes :
    decode 0x00210438#32 = .ok (.ecdsaSign 4 0 1 2) := by decide

/-- A pending illegal word, and a pending legal one. -/
theorem test_hyp_IllegalWordFails :
    (State.reset.accept 0x0A).pending = some 0x0A#32 ∧ ¬ LegalWord 0x0A
    ∧ (State.reset.accept 0x000E0039).pending = some 0x000E0039#32 ∧ LegalWord 0x000E0039 := by
  unfold LegalWord
  decide +kernel

theorem test_hyp_StepRunsTheDecodedCommand :
    busyState.pending = some 0#32 ∧ decode 0#32 = .ok .nop ∧ busyState.inputs = []
    ∧ ({ busyState with inputs := [.engine] } : State).inputs = .engine :: [] := by
  exact ⟨rfl, by decide, rfl, rfl⟩

/-- The clauses of `ModaddReducesTheSum`, `ModsubReducesTheDifference` and
`ModredReducesTheDoubleWidthValue`, at the moduli 0, 1 and `MX`. -/
theorem test_hyp_reducer_class :
    (State.reset.getF 3).toNat = 0 ∧ ((withF [(3, 1)]).getF 3).toNat ≠ 0
    ∧ ((withF [(3, mx)]).getF 3).toNat ≠ 0 := by decide +kernel

/-- The clauses of `MontmulIsTheMontgomeryProduct`, `TomontMultipliesByTheRadix`,
`FrommontDividesByTheRadix`, `ModmulReducesTheProduct` and `ModexpReducesThePower`. -/
theorem test_hyp_montgomery_class :
    (State.reset.getF 3).toNat % 2 = 0 ∧ ((withF [(3, mx - 1)]).getF 3).toNat % 2 = 0
    ∧ ((withF [(3, 1)]).getF 3).toNat % 2 = 1 ∧ ((withF [(3, mx)]).getF 3).toNat % 2 = 1 := by
  decide +kernel

/-- The clauses of `ModinvIsFermatExponentiation`: m = 1; an operand 0 modulo m; m prime. -/
theorem test_hyp_ModinvIsFermatExponentiation :
    ((withF [(3, 1)]).getF 3).toNat = 1
    ∧ ((withF [(1, 14), (3, 7)]).getF 3).toNat % 2 = 1
    ∧ ((withF [(1, 14), (3, 7)]).getF 3).toNat ≠ 1
    ∧ ((withF [(1, 14), (3, 7)]).getF 1).toNat % ((withF [(1, 14), (3, 7)]).getF 3).toNat = 0
    ∧ ((withF [(1, 3), (3, 7)]).getF 3).toNat.Prime
    ∧ ((withF [(1, 3), (3, 7)]).getF 1).toNat % ((withF [(1, 3), (3, 7)]).getF 3).toNat ≠ 0 := by
  refine ⟨by decide +kernel, by decide +kernel, by decide +kernel, by decide +kernel, ?_,
    by decide +kernel⟩
  have : ((withF [(1, 3), (3, 7)]).getF 3).toNat = 7 := by decide +kernel
  rw [this]
  norm_num

theorem test_hyp_MontgomeryLaws :
    (3#256).toNat % 2 = 1 ∧ 3 ≤ (3#256).toNat ∧ mx.toNat % 2 = 1 ∧ 3 ≤ mx.toNat := by decide +kernel

/-- Each clause of `PointAddFollowsChordAndTangent`: an Infinity on either side, a point and its
negation, a point with itself, two abscissas, and one abscissa with unrelated ordinates. -/
theorem test_hyp_PointAddFollowsChordAndTangent :
    Config.Admissible Config.toy ∧ isFieldPoint Config.toy (pt 1 28) = true
    ∧ isFieldPoint Config.toy (pt 96 96) = true ∧ isFieldPoint Config.toy Point.infinity = true
    ∧ ((pt 1 28).x = (pt 1 69).x ∧ ((pt 1 28).y.toNat + (pt 1 69).y.toNat) % Config.toy.p = 0)
    ∧ ((pt 1 28).y.toNat + (pt 1 28).y.toNat) % Config.toy.p ≠ 0
    ∧ (pt 1 28).x ≠ (pt 68 81).x
    ∧ ((pt 1 28).x = (pt 1 29).x ∧ (pt 1 28).y ≠ (pt 1 29).y
      ∧ ((pt 1 28).y.toNat + (pt 1 29).y.toNat) % Config.toy.p ≠ 0) :=
  ⟨Config.toy_admissible, by decide +kernel⟩

theorem test_hyp_ScalarMultIsDoubleAndAdd :
    Config.Admissible Config.toy ∧ isFieldPoint Config.toy (pt 1 28) = true
    ∧ 2 ^ 256 - 1 < 2 ^ 256 ∧ (2 ^ 256 - 1) % Config.toy.n ≠ 0 ∧ 79 % Config.toy.n = 0 :=
  ⟨Config.toy_admissible, by decide +kernel⟩

/-- The clauses of `EcaddAddsFieldPoints` and `EcmulMultipliesFieldPoints`, on the device's curve:
coordinates of `MX` are out of its field, and the base point is in it. -/
theorem test_hyp_field_points :
    (({ inf := false, x := mx, y := 0 } : Point).inf = false ∧ Config.curve.p ≤ mx.toNat)
    ∧ Config.curve.base.inf = false ∧ Config.curve.base.x.toNat < Config.curve.p
    ∧ Config.curve.base.y.toNat < Config.curve.p ∧ Point.infinity.inf = true := by
  have hc := Config.curve_admissible
  have hm : mx.toNat = 2 ^ 256 - 1 := by decide +kernel
  have h1 := hc.p_lt
  have h2 := hc.gx_lt
  have h3 := hc.gy_lt
  refine ⟨⟨rfl, by omega⟩, rfl, ?_, ?_, rfl⟩
  · simp only [Curve.base, BitVec.toNat_ofNat]; omega
  · simp only [Curve.base, BitVec.toNat_ofNat]; omega

theorem test_hyp_GroupLaws :
    Config.Admissible Config.toy ∧ Generated Config.toy (pt 1 28)
    ∧ Generated Config.toy (pt 1 69) ∧ Generated Config.toy Point.infinity :=
  ⟨Config.toy_admissible, ⟨1, by decide +kernel⟩, ⟨78, by decide +kernel⟩, ⟨79, by decide +kernel⟩⟩

theorem test_hyp_HashWritesTheDigest :
    4096 < ({ State.reset with msglen := 4097 } : State).msglen.toNat
    ∧ ({ State.reset with msglen := 4096 } : State).msglen.toNat ≤ 4096
    ∧ State.reset.msglen.toNat ≤ 4096 := by decide +kernel

/-- Two buffers that agree in the first byte, with `MSGLEN = 1`, and differ in the second. -/
theorem test_hyp_NoCommandReadsFurtherMessageBytes :
    let s : State := { State.reset with mem := [(0x1000, 5)], msglen := 1 }
    ∀ j < s.msglen.toNat,
      ({ s with mem := [(0x1000, 5), (0x1001, 7)], epoch := 1 } : State).msgByte j = s.msgByte j := by
  intro s j hj
  have hs : s.msglen.toNat = 1 := rfl
  have : j = 0 := by omega
  subst this
  rfl

/-- A state whose `F1` holds the scalar `k` and whose `P1` holds `k·G`. -/
def keyPair (k : Nat) : State :=
  (State.reset.setF 1 (BitVec.ofNat 256 k)).setP 1 (scalarMult Config.curve k Config.curve.base)

/-- The clauses of `KeygenMultipliesTheBasePoint` and of `KeygenSucceedsInRange` with the scalars 0, 1
and `MX`. The clause of `KEYGEN_CHECK_FAILED` is met by no admissible curve (95_test_vectors.md
section 2.4); it is met by the inadmissible one below. -/
theorem test_hyp_keygen :
    (State.reset.getF 1).toNat < 1 ∧ Config.curve.n - 1 < ((withF [(1, mx)]).getF 1).toNat
    ∧ 1 ≤ ((keyPair 1).getF 1).toNat ∧ ((keyPair 1).getF 1).toNat ≤ Config.curve.n - 1
    ∧ (scalarMult Config.curve ((keyPair 1).getF 1).toNat Config.curve.base).inf = false
    ∧ onCurve Config.curve
        (scalarMult Config.curve ((keyPair 1).getF 1).toNat Config.curve.base) = true
    ∧ keygenResult { Config.toy with gy := 29 } 1 = .error .keygenCheckFailed := by
  have hc := Config.curve_admissible
  have h1 : ((keyPair 1).getF 1).toNat = 1 := by rfl
  have hm : ((withF [(1, mx)]).getF 1).toNat = 2 ^ 256 - 1 := by decide +kernel
  have h3 := hc.n_ge
  have hl := hc.n_lt
  rw [h1, hm, scalarMult_one_base hc]
  exact ⟨by decide +kernel, by omega, by omega, by omega, rfl, hc.base_onCurve, by decide +kernel⟩

/-- The clauses of `EcdhDerivesTheSharedKey`: an Infinity, a point out of the field, the scalars 0 and
1 with the base point. -/
theorem test_hyp_EcdhDerivesTheSharedKey :
    (State.reset.getP 1).inf = true
    ∧ onCurve Config.curve { inf := false, x := mx, y := 0 } = false
    ∧ onCurve Config.curve Config.curve.base = true ∧ Config.curve.base.inf = false
    ∧ (scalarMult Config.curve (State.reset.getF 1).toNat Config.curve.base).inf = true
    ∧ (scalarMult Config.curve ((keyPair 1).getF 1).toNat Config.curve.base).inf = false := by
  have hc := Config.curve_admissible
  have h0 : (State.reset.getF 1).toNat = 0 := by decide +kernel
  have h1 : ((keyPair 1).getF 1).toNat = 1 := by rfl
  refine ⟨by decide +kernel, ?_, hc.base_onCurve, rfl, ?_, ?_⟩
  · have hp := test_hyp_field_points.1.2
    simp [onCurve, hp]
  · rw [h0, scalarMult, if_pos (Or.inl (Nat.zero_mod _))]
    rfl
  · rw [h1, scalarMult_one_base hc]
    rfl

/-- `EcdhCommutes` with both private scalars 1. -/
theorem test_hyp_EcdhCommutes :
    1 ≤ ((keyPair 1).getF 1).toNat ∧ ((keyPair 1).getF 1).toNat ≤ Config.curve.n - 1
    ∧ (keyPair 1).getP 1 = scalarMult Config.curve ((keyPair 1).getF 1).toNat Config.curve.base := by
  have h1 : ((keyPair 1).getF 1).toNat = 1 := by rfl
  have h3 := Config.curve_admissible.n_ge
  rw [h1]
  exact ⟨by omega, by omega, rfl⟩

/-- The clauses of `EcdsaSignMakesOneAttempt` for the pair `F4:F5`, in a device whose curve is `TOY`:
a scalar out of range; the nonce 10, where s = 0; the nonce 3, which signs (V-ECDSA-1, V-ECDSA-2). -/
theorem test_hyp_EcdsaSignMakesOneAttempt (hc : Config.curve = Config.toy) :
    (5 : FReg).val = (4 : FReg).val + 1
    ∧ signResult Config.curve 0 0 3 = .error .invalidScalar
    ∧ (signResult Config.curve helloDigest 5 10 = .error .nonceRejected
      ∧ (scalarMult Config.curve 10 Config.curve.base).inf = false
      ∧ (scalarMult Config.curve 10 Config.curve.base).x.toNat % Config.curve.n ≠ 0)
    ∧ signResult Config.curve helloDigest 5 3 = .ok (53#256, 35#256) := by
  rw [hc]
  decide +kernel

theorem test_hyp_EcdsaVerifyDecides : (15 : FReg).val = (14 : FReg).val + 1 := by decide

/-- `SignThenVerifyAccepts`: the computations on `TOY`; and in a device whose curve is `TOY` a state
that signs, with a later state that keeps the operands and holds the public point. -/
theorem test_hyp_SignThenVerifyAccepts :
    (Config.Admissible Config.toy ∧ signResult Config.toy helloDigest 5 3 = .ok (53#256, 35#256))
    ∧ (Config.curve = Config.toy →
      let s := withF [(0, helloDigest), (1, 5), (2, 3)]
      ∃ t, exec (.ecdsaSign 4 0 1 2) s = .next t ∧ t.err = .ok
        ∧ let u := t.setP 1 (pt 20 76)
          u.getF 4 = t.getF 4 ∧ u.getF 5 = t.getF 5 ∧ u.getF 0 = s.getF 0
          ∧ u.getP 1 = scalarMult Config.curve (s.getF 1).toNat Config.curve.base) := by
  refine ⟨⟨Config.toy_admissible, by decide +kernel⟩, fun hc => ⟨_, rfl, ?_⟩⟩
  rw [hc]
  decide +kernel

/-- Four bytes as a word, the first the most significant. -/
def join4 (b : Fin 4 → Byte) : Word32 := b 0 ++ b 1 ++ b 2 ++ b 3

/-- Byte `l` of a word, the first the most significant. -/
def lane4 (w : Word32) (l : Fin 4) : Byte := w.extractLsb' (8 * (3 - l.val)) 8

theorem lane4_join4 (b : Fin 4 → Byte) (l : Fin 4) : lane4 (join4 b) l = b l := by
  have h := extractLsb'_joinBytes (b 0) (b 1) (b 2) (b 3) ⟨3 - l.val, by omega⟩
  exact h.trans (by fin_cases l <;> rfl)

theorem join4_lane4 (w : Word32) : join4 (lane4 w) = w := by
  apply BitVec.eq_of_getLsbD_eq
  intro i hi
  rw [show (join4 (lane4 w)).getLsbD i = _ from getLsbD_joinBytes _ _ _ _ i]
  simp only [lane4, BitVec.getLsbD_extractLsb']
  split
  · simp [*]
  split
  · simp [show i - 8 < 8 by omega, show 8 + (i - 8) = i by omega]
  split
  · simp [show i - 16 < 8 by omega, show 16 + (i - 16) = i by omega]
  · simp [show i - 24 < 8 by omega, show 24 + (i - 24) = i by omega]

/-- The candidate pair of byte maps of 46_cipher.md R202, both big-endian. -/
def bigEndianMaps : ByteMaps where
  keymap :=
    { toFun := fun k => Vector.ofFn fun i : Fin 8 => join4 fun l => k[4 * i.val + l.val]
      invFun := fun w => Vector.ofFn fun j : Fin 32 => lane4 (w[j.val / 4]) ⟨j.val % 4, by omega⟩
      left_inv := by
        intro k
        apply Vector.ext
        intro j hj
        simp only [Vector.getElem_ofFn, lane4_join4]
        congr 1
        omega
      right_inv := by
        intro w
        apply Vector.ext
        intro i hi
        simp only [Vector.getElem_ofFn]
        rw [← join4_lane4 w[i]]
        congr 1
        funext l
        have h1 : (4 * i + l.val) / 4 = i := by omega
        have h2 : (4 * i + l.val) % 4 = l.val := by omega
        simp only [h1, h2] }
  blockmap :=
    { toFun := fun x => joinHalves (join4 ![x[0], x[1], x[2], x[3]]) (join4 ![x[4], x[5], x[6], x[7]])
      invFun := fun b =>
        let l := lane4 (leftHalf b)
        let r := lane4 (rightHalf b)
        #v[l 0, l 1, l 2, l 3, r 0, r 1, r 2, r 3]
      left_inv := by
        intro x
        simp only [leftHalf_joinHalves, rightHalf_joinHalves, lane4_join4]
        apply Vector.ext
        intro j hj
        interval_cases j <;> rfl
      right_inv := by
        intro b
        have h : ∀ w : Word32, join4 ![lane4 w 0, lane4 w 1, lane4 w 2, lane4 w 3] = w := by
          intro w
          have e : ![lane4 w 0, lane4 w 1, lane4 w 2, lane4 w 3] = lane4 w := by
            funext l
            fin_cases l <;> rfl
          rw [e, join4_lane4]
        show joinHalves (join4 ![lane4 (leftHalf b) 0, lane4 (leftHalf b) 1, lane4 (leftHalf b) 2,
          lane4 (leftHalf b) 3]) (join4 ![lane4 (rightHalf b) 0, lane4 (rightHalf b) 1,
          lane4 (rightHalf b) 2, lane4 (rightHalf b) 3]) = b
        rw [h, h, joinHalves_halves] }

/-- The pair on the key and the IV of V-HOST-1. -/
theorem test_bigEndianMaps :
    bigEndianMaps.blockmap #v[0x12, 0x34, 0x56, 0x78, 0x90, 0xAB, 0xCD, 0xEF] = 0x1234567890ABCDEF#64
    ∧ (bigEndianMaps.keymap.symm keyR)[0] = 0xFF#8
    ∧ (bigEndianMaps.keymap.symm keyR)[3] = 0xCC#8 := by
  decide +kernel

/-- `CipherRoundTrip`: an idle device; the byte maps, a key, an IV and "hello" are the ones above. -/
theorem test_hyp_CipherRoundTrip : State.reset.busy = false := by decide

/-- The clauses of `NopOnlyCompletes`: the word 0, and a word with `op` 0 that is not 0. -/
theorem test_hyp_NopOnlyCompletes :
    decode 0#32 = .ok .nop ∧ (0x100#32).extractLsb' 0 8 = 0#8 ∧ 0x100#32 ≠ 0#32 := by decide

theorem test_hyp_CurveConstantsAreLoaded :
    (0 : Sel).val < 6 ∧ (5 : Sel).val < 6 ∧ 6 ≤ (6 : Sel).val ∧ 6 ≤ (15 : Sel).val := by decide

theorem test_hyp_MovesCopyRegisters :
    (State.reset.getP 1).inf = true ∧ ((State.reset.setP 1 (pt 98 7)).getP 1).inf = false := by
  decide +kernel

/-! ### The machine's statements -/

/-- `StepKeepsTheInvariant`: a state with a command pending and a byte written, and its step. -/
theorem test_hyp_StepKeepsTheInvariant :
    Inv (busyState.setMsgByte 0 65#8) ∧ ∃ t, step (busyState.setMsgByte 0 65#8) = .next t := by
  refine ⟨⟨State.setMsgByte_wf _ Memory.wf_nil (by omega), ?_⟩, _, rfl⟩
  intro w hw
  cases hw
  exact ⟨rfl, rfl, rfl⟩

theorem test_hyp_CtrlWriteResetsOrStoresIe :
    (2#32).getLsbD 1 = true ∧ (3#32).getLsbD 1 = true ∧ (0#32).getLsbD 1 = false
    ∧ (1#32).getLsbD 1 = false := by decide

/-- `CTRL` reads `IE` in bit 0, busy or not (10_state.md R31, 70_reset_and_hazards.md R270). -/
theorem test_ctrl_reads_ie :
    ({ State.reset with ie := true } : State).hostReadValue 0x004 = 1#32
    ∧ ({ busyState with ie := true } : State).hostReadValue 0x004 = 1#32
    ∧ busyState.hostReadValue 0x004 = 0#32 := by decide

/-- `ResetConsequences`: the three states it speaks of, the last two after a busy one. -/
theorem test_hyp_ResetConsequences :
    ∀ r ∈ [State.reset, busyState.softReset, busyState.powerOnReset], r.busy = false := by decide

/-- `OnlyPerformOrResetEndsACommand`: a pending command ended in each of the four ways. -/
theorem test_hyp_OnlyPerformOrResetEndsACommand :
    ∀ l ∈ [[], [.engine], [.powerOn], [.write 4 0x004 2#32]],
      ∃ t, step { busyState with inputs := l } = .next t
        ∧ ({ busyState with inputs := l } : State).pending = some 0#32 ∧ t.pending ≠ some 0#32 := by
  intro l hl
  simp only [List.mem_cons, List.not_mem_nil, or_false] at hl
  rcases hl with rfl | rfl | rfl | rfl <;> exact ⟨_, rfl, rfl, by decide⟩

/-- `PendingCommandEndsInBoundedSteps`: a busy device with a read and a write waiting. -/
theorem test_hyp_PendingCommandEndsInBoundedSteps :
    ({ busyState with inputs := [.read 4 0x008, .write 4 0x100 7] } : State).busy = true
    ∧ ∀ x ∈ [Input.read 4 0x008, .write 4 0x100 7], Safety.Input.Defined x := by
  refine ⟨by decide, fun x hx => ?_⟩
  simp only [List.mem_cons, List.not_mem_nil, or_false] at hx
  rcases hx with rfl | rfl <;> (unfold Safety.Input.Defined DefinedAccess; decide)

/-- The idle and the busy states of the window's statements: `CmdHoldsTheAcceptedCommand`,
`FieldRegisterWords`, `PointRegisterWords`, `CipherRegisterWords`, `MessageBufferLanes`,
`ReadsHaveNoSideEffects`. -/
theorem test_hyp_idle_and_busy : State.reset.busy = false ∧ busyState.busy = true := by decide

/-- The reserved words of a point register in `PointRegisterWords`, the first and the last. -/
theorem test_hyp_PointRegisterWords :
    (0x44 ≤ 0x44 ∧ 0x44 < 0x60 ∧ 0x44 % 4 = 0) ∧ (0x44 ≤ 0x5C ∧ 0x5C < 0x60 ∧ 0x5C % 4 = 0) := by
  decide

/-- `BusyWritesAreDropped`: data offsets at both ends of every range; and a step with `HAZ` set. -/
theorem test_hyp_BusyWritesAreDropped :
    (∀ off ∈ [0x010, 0x100, 0x2FC, 0x300, 0x340, 0x5E0, 0x600, 0x62C, 0x1000, 0x1FFC],
      DataOffset off)
    ∧ (∀ off ∈ [0x000, 0x014, 0x0FC, 0x344, 0x5FC, 0x630, 0xFFC], ¬ DataOffset off)
    ∧ ∃ t, step { State.reset with haz := true } = .next t := by
  unfold DataOffset
  exact ⟨by decide, by decide, _, rfl⟩

/-- `ReadsHaveNoSideEffects`: the first and the last offset, and one that is no data register. -/
theorem test_hyp_ReadsHaveNoSideEffects :
    DefinedAccess 4 0x000 ∧ DefinedAccess 4 0x1FFC ∧ DefinedAccess 4 0x008 ∧ ¬ DataOffset 0x008 := by
  unfold DefinedAccess DataOffset
  decide

/-- `ReservedOffsetsAndBits`: both ends of every reserved range. -/
theorem test_hyp_ReservedOffsetsAndBits :
    ∀ off ∈ [0x014, 0x0FC, 0x344, 0x35C, 0x5E4, 0x5FC, 0x630, 0xFFC], ReservedOffset off := by
  unfold ReservedOffset
  decide

/-- `StepFaultsExactlyOnUndefinedAccesses`: a defined access waiting; a wrong width, a wrong
alignment, and the first offset beyond the window. -/
theorem test_hyp_StepFaultsExactlyOnUndefinedAccesses :
    Safety.Input.Defined (.read 4 0x1FFC) ∧ Safety.Input.Defined .powerOn
    ∧ ((8 : Nat) ≠ 4 ∨ 0x100 % 4 ≠ 0) ∧ ((4 : Nat) ≠ 4 ∨ 0x101 % 4 ≠ 0)
    ∧ (4 = 4 ∧ 0x2000 % 4 = 0 ∧ 0x2000 ≤ 0x2000) := by
  unfold Safety.Input.Defined DefinedAccess
  decide

/-- The clauses of `EveryCommandCompletesAndWritesOnlyItsRegisters`: registers and kinds that a command
does not write, and a command that reports an error. -/
theorem test_hyp_EveryCommandCompletesAndWritesOnlyItsRegisters :
    (6 : FReg) ∉ fieldDests (.ecdsaSign 4 0 1 2) ∧ (1 : PReg) ∉ pointDests (.pldg 0)
    ∧ writesKey .benc = false ∧ writesBlk (.keyldf 0) = false ∧ writesChain .benc = false
    ∧ ∃ t, exec (.modadd 0 0 0 0) State.reset = .next t ∧ t.err ≠ .ok :=
  ⟨by decide, by decide, rfl, rfl, rfl, _, rfl, by decide⟩

/-- `IrqFollowsDoneAndEnable`: `irq` rises on a completion, and on a `CTRL` write. -/
theorem test_hyp_IrqFollowsDoneAndEnable :
    (∃ t, step { busyState with ie := true } = .next t
      ∧ ({ busyState with ie := true } : State).irq = false ∧ t.irq = true)
    ∧ (∃ t, step { State.reset with done := true, inputs := [.write 4 0x004 1#32] } = .next t
      ∧ ({ State.reset with done := true, inputs := [.write 4 0x004 1#32] } : State).irq = false
      ∧ t.irq = true)
    ∧ busyState.pending = some 0#32 ∧ ∃ t, engineTurn busyState = .next t :=
  ⟨⟨_, rfl, rfl, rfl⟩, ⟨_, rfl, rfl, rfl⟩, rfl, _, rfl⟩

end Sys2Proof.Tests
end

section
/-! PROOFS, rules of the turns. Which function of the model a step, an engine's turn and a defined
host access are (10_state.md R42, 20_memory.md R64). -/

namespace Sys2Proof.Machine

/-- `BUSY` is 0 exactly while nothing is pending (10_state.md R39). -/
theorem State.busy_eq_false_iff {s : State} : s.busy = false ↔ s.pending = none := by
  simp [State.busy]

/-- With nothing from outside waiting, the engine has its turn. -/
theorem step_of_inputs_nil {s : State} (h : s.inputs = []) : step s = engineTurn s := by
  simp only [step, machineStep, h]

/-- The next item from outside is taken off the list and acts. -/
theorem step_of_inputs_cons {s : State} {x : Input} {rest : List Input}
    (h : s.inputs = x :: rest) : step s = takeInput x { s with inputs := rest } := by
  simp only [step, machineStep, h]

@[simp] theorem takeInput_engine (s : State) : takeInput .engine s = engineTurn s := rfl

@[simp] theorem takeInput_powerOn (s : State) : takeInput .powerOn s = .next s.powerOnReset := rfl

/-- A pending legal word is performed by the meaning of its command. -/
theorem engineTurn_of_decode {s : State} {w : Word32} {i : Instr} (hp : s.pending = some w)
    (hd : decode w = .ok i) : engineTurn s = exec i s := by
  simp only [engineTurn, perform, hp, hd]

/-- A read at a defined offset is `hostRead` (20_memory.md R64). -/
theorem takeInput_read {off : Nat} (h : busFault 4 off = none) (s : State) :
    takeInput (.read 4 off) s = .next (s.hostRead off) := by
  simp only [takeInput, h]

theorem takeInput_write_ctrl (v : Word32) (s : State) :
    takeInput (.write 4 0x004 v) s = .next (s.writeCtrl v) := rfl

theorem takeInput_write_status (v : Word32) (s : State) :
    takeInput (.write 4 0x008 v) s = .next (s.writeStatus v) := rfl

theorem takeInput_write_cmd (w : Word32) (s : State) :
    takeInput (.write 4 0x00C w) s
      = .next (if s.busy then { s with haz := true } else s.accept w) := rfl

/-- A word that is no data register reads its defined value, busy or not
(70_reset_and_hazards.md R270). -/
theorem State.hostReadValue_control {off : Nat} (h : (locate off).isData = false) (s : State) :
    s.hostReadValue off = s.readTarget (locate off) := by
  simp [State.hostReadValue, h]

/-- What a read of a control or status register returns, busy or not. -/
theorem takeInput_read_control {off : Nat} (hf : busFault 4 off = none)
    (hd : (locate off).isData = false) (s : State) :
    ∃ t, takeInput (.read 4 off) s = .next t ∧ t.answer = some (s.readTarget (locate off)) :=
  ⟨_, takeInput_read hf s, by rw [State.hostRead_answer, State.hostReadValue_control hd]⟩

/-- Settles O6: an engine's turn with a legal word pending, either way the turn comes. -/
theorem stepRunsTheDecodedCommand : Obligations.StepRunsTheDecodedCommand := by
  intro s w i hp hd
  refine ⟨fun hnil => ?_, fun rest hcons => ?_⟩
  · rw [step_of_inputs_nil hnil, engineTurn_of_decode hp hd]
  · have hp' : ({ s with inputs := rest } : State).pending = some w := hp
    rw [step_of_inputs_cons hcons, takeInput_engine, engineTurn_of_decode hp' hd]

/-- A store of a data register's word leaves the pending command alone. -/
@[simp] theorem State.storeTarget_pending (s : State) (v : Word32) (t : Target) :
    (s.storeTarget v t).pending = s.pending := by
  cases t <;> rfl

end Sys2Proof.Machine
end

section
/-! PROOFS, the end of a command. What every command does at its end: it completes, it writes at
most its destinations, and with an error it writes nothing (10_state.md R36, R42;
60_exceptions.md R232). -/

namespace Sys2Proof.Machine

open Sys2Proof.Safety

/-- `t` is an end of the command `i` begun in `s` that the frame rules allow. -/
structure EndsWithin (i : Instr) (s t : State) : Prop where
  busy : t.busy = false
  done : t.done = true
  untouched : Untouched s t
  field : ∀ r, r ∉ fieldDests i → t.getF r = s.getF r
  point : ∀ r, r ∉ pointDests i → t.getP r = s.getP r
  key : writesKey i = false → t.key = s.key
  blk : writesBlk i = false → t.blk = s.blk
  chain : writesChain i = false → t.chain = s.chain
  error : t.err ≠ .ok → Fails t.err s t

namespace EndsWithin

variable {i : Instr} (s : State)

/-- Completion alone, with any code, is an end of every command. -/
theorem complete (code : ErrCode) : EndsWithin i s (s.complete code) where
  busy := rfl
  done := rfl
  untouched := untouched_complete s code
  field _ _ := rfl
  point _ _ := rfl
  key _ := rfl
  blk _ := rfl
  chain _ := rfl
  error _ := fails_fail s code

/-- A success that leaves the cipher registers alone. -/
theorem of_ok {s t : State} (hc : Completed .ok t) (hu : Untouched s t) (hs : SameCipher s t)
    (hf : ∀ r, r ∉ fieldDests i → t.getF r = s.getF r)
    (hp : ∀ r, r ∉ pointDests i → t.getP r = s.getP r) : EndsWithin i s t := by
  obtain ⟨hbusy, -, hdone, herr⟩ := hc
  obtain ⟨hkey, hblk, hchain⟩ := hs
  exact ⟨hbusy, hdone, hu, hf, hp, fun _ => hkey, fun _ => hblk, fun _ => hchain,
    fun he => absurd herr he⟩

theorem of_writesF {s t : State} {d : FReg} {v : Word256} (hd : d ∈ fieldDests i)
    (h : WritesF d v s t) : EndsWithin i s t := by
  obtain ⟨hc, hu, hs, hf, hp⟩ := h
  refine of_ok hc hu hs (fun r hr => ?_) fun r _ => hp r
  rw [hf, if_neg (ne_of_mem_of_not_mem hd hr).symm]

theorem of_writesTwoF {s t : State} {d d' : FReg} {v v' : Word256} (hd : d ∈ fieldDests i)
    (hd' : d' ∈ fieldDests i) (h : WritesTwoF d d' v v' s t) : EndsWithin i s t := by
  obtain ⟨hc, hu, hs, hf, hp⟩ := h
  refine of_ok hc hu hs (fun r hr => ?_) fun r _ => hp r
  rw [hf, if_neg (ne_of_mem_of_not_mem hd hr).symm, if_neg (ne_of_mem_of_not_mem hd' hr).symm]

theorem of_writesP {s t : State} {d : PReg} {Q : Point} (hd : d ∈ pointDests i)
    (h : WritesP d Q s t) : EndsWithin i s t := by
  obtain ⟨hc, hu, hs, hf, hp⟩ := h
  refine of_ok hc hu hs (fun r _ => hf r) fun r hr => ?_
  rw [hp, if_neg (ne_of_mem_of_not_mem hd hr).symm]

/-- A command that writes one field register, or fails. -/
theorem commitF {d : FReg} (hd : d ∈ fieldDests i) (r : Except ErrCode Word256) :
    EndsWithin i s (s.commitF d r) := by
  rcases s.commitF_cases d r with ⟨v, -, h⟩ | ⟨code, -, h⟩
  · rw [h]; exact of_writesF hd (writesF_setF s d v)
  · rw [h]; exact complete s code

/-- A command that writes one point register, or fails. -/
theorem commitP {d : PReg} (hd : d ∈ pointDests i) (r : Except ErrCode Point) :
    EndsWithin i s (s.commitP d r) := by
  rcases s.commitP_cases d r with ⟨Q, -, h⟩ | ⟨code, -, h⟩
  · rw [h]; exact of_writesP hd (writesP_setP s d Q)
  · rw [h]; exact complete s code

/-- A command that writes a well-formed pair of field registers, or fails. -/
theorem commitPair {d : FPair} (hok : FPair.ok d = true) (hd : d ∈ fieldDests i)
    (hd' : pairSecond d ∈ fieldDests i) (r : Except ErrCode (Word256 × Word256)) :
    EndsWithin i s (s.commitPair d r) := by
  rcases s.commitPair_cases d r with ⟨v, v', -, h⟩ | ⟨code, -, h⟩
  · rw [h]; exact of_writesTwoF hd hd' (writesTwoF_setF s v v' (pairSecond_ne hok).symm)
  · rw [h]; exact complete s code

/-- A command of the cipher: it leaves each of `KEY`, `BLK` and `CHAIN` alone that it does not
write. -/
theorem cipher {key : Vector Word32 8} {blk chain : Block} (hk : writesKey i = false → key = s.key)
    (hb : writesBlk i = false → blk = s.blk) (hc : writesChain i = false → chain = s.chain) :
    EndsWithin i s ({ s with key := key, blk := blk, chain := chain }.complete .ok) where
  busy := rfl
  done := rfl
  untouched := by obtain ⟨-, huntouched, -⟩ := writesCipher_set s key blk chain; exact huntouched
  field _ _ := rfl
  point _ _ := rfl
  key := hk
  blk := hb
  chain := hc
  error he := absurd rfl he

theorem commitBlk (hb : writesBlk i = true) (x : Block) : EndsWithin i s (s.commitBlk x) :=
  cipher s (fun _ => rfl) (fun h => by simp [hb] at h) (fun _ => rfl)

theorem commitBlkChain (hb : writesBlk i = true) (hc : writesChain i = true) (x c : Block) :
    EndsWithin i s (s.commitBlkChain x c) :=
  cipher s (fun _ => rfl) (fun h => by simp [hb] at h) (fun h => by simp [hc] at h)

end EndsWithin

/-- Every command answers a next state, and an end its frame allows: one case for each way of
committing. -/
theorem exec_endsWithin (i : Instr) (s : State) : ∃ t, exec i s = .next t ∧ EndsWithin i s t := by
  cases i with
  | nop => exact ⟨_, rfl, .complete s _⟩
  | modadd | modsub | modred | montmul | tomont | frommont | modmul | modexp | modinv | ecchk | hash
  | ecdh | fmov | curvec => exact ⟨_, rfl, .commitF s (List.mem_singleton_self _) _⟩
  | ecadd | ecmul | keygen | pmov | pldg => exact ⟨_, rfl, .commitP s (List.mem_singleton_self _) _⟩
  | ecdsaSign d s1 s2 s3 =>
    refine ⟨_, rfl, ?_⟩
    split
    next hok => exact .commitPair s hok (by simp [fieldDests]) (by simp [fieldDests]) _
    next => exact .complete s _
  | ecdsaVerify d s1 s2 s3 =>
    refine ⟨_, rfl, ?_⟩
    split
    next => exact .commitF s (List.mem_singleton_self _) _
    next => exact .complete s _
  | benc | bdec | fround | fswap => exact ⟨_, rfl, .commitBlk s rfl _⟩
  | cbcenc | cbcdec => exact ⟨_, rfl, .commitBlkChain s rfl rfl _ _⟩
  | keyldf => exact ⟨_, rfl, .cipher s (fun h => nomatch h) (fun _ => rfl) (fun _ => rfl)⟩

/-- The end of a command, from the state it answered. -/
theorem exec_next_endsWithin {i : Instr} {s t : State} (h : exec i s = .next t) :
    EndsWithin i s t := by
  obtain ⟨t', ht', hends⟩ := exec_endsWithin i s
  rw [h] at ht'
  cases ht'
  exact hends

/-- Settles O59: the end of every command is within its frame. -/
theorem everyCommandCompletesAndWritesOnlyItsRegisters :
    Obligations.EveryCommandCompletesAndWritesOnlyItsRegisters := by
  intro i s
  obtain ⟨t, ht, h⟩ := exec_endsWithin i s
  exact ⟨t, ht, h.busy, h.done, h.untouched, h.field, h.point, h.key, h.blk, h.chain, h.error⟩

end Sys2Proof.Machine
end

section
/-! PROOFS, the invariant of the message buffer and of the pending command: each agent's turn keeps
it. -/

namespace Sys2Proof.Machine

open Sys2Proof.Safety

/-- Of an idle device the invariant says only that the message buffer is canonical. -/
theorem inv_of_idle {s : State} (hm : s.mem.wf) (hp : s.pending = none) : Inv s :=
  ⟨hm, fun w hw => by simp [hp] at hw⟩

/-- The invariant passes to a state with the same buffer and the same lifecycle fields. -/
theorem inv_congr {s t : State} (h : Inv s) (hm : t.mem = s.mem) (hp : t.pending = s.pending)
    (hc : t.cmd = s.cmd) (hd : s.done = false → t.done = false) (he : t.err = s.err) : Inv t := by
  obtain ⟨hwf, hpend⟩ := h
  refine ⟨hm ▸ hwf, fun w hw => ?_⟩
  obtain ⟨hcmd, hdone, herr⟩ := hpend w (hp ▸ hw)
  exact ⟨hc.trans hcmd, hd hdone, he.trans herr⟩

theorem inv_accept {s : State} (h : Inv s) (w : Word32) : Inv (s.accept w) :=
  ⟨h.1, fun _ hw => ⟨Option.some.inj hw, rfl, rfl⟩⟩

theorem inv_writeStatus {s : State} (h : Inv s) (v : Word32) : Inv (s.writeStatus v) :=
  inv_congr h rfl rfl rfl (fun hd => by simp [hd]) rfl

theorem inv_writeCtrl {s : State} (h : Inv s) (v : Word32) : Inv (s.writeCtrl v) := by
  unfold State.writeCtrl
  split
  · exact inv_of_idle h.1 rfl
  · exact inv_congr h rfl rfl rfl id rfl

theorem inv_hostRead {s : State} (h : Inv s) (off : Nat) : Inv (s.hostRead off) :=
  inv_congr h rfl rfl rfl id rfl

theorem inv_storeTarget {s : State} (h : Inv s) (hb : s.busy = false) (v : Word32) (t : Target) :
    Inv (s.storeTarget v t) :=
  inv_of_idle (State.storeTarget_wf v t h.1)
    (by rw [State.storeTarget_pending, State.busy_eq_false_iff.1 hb])

theorem inv_hostWrite {s : State} (h : Inv s) (off : Nat) (v : Word32) :
    Inv (s.hostWrite off v) := by
  rcases s.hostWrite_cases off v with ⟨-, e⟩ | ⟨-, e⟩ | ⟨-, -, e⟩ | ⟨-, -, e⟩ | ⟨-, hb, e⟩ | ⟨-, e⟩
    <;> rw [e]
  · exact inv_writeCtrl h v
  · exact inv_writeStatus h v
  · exact inv_accept h v
  · exact inv_congr h rfl rfl rfl id rfl
  · exact inv_storeTarget h hb v _
  · exact h

/-- A performed command leaves the buffer alone and nothing pending (10_state.md R36, R42). -/
theorem inv_exec {i : Instr} {s t : State} (h : Inv s) (ht : exec i s = .next t) : Inv t := by
  have hends := exec_next_endsWithin ht
  exact inv_of_idle (hends.untouched.mem ▸ h.1) (State.busy_eq_false_iff.1 hends.busy)

theorem inv_engineTurn {s t : State} (h : Inv s) (ht : engineTurn s = .next t) : Inv t := by
  rcases engineTurn_cases ht with ⟨-, rfl⟩ | ⟨w, i, -, -, he⟩ | ⟨w, e, -, -, rfl⟩
  · exact h
  · exact inv_exec h he
  · exact inv_of_idle h.1 rfl

theorem inv_takeInput {x : Input} {s t : State} (h : Inv s) (ht : takeInput x s = .next t) :
    Inv t := by
  rcases takeInput_cases ht with ⟨_, off, -, -, rfl⟩ | ⟨_, off, v, -, -, rfl⟩ | ⟨-, rfl⟩ | ⟨-, he⟩
  · exact inv_hostRead h off
  · exact inv_hostWrite h off v
  · exact inv_of_idle Memory.wf_nil rfl
  · exact inv_engineTurn h he

/-- Settles O42, by the agent whose turn the step is. -/
theorem stepKeepsTheInvariant : Obligations.StepKeepsTheInvariant := by
  intro s t hinv hstep
  rcases step_cases hstep with ⟨-, he⟩ | ⟨x, rest, -, hx⟩
  · exact inv_engineTurn hinv he
  · have hrest : Inv { s with inputs := rest } := inv_congr hinv rfl rfl rfl id rfl
    exact inv_takeInput hrest hx

/-- Settles O43: after reset nothing is pending and no byte is listed. -/
theorem resetMeetsTheInvariant : Obligations.ResetMeetsTheInvariant :=
  inv_of_idle Memory.wf_nil rfl

end Sys2Proof.Machine
end

section
/-! PROOFS, the registers of control and status, `CMD`, and the reset values. -/

namespace Sys2Proof.Machine

open Sys2Proof.Safety

/-- The bits of `STATUS`: `BUSY`, `DONE`, `HAZ` in 0, 1, 2, `ERR` in 11:8, all others reserved
(10_state.md R32). -/
theorem State.getLsbD_statusWord (s : State) (i : Nat) :
    s.statusWord.getLsbD i =
      if i = 0 then s.busy else if i = 1 then s.done else if i = 2 then s.haz
      else if 8 ≤ i ∧ i < 12 then s.err.number.getLsbD (i - 8) else false := by
  -- Each `++` asks whether `i` is below the width to its right: the field of a bit by position.
  simp only [State.statusWord, BitVec.getLsbD_append, BitVec.getLsbD_ofBool, BitVec.getLsbD_zero]
  split_ifs <;> grind

theorem State.ctrlWord_of_disabled {s : State} (hie : s.ie = false) : s.ctrlWord = 0#32 := by
  rw [State.ctrlWord, hie]
  decide

theorem State.statusWord_of_clear {s : State} (hb : s.busy = false) (hd : s.done = false)
    (hh : s.haz = false) (he : s.err = .ok) : s.statusWord = 0#32 := by
  rw [State.statusWord, hb, hd, hh, he]
  decide

/-- Settles O58: the bits as `STATUS` places them, and `writeStatus` as the write. -/
theorem statusWordAndWriteOneToClear : Obligations.StatusWordAndWriteOneToClear := by
  intro s v
  refine ⟨s.getLsbD_statusWord, by decide, takeInput_read_control rfl rfl s, ?_⟩
  have hclear : ∀ a b : Bool, (a && !b) = if b then false else a := by decide
  rw [takeInput_write_status, State.writeStatus, hclear, hclear]

/-- Settles O48: the write is `State.accept` or, busy, `HAZ`; and `CMD` reads back, as it is no data
register. -/
theorem cmdHoldsTheAcceptedCommand : Obligations.CmdHoldsTheAcceptedCommand := by
  have hread (s : State) : ∃ t, takeInput (.read 4 0x00C) s = .next t ∧ t.answer = some s.cmd :=
    takeInput_read_control rfl rfl s
  refine ⟨fun s w hidle => ⟨s.accept w, ?_, rfl, rfl, rfl, rfl, rfl, rfl, rfl, ⟨rfl, rfl, rfl⟩, rfl,
    rfl, rfl, rfl, fun _ => rfl, hread (s.accept w)⟩, fun s w hbusy => ?_, hread, rfl⟩
  · rw [takeInput_write_cmd, hidle, if_neg Bool.false_ne_true]
  · rw [takeInput_write_cmd, if_pos hbusy]

/-- The value of every register, of `CTRL`, `STATUS`, `ID` and of `irq` after a reset, as the table
of 10_state.md R44 has them. -/
def HasResetValues (t : State) : Prop :=
  (∀ i, t.getF i = 0#256) ∧ (∀ i, t.getP i = { inf := true, x := 0#256, y := 0#256 })
    ∧ (∀ i, t.getKey i = 0#32) ∧ t.blk = 0#64 ∧ t.chain = 0#64 ∧ t.msglen = 0#32
    ∧ t.ctrlWord = 0#32 ∧ t.statusWord = 0#32 ∧ t.cmd = 0#32 ∧ t.pending = none ∧ t.irq = false
    ∧ t.readTarget .id = 0x4D4D0001#32

/-- A state that is the reset state but for `MSGBUF` and the model's own fields holds the reset
values. -/
theorem hasResetValues_reset_with (mem : Memory) (inputs : List Input) (answer : Option Word32)
    (draws epoch : Nat) :
    HasResetValues { State.reset with
      mem := mem, inputs := inputs, answer := answer, draws := draws, epoch := epoch } := by
  refine ⟨fun i => ?_, fun i => ?_, fun i => ?_, rfl, rfl, rfl, State.ctrlWord_of_disabled rfl,
    State.statusWord_of_clear rfl rfl rfl rfl, rfl, rfl, rfl, rfl⟩
  · simp [State.getF]
  · simp [State.getP, Point.infinity]
  · simp [State.getKey]

theorem hasResetValues_reset : HasResetValues State.reset := hasResetValues_reset_with _ _ _ _ _

theorem hasResetValues_softReset (s : State) : HasResetValues s.softReset :=
  hasResetValues_reset_with _ _ _ _ _

theorem hasResetValues_powerOnReset (s : State) : HasResetValues s.powerOnReset :=
  hasResetValues_reset_with _ _ _ _ _

/-- Settles O44: the three states agree with the reset state in every register. -/
theorem resetValues : Obligations.ResetValues := by
  intro s
  refine ⟨fun t ht => ?_, fun j => rfl, takeInput_powerOn s, takeInput_write_ctrl 2#32 s⟩
  simp only [List.mem_cons, List.not_mem_nil, or_false] at ht
  rcases ht with rfl | rfl | rfl
  · exact hasResetValues_reset
  · exact hasResetValues_softReset s
  · exact hasResetValues_powerOnReset s

end Sys2Proof.Machine
end

section
/-! PROOFS, the words of the register window: what a host access of an idle device reads and writes,
register by register (20_memory.md R61 to R66). -/

namespace Sys2Proof.Machine

/-- A read at a word offset of the window, of an idle device, returns the word's defined value. -/
theorem takeInput_read_idle {s : State} {off : Nat} {tgt : Target} (hidle : s.busy = false)
    (hoff : off % 4 = 0 ∧ off < 0x2000) (hloc : locate off = tgt) :
    ∃ t, takeInput (.read 4 off) s = .next t ∧ t.answer = some (s.readTarget tgt) :=
  ⟨_, takeInput_read (busFault_none.2 ⟨rfl, hoff⟩) s,
    by rw [State.hostRead_answer, State.hostReadValue_idle off hidle, hloc]⟩

/-- A write at a defined offset is `hostWrite` (20_memory.md R64). -/
theorem takeInput_write {off : Nat} (hoff : off % 4 = 0 ∧ off < 0x2000) (v : Word32) (s : State) :
    takeInput (.write 4 off v) s = .next (s.hostWrite off v) := by
  simp only [takeInput, busFault_none.2 ⟨rfl, hoff⟩]

/-- A write of a data register of an idle device is a plain store. -/
theorem takeInput_write_idle {s : State} {off : Nat} {tgt : Target} (hidle : s.busy = false)
    (hoff : off % 4 = 0 ∧ off < 0x2000) (hloc : locate off = tgt) (hdata : tgt.isData = true)
    (v : Word32) : takeInput (.write 4 off v) s = .next (s.storeTarget v tgt) := by
  subst hloc
  rw [takeInput_write hoff, State.hostWrite_data v hidle hdata]

/-- A write of `ID` or of a reserved word changes nothing, busy or not (20_memory.md R67). -/
theorem takeInput_write_inert {off : Nat} (hoff : off % 4 = 0 ∧ off < 0x2000)
    (hloc : locate off = .id ∨ locate off = .reserved) (v : Word32) (s : State) :
    takeInput (.write 4 off v) s = .next s := by
  rw [takeInput_write hoff, State.hostWrite]
  rcases hloc with h | h <;> rw [h] <;> rfl

/-- Word `k` of a register after a write of word `j` (20_memory.md R62). -/
theorem extractLsb'_withWord {n m : Nat} (x : BitVec n) (j k : Fin m) (v : Word32)
    (hn : 32 * m ≤ n) :
    (withWord x j v).extractLsb' (32 * k.val) 32 =
      if k = j then v else x.extractLsb' (32 * k.val) 32 := by
  have hword := wordOf_withWord x j k v (by omega)
  simpa only [wordOf, Fin.ext_iff] using hword

@[simp] theorem State.getF_setF_same (s : State) (i : FReg) (v : Word256) :
    (s.setF i v).getF i = v := by
  rw [State.getF_setF, if_pos rfl]

theorem State.getF_setF_ne (s : State) {i i' : FReg} (v : Word256) (h : i' ≠ i) :
    (s.setF i v).getF i' = s.getF i' := by
  rw [State.getF_setF, if_neg h]

@[simp] theorem State.getP_setP_same (s : State) (i : PReg) (Q : Point) :
    (s.setP i Q).getP i = Q := by
  rw [State.getP_setP, if_pos rfl]

theorem State.getP_setP_ne (s : State) {i i' : PReg} (Q : Point) (h : i' ≠ i) :
    (s.setP i Q).getP i' = s.getP i' := by
  rw [State.getP_setP, if_neg h]

/-- Settles O52: the word is `.f i j` of the map, and its store is `setF` of `withWord`. -/
theorem fieldRegisterWords : Obligations.FieldRegisterWords := by
  intro s i j v hidle
  refine ⟨takeInput_read_idle hidle (by omega) (locate_f i j),
    s.setF i (withWord (s.getF i) j v),
    takeInput_write_idle hidle (by omega) (locate_f i j) rfl v, fun k => ?_,
    fun i' hi' => s.getF_setF_ne _ hi', rfl⟩
  rw [State.getF_setF_same, extractLsb'_withWord _ j k v (by omega)]

/-- The `INF` word: bit 0 is `inf`, every other bit 0 (20_memory.md R63). -/
theorem State.readTarget_pinf (s : State) (i : PReg) :
    s.readTarget (.pinf i) = if (s.getP i).inf then 1#32 else 0#32 := by
  rw [State.readTarget]
  cases (s.getP i).inf <;> rfl

/-- Settles O53: `x`, `y` and `INF` are the three parts of a point that a store replaces one at a
time; the words after them are reserved. -/
theorem pointRegisterWords : Obligations.PointRegisterWords := by
  intro s i j v hidle
  dsimp only
  refine ⟨takeInput_read_idle hidle (by omega) (locate_px i j),
    takeInput_read_idle hidle (by omega) (locate_py i j), ?inf,
    ⟨s.setP i { s.getP i with x := withWord (s.getP i).x j v },
      takeInput_write_idle hidle (by omega) (locate_px i j) rfl v, ?_, ?_, fun k => ?_,
      fun i' hi' => s.getP_setP_ne _ hi', rfl⟩,
    ⟨s.setP i { s.getP i with y := withWord (s.getP i).y j v },
      takeInput_write_idle hidle (by omega) (locate_py i j) rfl v, ?_, ?_, fun k => ?_,
      fun i' hi' => s.getP_setP_ne _ hi', rfl⟩,
    ⟨s.setP i { s.getP i with inf := v.getLsbD 0 },
      takeInput_write_idle hidle (by omega) (locate_pinf i) rfl v, s.getP_setP_same _ _,
      fun i' hi' => s.getP_setP_ne _ hi', rfl⟩,
    fun r hlo hhi hr => ⟨takeInput_write_inert (by omega) (.inr (locate_p_reserved i r hlo hhi)) v s,
      takeInput_read_idle hidle (by omega) (locate_p_reserved i r hlo hhi)⟩⟩
  case inf =>
    rw [← State.readTarget_pinf]
    exact takeInput_read_idle hidle (by omega) (locate_pinf i)
  all_goals rw [State.getP_setP_same]
  all_goals exact extractLsb'_withWord _ j k v (by omega)

/-- Settles O54: each word is its own target of the map, and its store is the field's. -/
theorem cipherRegisterWords : Obligations.CipherRegisterWords := by
  intro s v hidle
  refine ⟨fun i => ⟨takeInput_read_idle hidle (by omega) (locate_key i), s.setKey i v,
      takeInput_write_idle hidle (by omega) (locate_key i) rfl v,
      fun i' => s.getKey_setKey i i' v, rfl⟩,
    fun j => ⟨takeInput_read_idle hidle (by omega) (locate_blk j),
      ⟨{ s with blk := withWord s.blk j v },
        takeInput_write_idle hidle (by omega) (locate_blk j) rfl v,
        fun k => extractLsb'_withWord s.blk j k v (by omega), rfl⟩,
      takeInput_read_idle hidle (by omega) (locate_chain j),
      ⟨{ s with chain := withWord s.chain j v },
        takeInput_write_idle hidle (by omega) (locate_chain j) rfl v,
        fun k => extractLsb'_withWord s.chain j k v (by omega), rfl⟩⟩,
    takeInput_read_idle (tgt := .msglen) hidle (by omega) rfl,
    takeInput_write_idle (tgt := .msglen) hidle (by omega) rfl rfl v⟩

/-- The lanes of a stored message word: byte `4k + l` from bits `8l+7 : 8l` (20_memory.md R66). -/
theorem State.msgByte_setMsgWord_lane (s : State) (k : Nat) (v : Word32) (l : Fin 4) :
    (s.setMsgWord k v).msgByte (4 * k + l.val) = v.extractLsb' (8 * l.val) 8 := by
  fin_cases l <;> simp [State.setMsgWord, State.msgByte_setMsgByte]

/-- A stored message word leaves every byte outside its four alone. -/
theorem State.msgByte_setMsgWord_outside (s : State) {k j : Nat} (v : Word32)
    (h : j < 4 * k ∨ 4 * k + 4 ≤ j) : (s.setMsgWord k v).msgByte j = s.msgByte j := by
  simp only [State.setMsgWord, State.msgByte_setMsgByte]
  rw [if_neg (by omega), if_neg (by omega), if_neg (by omega), if_neg (by omega)]

/-- Settles O55: the lanes of the word read, and of the word stored. -/
theorem messageBufferLanes : Obligations.MessageBufferLanes := by
  intro s k v hidle
  obtain ⟨t, ht, hans⟩ := takeInput_read_idle hidle (by omega) (locate_msg k)
  exact ⟨⟨t, s.msgWord k, ht, hans, s.msgWord_lane k⟩, s.setMsgWord k v,
    takeInput_write_idle hidle (by omega) (locate_msg k) rfl v, s.msgByte_setMsgWord_lane k v,
    fun j hj => s.msgByte_setMsgWord_outside v hj, rfl⟩

end Sys2Proof.Machine
end

section
/-! PROOFS, what holds of accesses to the whole window: a read leaves no trace, the reserved offsets
and bits are inert, and a step faults only on an undefined access (20_memory.md R60, R64, R67, R68). -/

namespace Sys2Proof.Machine

open Sys2Proof.Safety

/-- A host read changes nothing of the device (20_memory.md R68). -/
theorem sameDevice_hostRead (s : State) (off : Nat) : SameDevice s (s.hostRead off) :=
  ⟨rfl, rfl, rfl, rfl, rfl, rfl, rfl, rfl, rfl, rfl, rfl, rfl, rfl, rfl⟩

/-- No word of the window shows that a read was made before. -/
@[simp] theorem State.readTarget_hostRead (s : State) (off : Nat) (tgt : Target) :
    (s.hostRead off).readTarget tgt = s.readTarget tgt := by
  cases tgt <;> rfl

/-- A read that draws no free value returns the word's defined value. -/
theorem State.hostReadValue_defined {s : State} {off : Nat}
    (h : (s.busy && (locate off).isData) = false) :
    s.hostReadValue off = s.readTarget (locate off) := by
  rw [State.hostReadValue, h, if_neg Bool.false_ne_true]

/-- Settles O51: a read draws a free value only of a data register while busy; any other returns what
`readTarget` says, before and after a read. -/
theorem readsHaveNoSideEffects : Obligations.ReadsHaveNoSideEffects := by
  intro s off ⟨_, halign, hlt⟩
  have hread := takeInput_read (busFault_none.2 ⟨rfl, halign, hlt⟩)
  refine ⟨s.hostRead off, hread s, sameDevice_hostRead s off, rfl, rfl, fun hfree => ?_⟩
  have hdraw : (s.busy && (locate off).isData) = false := by
    rcases hfree with hidle | hnodata
    · rw [hidle, Bool.false_and]
    · rw [Bool.eq_false_iff.2 (mt (locate_isData halign hlt).1 hnodata), Bool.and_false]
  refine ⟨?_, _, hread _, ?_⟩
  · rw [State.hostRead_draws, hdraw, if_neg Bool.false_ne_true]
  · rw [State.hostRead_answer, State.hostRead_answer, State.hostReadValue_defined hdraw,
      State.hostReadValue_defined (by rwa [State.hostRead_busy]), State.readTarget_hostRead]

/-- A write of a data register while busy only sets `HAZ` (70_reset_and_hazards.md R271). -/
theorem State.hostWrite_data_busy {s : State} {off : Nat} (v : Word32) (hbusy : s.busy = true)
    (hdata : (locate off).isData = true) : s.hostWrite off v = { s with haz := true } := by
  unfold State.hostWrite
  revert hdata
  cases locate off <;> simp [Target.isData, hbusy]

/-- Two words with the same plain store in a data register have the same effect, busy or not. -/
theorem State.hostWrite_data_congr {s : State} {off : Nat} {v v' : Word32}
    (hdata : (locate off).isData = true)
    (hstore : s.storeTarget v (locate off) = s.storeTarget v' (locate off)) :
    s.hostWrite off v = s.hostWrite off v' := by
  cases hb : s.busy
  · rw [State.hostWrite_data v hb hdata, State.hostWrite_data v' hb hdata, hstore]
  · rw [State.hostWrite_data_busy v hb hdata, State.hostWrite_data_busy v' hb hdata]

/-- The reserved bits of `CTRL` read 0 (10_state.md R31). -/
theorem State.ctrlWord_reserved (s : State) : s.ctrlWord &&& ~~~1#32 = 0#32 := by
  rw [State.ctrlWord]
  cases s.ie <;> decide

/-- The reserved bits of `STATUS` read 0 (10_state.md R32). -/
theorem State.statusWord_reserved (s : State) : s.statusWord &&& ~~~0xF07#32 = 0#32 := by
  have hmask : ∀ i < 32, (~~~0xF07#32).getLsbD i = !decide (i < 3 ∨ 8 ≤ i ∧ i < 12) := by decide
  apply BitVec.eq_of_getLsbD_eq
  intro i hi
  rw [BitVec.getLsbD_and, hmask i hi, State.getLsbD_statusWord, BitVec.getLsbD_zero]
  by_cases hlow : i < 3
  · simp [hlow]
  · rw [if_neg (by omega), if_neg (by omega), if_neg (by omega)]
    split <;> simp [*]

/-- The reserved bits of an `INF` word are 0 in its defined value (20_memory.md R63). -/
theorem State.readTarget_pinf_reserved (s : State) (i : PReg) :
    s.readTarget (.pinf i) &&& ~~~1#32 = 0#32 := by
  rw [State.readTarget_pinf]
  split <;> decide

/-- A bit that a mask keeps. -/
theorem getLsbD_and_of_kept {v mask : Word32} {i : Nat} (h : mask.getLsbD i = true) :
    (v &&& mask).getLsbD i = v.getLsbD i := by
  rw [BitVec.getLsbD_and, h, Bool.and_true]

/-- A write of `CTRL` looks at bits 0 and 1 only (10_state.md R31). -/
theorem State.writeCtrl_mask (v : Word32) (s : State) :
    s.writeCtrl (v &&& 3#32) = s.writeCtrl v := by
  rw [State.writeCtrl, getLsbD_and_of_kept (by decide), getLsbD_and_of_kept (by decide),
    State.writeCtrl]

/-- A write of `STATUS` looks at bits 1 and 2 only (10_state.md R32). -/
theorem State.writeStatus_mask (v : Word32) (s : State) :
    s.writeStatus (v &&& 6#32) = s.writeStatus v := by
  rw [State.writeStatus, getLsbD_and_of_kept (by decide), getLsbD_and_of_kept (by decide),
    State.writeStatus]

/-- A store of an `INF` word looks at bit 0 only (20_memory.md R63). -/
theorem State.storeTarget_pinf_mask (v : Word32) (s : State) (i : PReg) :
    s.storeTarget (v &&& 1#32) (.pinf i) = s.storeTarget v (.pinf i) := by
  rw [State.storeTarget, getLsbD_and_of_kept (by decide), State.storeTarget]

/-- The `INF` word of `P[i]`, at its offset from the window's base. -/
theorem locate_inf (i : PReg) : locate (0x340 + 0x60 * i.val) = .pinf i := by
  rw [← locate_pinf i]
  congr 1
  omega

/-- A write of an `INF` word looks at bit 0 only, busy or not. -/
theorem State.hostWrite_inf_mask (v : Word32) (s : State) (i : PReg) :
    s.hostWrite (0x340 + 0x60 * i.val) (v &&& 1#32) = s.hostWrite (0x340 + 0x60 * i.val) v := by
  refine State.hostWrite_data_congr ?_ ?_ <;> rw [locate_inf]
  · rfl
  · exact s.storeTarget_pinf_mask v i

/-- What a reserved offset, or that of `ID`, is in the map. -/
theorem locate_reserved_or_id {off : Nat} (h : ReservedOffset off ∨ off = 0x000) :
    (off % 4 = 0 ∧ off < 0x2000) ∧ locate off = if off = 0x000 then .id else .reserved := by
  rcases h with hres | rfl
  · have hoff : off % 4 = 0 ∧ off < 0x2000 ∧ off ≠ 0 := by
      unfold ReservedOffset at hres
      omega
    obtain ⟨halign, hlt, hne⟩ := hoff
    exact ⟨⟨halign, hlt⟩, by rw [if_neg hne]; exact (locate_reserved halign hlt).2 hres⟩
  · exact ⟨by decide, rfl⟩

/-- Settles O56, first the offsets and then the bits of `CTRL`, `STATUS` and the `INF` words. -/
theorem reservedOffsetsAndBits : Obligations.ReservedOffsetsAndBits := by
  refine ⟨fun s off v h => ?_, fun s v i => ⟨?_, ?_, fun hidle => ?_, ?_, ?_, ?_⟩⟩
  · obtain ⟨hoff, hloc⟩ := locate_reserved_or_id h
    have hinert : locate off = .id ∨ locate off = .reserved := by
      rw [hloc]; split <;> simp
    have hcontrol : (locate off).isData = false := by
      rcases hinert with e | e <;> rw [e] <;> rfl
    refine ⟨takeInput_write_inert hoff hinert v s, s.hostRead off,
      takeInput_read (busFault_none.2 ⟨rfl, hoff⟩) s, sameDevice_hostRead s off, ?_⟩
    rw [State.hostRead_answer, State.hostReadValue_control hcontrol, hloc]
    split <;> rfl
  · obtain ⟨t, ht, hans⟩ := takeInput_read_control (off := 0x004) rfl rfl s
    exact ⟨t, _, ht, hans, s.ctrlWord_reserved⟩
  · obtain ⟨t, ht, hans⟩ := takeInput_read_control (off := 0x008) rfl rfl s
    exact ⟨t, _, ht, hans, s.statusWord_reserved⟩
  · obtain ⟨t, ht, hans⟩ := takeInput_read_idle hidle (by omega) (locate_inf i)
    exact ⟨t, _, ht, hans, s.readTarget_pinf_reserved i⟩
  · rw [takeInput_write_ctrl, takeInput_write_ctrl, State.writeCtrl_mask]
  · rw [takeInput_write_status, takeInput_write_status, State.writeStatus_mask]
  · rw [takeInput_write (by omega), takeInput_write (by omega), State.hostWrite_inf_mask]

/-- The engine's turn always answers a next state (10_state.md R42). -/
theorem engineTurn_next (s : State) : ∃ t, engineTurn s = .next t := by
  unfold engineTurn
  split
  · unfold perform
    split
    next i _ =>
      obtain ⟨t, ht, -⟩ := exec_endsWithin i s
      exact ⟨t, ht⟩
    next => exact ⟨_, rfl⟩
  · exact ⟨_, rfl⟩

/-- An item from outside that breaks no rule is taken to a next state. -/
theorem takeInput_defined {x : Input} (hx : Input.Defined x) (s : State) :
    ∃ t, takeInput x s = .next t := by
  cases x with
  | read width off =>
    obtain ⟨rfl, hoff⟩ := hx
    exact ⟨_, takeInput_read (busFault_none.2 ⟨rfl, hoff⟩) s⟩
  | write width off v =>
    obtain ⟨rfl, hoff⟩ := hx
    exact ⟨_, takeInput_write hoff v s⟩
  | powerOn => exact ⟨_, takeInput_powerOn s⟩
  | engine => exact engineTurn_next s

/-- An access that the bus refuses faults, read or write (20_memory.md R64). -/
theorem step_of_busFault {s : State} {width off : Nat} {rest : List Input} {v : Word32} {e : Fault}
    (hin : s.inputs = .read width off :: rest ∨ s.inputs = .write width off v :: rest)
    (hfault : busFault width off = some e) : step s = .fault e := by
  rcases hin with h | h <;> rw [step_of_inputs_cons h] <;> simp only [takeInput, hfault]

/-- Settles O57: the agents' turns each answer, and the bus check names the fault. -/
theorem stepFaultsExactlyOnUndefinedAccesses :
    Obligations.StepFaultsExactlyOnUndefinedAccesses := by
  intro s
  refine ⟨fun hdef => ?_, fun width off rest v hin => ⟨fun hbad => ?_, fun hw ha hbeyond => ?_⟩⟩
  · cases hin : s.inputs with
    | nil => rw [step_of_inputs_nil hin]; exact engineTurn_next s
    | cons x rest => rw [step_of_inputs_cons hin]; exact takeInput_defined (hdef x rest hin) _
  · exact step_of_busFault hin (by rw [busFault, if_pos hbad])
  · exact step_of_busFault hin (by rw [busFault, if_neg (by omega), if_pos hbeyond])

end Sys2Proof.Machine
end

section
/-! PROOFS, which command reads `MSGBUF`: a command's effect commutes with a change of the buffer's
contents (20_memory.md R72). -/

namespace Sys2Proof.Machine

/-- The state with other contents of `MSGBUF`: other bytes written, since another power-on. -/
def State.withBuffer (m : Memory) (e : Nat) (s : State) : State := { s with mem := m, epoch := e }

section
variable (m : Memory) (e : Nat) (s : State)

theorem State.commitF_withBuffer (d : FReg) (r : Except ErrCode Word256) :
    (s.withBuffer m e).commitF d r = (s.commitF d r).withBuffer m e := by
  cases r <;> rfl

theorem State.commitP_withBuffer (d : PReg) (r : Except ErrCode Point) :
    (s.withBuffer m e).commitP d r = (s.commitP d r).withBuffer m e := by
  cases r <;> rfl

theorem State.commitPair_withBuffer (d : FPair) (r : Except ErrCode (Word256 × Word256)) :
    (s.withBuffer m e).commitPair d r = (s.commitPair d r).withBuffer m e := by
  cases r <;> rfl

end

/-- The message of `HASH` is a function of its first `MSGLEN` bytes (43_hash.md R160). -/
theorem State.message_withBuffer {m : Memory} {e : Nat} {s : State}
    (hagree : ∀ j < s.msglen.toNat, (s.withBuffer m e).msgByte j = s.msgByte j) :
    (s.withBuffer m e).message = s.message :=
  List.map_congr_left fun j hj => hagree j (List.mem_range.1 hj)

theorem hashResult_withBuffer {m : Memory} {e : Nat} {s : State} (h : List Byte → Vector Byte 32)
    (hagree : ∀ j < s.msglen.toNat, (s.withBuffer m e).msgByte j = s.msgByte j) :
    hashResult h (s.withBuffer m e) = hashResult h s := by
  rw [hashResult, State.message_withBuffer hagree]
  rfl

/-- Every command has the same effect on everything else with another `MSGBUF`: the ways of
committing commute with the change, and the operands of all but `HASH` are other registers. -/
theorem exec_withBuffer {i : Instr} {s t : State} (m : Memory) (e : Nat)
    (hagree : ∀ d, i = .hash d →
      ∀ j < s.msglen.toNat, (s.withBuffer m e).msgByte j = s.msgByte j)
    (ht : exec i s = .next t) : exec i (s.withBuffer m e) = .next (t.withBuffer m e) := by
  cases i with
  | hash d =>
    cases ht
    simp only [exec, execHash, hashResult_withBuffer _ (hagree d rfl), State.commitF_withBuffer]
  | modadd | modsub | modred | montmul | tomont | frommont | modmul | modexp | modinv | ecchk | ecdh
  | fmov | curvec => cases ht; exact congrArg _ (State.commitF_withBuffer m e s _ _)
  | ecadd | ecmul | keygen | pmov | pldg =>
    cases ht; exact congrArg _ (State.commitP_withBuffer m e s _ _)
  | ecdsaSign d s1 s2 s3 =>
    cases ht
    refine congrArg Host.Outcome.next ?_
    split
    · exact State.commitPair_withBuffer m e s _ _
    · rfl
  | ecdsaVerify d s1 s2 s3 =>
    cases ht
    refine congrArg Host.Outcome.next ?_
    split
    · exact State.commitF_withBuffer m e s _ _
    · rfl
  | nop | benc | bdec | cbcenc | cbcdec | fround | fswap | keyldf => cases ht; rfl

/-- Settles O24: every command answers, and with another buffer it answers the same. -/
theorem noCommandReadsFurtherMessageBytes : Obligations.NoCommandReadsFurtherMessageBytes := by
  intro i s m e hagree
  obtain ⟨t, ht, -⟩ := exec_endsWithin i s
  exact ⟨t, ht, exec_withBuffer m e (fun d hd => hagree ⟨d, hd⟩) ht⟩

end Sys2Proof.Machine
end

section
/-! PROOFS, the decoder and the encoder. Each operand kind is read from exactly the fields it is put
in, and the legal words are the encodings of the well-formed commands (30_encoding.md R90 to R98). -/

namespace Sys2Proof

open Sys2Proof.Machine Sys2Proof.Safety

/-! ### Operand fields (30_encoding.md R91, R96 (c) to (g)) -/

@[simp] theorem putF_readF (x : BitVec 4) : putF (readF x) = x := rfl

@[simp] theorem readUnused_eq_ok {x : BitVec 4} {u : Unit} : readUnused x = .ok u ↔ x = 0#4 := by
  simp [readUnused]

@[simp] theorem readP_eq_ok {x : BitVec 4} {j : PReg} : readP x = .ok j ↔ x = putP j := by
  revert x j; decide

@[simp] theorem readKIdx_eq_ok {x : BitVec 4} {j : KIdx} :
    readKIdx x = .ok j ↔ x = putKIdx j := by
  revert x j; decide

@[simp] theorem readFPair_eq_ok {x : BitVec 4} {j : FPair} :
    readFPair x = .ok j ↔ x = putFPair j ∧ FPair.ok j = true := by
  revert x j; decide

@[simp] theorem readSel_eq_ok {x : BitVec 4} {j : Sel} :
    readSel x = .ok j ↔ x = putSel j ∧ Sel.ok j = true := by
  revert x j; decide

@[simp] theorem legal_unused_iff {x : BitVec 4} : Kind.unused.legal x = true ↔ x = 0#4 := by
  simp [Kind.legal]

@[simp] theorem legal_f (x : BitVec 4) : Kind.f.legal x = true := rfl

@[simp] theorem legal_p_iff {x : BitVec 4} : Kind.p.legal x = true ↔ ∃ j, x = putP j := by
  revert x; decide

@[simp] theorem legal_kidx_iff {x : BitVec 4} : Kind.kidx.legal x = true ↔ ∃ j, x = putKIdx j := by
  revert x; decide

@[simp] theorem legal_pair_iff {x : BitVec 4} :
    Kind.pair.legal x = true ↔ ∃ j, x = putFPair j ∧ FPair.ok j = true := by
  revert x; decide

@[simp] theorem legal_sel_iff {x : BitVec 4} :
    Kind.sel.legal x = true ↔ ∃ j, x = putSel j ∧ Sel.ok j = true := by
  revert x; decide

/-- A word whose `z` is 0 is made of its other fields: bit by bit, each range of R90 is its own
field. -/
theorem pack_fields {w : Word32} (hz : zField w = 0#8) :
    pack (opField w) (dField w) (s1Field w) (s2Field w) (s3Field w) = w := by
  apply BitVec.eq_of_getLsbD_eq
  intro i hi
  have hhigh : 24 ≤ i → w.getLsbD i = false := fun hle => by
    have hbit := congrArg (·.getLsbD (i - 24)) hz
    simpa [zField, show i - 24 < 8 by omega, Nat.add_sub_cancel' hle] using hbit
  simp only [getLsbD_pack, opField, dField, s1Field, s2Field, s3Field, BitVec.getLsbD_extractLsb']
  grind

/-- The decoder, taken apart: `z` is 0 and the fields are those of a row. -/
theorem decode_eq_ok {w : Word32} {i : Instr} :
    decode w = .ok i ↔
      zField w = 0#8
        ∧ decodeFields (opField w) (dField w) (s1Field w) (s2Field w) (s3Field w) = .ok i := by
  unfold decode
  split <;> simp [*]

/-! ### The rows of 30_encoding.md R95 -/

/-- A read of the decoder's that succeeds, and then the rest of its row. -/
theorem except_bind_eq_ok {ε α β : Type} {r : Except ε α} {f : α → Except ε β} {b : β} :
    (r >>= f) = .ok b ↔ ∃ a, r = .ok a ∧ f a = .ok b := by
  cases r <;> simp [bind, Except.bind]

theorem except_pure_eq_ok {ε α : Type} {a b : α} : (pure a : Except ε α) = .ok b ↔ a = b :=
  Iff.of_eq (Except.ok.injEq a b)

/-- Row by row (the last case of the split is the opcode of no row), the fields that the decoder
accepts are those the encoder puts. -/
theorem wf_and_encode_of_decodeFields {op : BitVec 8} {d s1 s2 s3 : BitVec 4} {i : Instr}
    (h : decodeFields op d s1 s2 s3 = .ok i) : i.wf = true ∧ encode i = pack op d s1 s2 s3 := by
  revert h
  unfold decodeFields
  split
  case h_30 => exact fun h => nomatch h
  all_goals
    simp only [except_bind_eq_ok, except_pure_eq_ok, readUnused_eq_ok, readP_eq_ok, readKIdx_eq_ok,
      readFPair_eq_ok, readSel_eq_ok, exists_const, exists_imp, and_imp]
    intros
    subst_vars
    simp [Instr.wf, encode, *]

/-- An opcode byte that the decoder knows is a row of the opcode map (R96 (b)). -/
theorem exists_row_of_decodeFields {op : BitVec 8} {d s1 s2 s3 : BitVec 4} {i : Instr}
    (h : decodeFields op d s1 s2 s3 = .ok i) : ∃ r ∈ opcodeMap, r.op = op := by
  unfold decodeFields at h
  split at h
  case h_30 => cases h
  all_goals decide

/-- At a row of the opcode map, the decoder accepts the fields that are legal for the row's kinds
(R96 (c) to (g)). -/
theorem exists_decodeFields_row_iff {r : Row} (hr : r ∈ opcodeMap) (d s1 s2 s3 : BitVec 4) :
    (∃ i, decodeFields r.op d s1 s2 s3 = .ok i) ↔
      r.d.legal d = true ∧ r.s1.legal s1 = true ∧ r.s2.legal s2 = true ∧ r.s3.legal s3 = true := by
  fin_cases hr
  all_goals
    simp only [decodeFields, except_bind_eq_ok, except_pure_eq_ok]
    simp
  all_goals tauto

/-! ### The decoder and the encoder agree -/

/-- Settles O1: each field reads back what was put; for a pair and a selector that is where the
command's well-formedness is used. -/
theorem decodeEncodeRoundTrip : Obligations.DecodeEncodeRoundTrip := by
  intro i hwf
  cases i with
  | nop | modadd | modsub | modred | montmul | tomont | frommont | modmul | modexp | modinv | hash
  | benc | bdec | cbcenc | cbcdec | fswap | keyldf | fmov => exact decode_pack ..
  | ecadd | ecmul | ecchk | keygen | ecdh | pmov | pldg =>
    simp only [encode, decode_pack, decodeFields, readP_putP]; rfl
  | fround => rw [encode, decode_pack, decodeFields, readKIdx_putKIdx]; rfl
  | ecdsaSign => rw [encode, decode_pack, decodeFields, readFPair_putFPair hwf]; rfl
  | ecdsaVerify =>
    rw [encode, decode_pack, decodeFields, readFPair_putFPair hwf, readP_putP]; rfl
  | curvec => rw [encode, decode_pack, decodeFields, readSel_putSel hwf]; rfl

/-- Settles O2: the fields determine the command, and the word is its fields. -/
theorem decodedCommandReencodes : Obligations.DecodedCommandReencodes := by
  intro w i h
  obtain ⟨hz, hfields⟩ := decode_eq_ok.1 h
  obtain ⟨hwf, henc⟩ := wf_and_encode_of_decodeFields hfields
  exact ⟨hwf, henc.trans (pack_fields hz)⟩

/-- Settles O3: the rows of the decoder are the rows of the opcode map. -/
theorem legalWordsAreExactlyR96 : Obligations.LegalWordsAreExactlyR96 := by
  intro w
  constructor
  · rintro ⟨i, h⟩
    obtain ⟨hz, hfields⟩ := decode_eq_ok.1 h
    obtain ⟨r, hr, hop⟩ := exists_row_of_decodeFields hfields
    exact ⟨hz, r, hr, hop, (exists_decodeFields_row_iff hr ..).1 ⟨i, hop ▸ hfields⟩⟩
  · rintro ⟨hz, r, hr, hop, hlegal⟩
    obtain ⟨i, hfields⟩ := (exists_decodeFields_row_iff hr ..).2 hlegal
    rw [hop] at hfields
    exact ⟨i, decode_eq_ok.2 ⟨hz, hfields⟩⟩

/-! ### At the engine's turn -/

/-- A pending illegal word fails with `ILLEGAL`, whichever condition it breaks
(30_encoding.md R97). -/
theorem engineTurn_of_not_decodes {s : State} {w : Word32} (hp : s.pending = some w)
    (hd : ¬ ∃ i, decode w = .ok i) : engineTurn s = .next (s.fail .illegal) := by
  cases hw : decode w with
  | ok i => exact absurd ⟨i, hw⟩ hd
  | error e => simp only [engineTurn, perform, hp, hw]

/-- Settles O5: the decoder tells the legal words, and a failure is `fail(ILLEGAL)`. -/
theorem illegalWordFails : Obligations.IllegalWordFails := by
  intro s w hp
  rw [← legalWordsAreExactlyR96 w]
  refine ⟨fun hillegal => ?_, fun ⟨i, hd⟩ => ⟨i, hd, engineTurn_of_decode hp hd⟩⟩
  exact ⟨_, engineTurn_of_not_decodes hp hillegal, fails_fail s .illegal⟩

/-- Settles O4: each word and each text evaluates. -/
theorem sampleWordsDecode : Obligations.SampleWordsDecode := by
  unfold Obligations.SampleWordsDecode
  decide

end Sys2Proof
end

section
/-! PROOFS, field arithmetic. The words of its commands, the two ends of a command of each class,
and the value each command writes (41_field.md R110, R112 to R123). -/

namespace Sys2Proof.Machine

open Sys2Proof.Safety

/-! ### The word of a command with field operands -/

/-- A command whose word is made of field registers is decoded from the word written out as in
30_encoding.md R100; an unused field counts as register 0. -/
theorem decode_commandWord {i : Instr} {op : BitVec 8} {d s1 s2 s3 : FReg} (hwf : i.wf = true)
    (henc : encode i = pack op (putF d) (putF s1) (putF s2) (putF s3)) :
    decode (commandWord op.toNat d s1 s2 s3) = .ok i := by
  have hword : commandWord op.toNat d s1 s2 s3 = encode i :=
    (commandWord_eq_pack op (putF d) (putF s1) (putF s2) (putF s3)).trans henc.symm
  rw [hword, decodeEncodeRoundTrip i hwf]

/-! ### The modulus checks -/

/-- A value below the modulus fits the register (41_field.md R110). -/
theorem toNat_ofNat_of_lt {v : Nat} {m : Word256} (hv : v < m.toNat) :
    (BitVec.ofNat 256 v).toNat = v := by
  rw [BitVec.toNat_ofNat, Nat.mod_eq_of_lt (hv.trans m.isLt)]

theorem reducerResult_of_zero {m : Word256} (h : m.toNat = 0) (v : Nat) :
    reducerResult m v = .error .badModulus := if_pos h

theorem reducerResult_of_ne_zero {m : Word256} (h : m.toNat ≠ 0) (v : Nat) :
    reducerResult m v = .ok (BitVec.ofNat 256 v) := if_neg h

theorem montgomeryResult_of_even {m : Word256} (h : m.toNat % 2 = 0) (v : Nat) :
    montgomeryResult m v = .error .badModulus := if_pos h

theorem montgomeryResult_of_odd {m : Word256} (h : m.toNat % 2 = 1) (v : Nat) :
    montgomeryResult m v = .ok (BitVec.ofNat 256 v) := if_neg (by omega)

section
variable (s : State) (d : FReg) {m : Word256} {v : Nat}

/-- A successful result below the modulus is written exactly. -/
theorem commitF_writes_lt (hv : v < m.toNat) :
    ∃ r : Word256, WritesF d r s (s.commitF d (.ok (BitVec.ofNat 256 v))) ∧ r.toNat = v :=
  ⟨_, writesF_setF s d _, toNat_ofNat_of_lt hv⟩

/-- The two ends of a command of the reducer class (41_field.md R115). -/
theorem commitF_reducerResult (hv : m.toNat ≠ 0 → v < m.toNat) :
    (m.toNat = 0 → Fails .badModulus s (s.commitF d (reducerResult m v)))
    ∧ (m.toNat ≠ 0 →
        ∃ r : Word256, WritesF d r s (s.commitF d (reducerResult m v)) ∧ r.toNat = v) := by
  refine ⟨fun h => ?_, fun h => ?_⟩
  · rw [reducerResult_of_zero h]; exact fails_fail s _
  · rw [reducerResult_of_ne_zero h]; exact commitF_writes_lt s d (hv h)

/-- The two ends of a command of the Montgomery class (41_field.md R117). -/
theorem commitF_montgomeryResult (hv : m.toNat % 2 = 1 → v < m.toNat) :
    (m.toNat % 2 = 0 → Fails .badModulus s (s.commitF d (montgomeryResult m v)))
    ∧ (m.toNat % 2 = 1 →
        ∃ r : Word256, WritesF d r s (s.commitF d (montgomeryResult m v)) ∧ r.toNat = v) := by
  refine ⟨fun h => ?_, fun h => ?_⟩
  · rw [montgomeryResult_of_even h]; exact fails_fail s _
  · rw [montgomeryResult_of_odd h]; exact commitF_writes_lt s d (hv h)

end

/-- A remainder is below an odd modulus. -/
theorem mod_lt_of_odd {m : Nat} (v : Nat) (h : m % 2 = 1) : v % m < m :=
  Nat.mod_lt v (by omega)

/-! ### The modular reducer -/

/-- Settles O7: the exact sum is reduced, so it fits. -/
theorem modaddReducesTheSum : Obligations.ModaddReducesTheSum := fun d _ _ _ s =>
  ⟨decode_commandWord (op := 0x01#8) rfl rfl, _, rfl,
    commitF_reducerResult s d fun h => Nat.mod_lt _ (Nat.pos_of_ne_zero h)⟩

/-- Settles O8: `residue` is the non-negative remainder (00_scope.md R16). -/
theorem modsubReducesTheDifference : Obligations.ModsubReducesTheDifference := by
  intro d s1 s2 s3 s
  obtain ⟨hfail, hwrite⟩ := commitF_reducerResult s d (m := s.getF s3)
    (v := residue ((s.getF s1).toNat - (s.getF s2).toNat) (s.getF s3).toNat)
    fun h => residue_lt _ (Nat.pos_of_ne_zero h)
  refine ⟨decode_commandWord (op := 0x02#8) rfl rfl, _, rfl, hfail, fun h => ?_⟩
  obtain ⟨r, hr, hval⟩ := hwrite h
  exact ⟨r, hr, by rw [hval, residue_cast _ (Nat.pos_of_ne_zero h)]⟩

/-- Settles O9: the double-width value is reduced, so it fits. -/
theorem modredReducesTheDoubleWidthValue : Obligations.ModredReducesTheDoubleWidthValue :=
  fun d _ _ _ s =>
    ⟨decode_commandWord (op := 0x03#8) rfl rfl, _, rfl,
      commitF_reducerResult s d fun h => Nat.mod_lt _ (Nat.pos_of_ne_zero h)⟩

/-! ### The Montgomery multiplier -/

/-- The ends of a command that multiplies `x` by `Rinv` (41_field.md R116, R117). -/
theorem commitF_mul_montInverse (s : State) (d : FReg) (m : Word256) (x : Nat) :
    (m.toNat % 2 = 0 →
      Fails .badModulus s (s.commitF d (montgomeryResult m (x * montInverse m.toNat % m.toNat))))
    ∧ (m.toNat % 2 = 1 → ∃ r : Word256,
        WritesF d r s (s.commitF d (montgomeryResult m (x * montInverse m.toNat % m.toNat)))
        ∧ ∃ rinv < m.toNat, 2 ^ 256 * rinv % m.toNat = 1 % m.toNat
          ∧ r.toNat = x * rinv % m.toNat) := by
  obtain ⟨hfail, hwrite⟩ := commitF_montgomeryResult s d (m := m)
    (v := x * montInverse m.toNat % m.toNat) (mod_lt_of_odd _)
  refine ⟨hfail, fun hodd => ?_⟩
  obtain ⟨r, hr, hval⟩ := hwrite hodd
  obtain ⟨hlt, hinv⟩ := montInverse_spec hodd
  exact ⟨r, hr, montInverse m.toNat, hlt, hinv, hval⟩

/-- Settles O10: the exact product of the operands, times `Rinv`. -/
theorem montmulIsTheMontgomeryProduct : Obligations.MontmulIsTheMontgomeryProduct :=
  fun d _ _ _ s =>
    ⟨decode_commandWord (op := 0x04#8) rfl rfl, _, rfl, commitF_mul_montInverse s d _ _⟩

/-- Settles O11: the product with the radix `2 ^ 256` is reduced, so it fits. -/
theorem tomontMultipliesByTheRadix : Obligations.TomontMultipliesByTheRadix := fun d _ _ s =>
  ⟨decode_commandWord (op := 0x05#8) (s2 := 0) rfl rfl, _, rfl,
    commitF_montgomeryResult s d (mod_lt_of_odd _)⟩

/-- Settles O12: the operand, times `Rinv`. -/
theorem frommontDividesByTheRadix : Obligations.FrommontDividesByTheRadix := fun d _ _ s =>
  ⟨decode_commandWord (op := 0x06#8) (s2 := 0) rfl rfl, _, rfl, commitF_mul_montInverse s d _ _⟩

/-- Settles O13: the exact product is reduced, so it fits. -/
theorem modmulReducesTheProduct : Obligations.ModmulReducesTheProduct := fun d _ _ _ s =>
  ⟨decode_commandWord (op := 0x07#8) rfl rfl, _, rfl,
    commitF_montgomeryResult s d (mod_lt_of_odd _)⟩

/-- Settles O14: square and multiply computes the exact power, an exponent being a 256-bit word. -/
theorem modexpReducesThePower : Obligations.ModexpReducesThePower := by
  intro d s1 s2 s3 s
  obtain ⟨hfail, hwrite⟩ := commitF_montgomeryResult s d (m := s.getF s3)
    (v := powMod (s.getF s1).toNat (s.getF s2).toNat (s.getF s3).toNat)
    fun hodd => powMod_lt _ _ (by omega)
  refine ⟨decode_commandWord (op := 0x08#8) rfl rfl, _, rfl, hfail, fun hodd => ?_⟩
  obtain ⟨r, hr, hval⟩ := hwrite hodd
  exact ⟨r, hr, by rw [hval, powMod_eq (by omega) (s.getF s2).isLt]⟩

/-! ### The inverse by Fermat exponentiation (41_field.md R123) -/

theorem modInv_of_even {m : Word256} (heven : m.toNat % 2 = 0) (a : Word256) :
    modInv a m = .error .badModulus :=
  montgomeryResult_of_even heven _

theorem modInv_of_odd {m : Word256} (hodd : m.toNat % 2 = 1) (h1 : m.toNat ≠ 1) (a : Word256) :
    modInv a m = .ok (BitVec.ofNat 256 (a.toNat ^ (m.toNat - 2) % m.toNat)) := by
  have hexp : m.toNat - 2 < 2 ^ 256 := (Nat.sub_le _ _).trans_lt m.isLt
  rw [modInv, if_neg h1, powMod_eq (by omega) hexp, montgomeryResult_of_odd hodd]

theorem modInv_of_one {m : Word256} (h1 : m.toNat = 1) (a : Word256) :
    modInv a m = .ok 0#256 := by
  rw [modInv, if_pos h1, montgomeryResult_of_odd (by omega)]

/-- A positive power of a multiple of `m` is a multiple of `m`. -/
theorem pow_mod_eq_zero {a e m : Nat} (ha : a % m = 0) (he : e ≠ 0) : a ^ e % m = 0 :=
  Nat.mod_eq_zero_of_dvd (dvd_pow (Nat.dvd_of_mod_eq_zero ha) he)

/-- Fermat's little theorem, for an operand that need not be reduced. -/
theorem mul_fermat_inverse {a m : Nat} (hp : m.Prime) (hlt : m < 2 ^ 256) (ha : a % m ≠ 0) :
    a * (a ^ (m - 2) % m) % m = 1 := by
  have hinv := invMod_mul (v := a) hp hlt (by rwa [residue_natCast])
  rwa [invMod_eq _ hp.pos hlt, residue_natCast, ← Nat.pow_mod, Nat.mod_mul_mod] at hinv

/-- Settles O15: the modulus is even, 1, or odd and at least 3. -/
theorem modinvIsFermatExponentiation : Obligations.ModinvIsFermatExponentiation := by
  intro d s1 s3 s
  refine ⟨decode_commandWord (op := 0x09#8) (s2 := 0) rfl rfl,
    s.commitF d (modInv (s.getF s1) (s.getF s3)), rfl, fun heven => ?_, fun h1 => ?_,
    fun hodd h1 => ?_⟩
  · rw [modInv_of_even heven]
    exact fails_fail s _
  · rw [modInv_of_one h1]
    exact writesF_setF s d _
  · rw [modInv_of_odd hodd h1]
    have hval := toNat_ofNat_of_lt
      (mod_lt_of_odd ((s.getF s1).toNat ^ ((s.getF s3).toNat - 2)) hodd)
    refine ⟨_, writesF_setF s d _, hval, fun hzero => ?_, fun hp hne => ?_⟩
    · rw [pow_mod_eq_zero hzero (by omega)]
    · rw [hval, mul_fermat_inverse hp (s.getF s3).isLt hne]

end Sys2Proof.Machine
end

section
/-! PROOFS, the Montgomery laws: modulo an odd `m` the radix and its inverse cancel
(41_field.md R116, R124). -/

namespace Sys2Proof.Machine

/-! ### The results of the commands, for an odd modulus -/

section
variable {m : Word256} (hodd : m.toNat % 2 = 1) (a b : Word256)
include hodd

theorem toMont_of_odd :
    toMont a m = .ok (BitVec.ofNat 256 (a.toNat * montRadix % m.toNat)) :=
  montgomeryResult_of_odd hodd _

theorem fromMont_of_odd :
    fromMont a m = .ok (BitVec.ofNat 256 (a.toNat * montInverse m.toNat % m.toNat)) :=
  montgomeryResult_of_odd hodd _

theorem montMul_of_odd :
    montMul a b m
      = .ok (BitVec.ofNat 256 (a.toNat * b.toNat * montInverse m.toNat % m.toNat)) :=
  montgomeryResult_of_odd hodd _

theorem modMul_of_odd :
    modMul a b m = .ok (BitVec.ofNat 256 (a.toNat * b.toNat % m.toNat)) :=
  montgomeryResult_of_odd hodd _

end

/-! ### The laws over the integers -/

section
variable {m : Nat} (hodd : m % 2 = 1) (x y : Nat)
include hodd

/-- The radix and its inverse cancel, in the ring of integers modulo `m`. -/
theorem montRadix_mul_montInverse : (montRadix : ZMod m) * (montInverse m : ZMod m) = 1 := by
  obtain ⟨-, hinv⟩ := montInverse_spec hodd
  exact_mod_cast (ZMod.natCast_eq_natCast_iff' _ _ m).2 hinv

/-- The Montgomery product of two Montgomery forms is the Montgomery form of the product. -/
theorem montgomery_product_of_forms :
    (x * montRadix % m) * (y * montRadix % m) * montInverse m % m
      = x * y % m * montRadix % m := by
  rw [← ZMod.natCast_eq_natCast_iff']
  push_cast [ZMod.natCast_mod]
  linear_combination (x * y * montRadix : ZMod m) * montRadix_mul_montInverse hodd

/-- Leaving the Montgomery form undoes entering it. -/
theorem montgomery_form_undone : x * montRadix % m * montInverse m % m = x % m := by
  rw [← ZMod.natCast_eq_natCast_iff']
  push_cast [ZMod.natCast_mod]
  linear_combination (x : ZMod m) * montRadix_mul_montInverse hodd

/-- The Montgomery product with the square of the radix enters the Montgomery form. -/
theorem montgomery_product_with_square :
    x * (montRadix ^ 2 % m) * montInverse m % m = x * montRadix % m := by
  rw [← ZMod.natCast_eq_natCast_iff']
  push_cast [ZMod.natCast_mod]
  linear_combination (x * montRadix : ZMod m) * montRadix_mul_montInverse hodd

end

/-- Settles O16: the four laws are the three over the integers, the fourth being the first and then
the second. -/
theorem montgomeryLaws : Obligations.MontgomeryLaws := by
  intro x y m hodd _
  have hfits : ∀ v, (BitVec.ofNat 256 (v % m.toNat)).toNat = v % m.toNat := fun v =>
    toNat_ofNat_of_lt (mod_lt_of_odd v hodd)
  have hsquare : (2 ^ 256) ^ 2 = montRadix ^ 2 := rfl
  refine ⟨_, _, _, _, toMont_of_odd hodd x, toMont_of_odd hodd y, montMul_of_odd hodd _ _,
    modMul_of_odd hodd x y, ?_, ?_, ?_, ?_⟩
  · rw [toMont_of_odd hodd, hfits, hfits, hfits, montgomery_product_of_forms hodd]
  · rw [fromMont_of_odd hodd, hfits, montgomery_form_undone hodd]
  · rw [montMul_of_odd hodd, hsquare, hfits, montgomery_product_with_square hodd]
  · rw [fromMont_of_odd hodd, hfits, hfits, hfits, montgomery_product_of_forms hodd,
      montgomery_form_undone hodd, Nat.mod_mod]

end Sys2Proof.Machine
end

section
/-! PROOFS, the curve's functions. `pointAdd` case by case with the exact slopes, and double-and-add
as a fold over the bits of the scalar (42_curve.md R141, R142). -/

namespace Sys2Proof.Machine

/-! ### Field points (10_state.md R24) -/

theorem isFieldPoint_iff {c : Curve} {A : Point} :
    isFieldPoint c A = true ↔ A.inf = true ∨ (A.x.toNat < c.p ∧ A.y.toNat < c.p) := by
  simp [isFieldPoint]

theorem isFieldPoint_eq_false_iff {c : Curve} {A : Point} :
    isFieldPoint c A = false ↔ A.inf = false ∧ (c.p ≤ A.x.toNat ∨ c.p ≤ A.y.toNat) := by
  simp [isFieldPoint, Decidable.imp_iff_not_or]

theorem Point.canonical_of_inf {A : Point} (h : A.inf = true) : A.canonical = Point.infinity :=
  if_pos h

theorem Point.canonical_of_finite {A : Point} (h : A.inf = false) : A.canonical = A :=
  if_neg (by simp [h])

/-! ### The cases of `pointAdd` (42_curve.md R141) -/

section
variable (c : Curve) {A B : Point}

theorem pointAdd_of_left_inf (hA : A.inf = true) : pointAdd c A B = B.canonical := if_pos hA

theorem pointAdd_of_right_inf (hA : A.inf = false) (hB : B.inf = true) : pointAdd c A B = A := by
  simp [pointAdd, hA, hB]

theorem pointAdd_of_negation (hA : A.inf = false) (hB : B.inf = false)
    (hneg : A.x = B.x ∧ (A.y.toNat + B.y.toNat) % c.p = 0) :
    pointAdd c A B = Point.infinity := by
  simp [pointAdd, hA, hB, hneg]

theorem pointAdd_of_not_negation (hA : A.inf = false) (hB : B.inf = false)
    (hneg : ¬ (A.x = B.x ∧ (A.y.toNat + B.y.toNat) % c.p = 0)) :
    pointAdd c A B = thirdPoint c (slope c A B) A B := by
  rw [pointAdd, if_neg (by simp [hA]), if_neg (by simp [hB]), if_neg hneg]

end

/-! ### The slope and the third point, over the integers -/

/-- A quotient modulo `m` is the product with the exact Fermat power (00_scope.md R19). -/
theorem residue_mul_invMod (u v : Int) {m : Nat} (hm : 0 < m) (hlt : m < 2 ^ 256) :
    (residue (u * invMod v m) m : Int) = u * (v % m) ^ (m - 2) % m := by
  rw [residue_cast _ hm, invMod_eq v hm hlt, Int.natCast_mod, Int.natCast_pow, residue_cast v hm]
  exact (Int.mod_modEq _ _).mul_left u

theorem slope_tangent {c : Curve} (hc : Config.Admissible c) {A B : Point}
    (hAB : A.x = B.x ∧ A.y = B.y) :
    (slope c A B : Int)
      = (3 * (A.x.toNat : Int) ^ 2 + c.a) * (2 * A.y.toNat % c.p) ^ (c.p - 2) % c.p := by
  rw [slope, if_pos hAB, residue_mul_invMod _ _ hc.p_prime.pos hc.p_lt]

theorem slope_chord {c : Curve} (hc : Config.Admissible c) {A B : Point}
    (hAB : ¬ (A.x = B.x ∧ A.y = B.y)) :
    (slope c A B : Int)
      = ((B.y.toNat : Int) - A.y.toNat) * (((B.x.toNat : Int) - A.x.toNat) % c.p) ^ (c.p - 2)
          % c.p := by
  rw [slope, if_neg hAB, residue_mul_invMod _ _ hc.p_prime.pos hc.p_lt]

theorem slope_lt {c : Curve} (hc : Config.Admissible c) (A B : Point) : slope c A B < c.p := by
  unfold slope
  split <;> exact residue_lt _ hc.p_prime.pos

/-- A remainder modulo `p` fits a coordinate, so writing it loses nothing. -/
theorem toNat_ofNat_residue {c : Curve} (hc : Config.Admissible c) (z : Int) :
    (BitVec.ofNat 256 (residue z c.p)).toNat = residue z c.p := by
  rw [BitVec.toNat_ofNat, Nat.mod_eq_of_lt ((residue_lt z hc.p_prime.pos).trans hc.p_lt)]

theorem thirdPoint_x {c : Curve} (hc : Config.Admissible c) (lam : Nat) (A B : Point) :
    ((thirdPoint c lam A B).x.toNat : Int) = ((lam : Int) ^ 2 - A.x.toNat - B.x.toNat) % c.p := by
  rw [thirdPoint, toNat_ofNat_residue hc, residue_cast _ hc.p_prime.pos]

theorem thirdPoint_y {c : Curve} (hc : Config.Admissible c) (lam : Nat) (A B : Point) :
    ((thirdPoint c lam A B).y.toNat : Int)
      = ((lam : Int) * ((A.x.toNat : Int) - (thirdPoint c lam A B).x.toNat) - A.y.toNat)
          % c.p := by
  simp only [thirdPoint]
  rw [toNat_ofNat_residue hc, toNat_ofNat_residue hc, residue_cast _ hc.p_prime.pos]

/-- Settles O17: one clause for each case of the addition. -/
theorem pointAddFollowsChordAndTangent : Obligations.PointAddFollowsChordAndTangent := by
  intro c A B hc _ _
  refine ⟨fun hA hB => ?_, fun hA hB => ?_, fun hA hB => ?_, fun hA hB hx hy => ?_,
    fun hA hB hneg => ?_⟩
  · rw [pointAdd_of_left_inf c hA, Point.canonical_of_inf hB]
  · rw [pointAdd_of_left_inf c hA, Point.canonical_of_finite hB]
  · exact pointAdd_of_right_inf c hA hB
  · exact pointAdd_of_negation c hA hB ⟨hx, hy⟩
  · rw [pointAdd_of_not_negation c hA hB hneg]
    exact ⟨slope c A B, slope_lt hc A B, fun hx hy => slope_tangent hc ⟨hx, hy⟩, slope_chord hc,
      rfl, thirdPoint_x hc _ A B, thirdPoint_y hc _ A B⟩

/-! ### Double and add (42_curve.md R142) -/

/-- One turn of the loop of 42_curve.md R142, at bit `i` of `k`: the sum so far and the doubled
point. -/
def doubleAddStep (c : Curve) (k : Nat) (q : Point × Point) (i : Nat) : Point × Point :=
  (if k.testBit i then pointAdd c q.1 q.2 else q.1, pointAdd c q.2 q.2)

theorem doubleAddStep_zero (c : Curve) (k : Nat) (q : Point × Point) :
    doubleAddStep c k q 0
      = (if k % 2 = 1 then pointAdd c q.1 q.2 else q.1, pointAdd c q.2 q.2) := by
  simp only [doubleAddStep, Nat.testBit_zero, decide_eq_true_eq]

/-- Without its least significant bit the scalar is half, and each other bit is one place lower. -/
theorem doubleAddStep_succ (c : Curve) (k : Nat) (q : Point × Point) (i : Nat) :
    doubleAddStep c k q (i + 1) = doubleAddStep c (k / 2) q i := by
  simp only [doubleAddStep, Nat.testBit_succ]

theorem size_eq_size_half_succ {k : Nat} (hk : k ≠ 0) : k.size = (k / 2).size + 1 := by
  have hbit : Nat.bit (k.testBit 0) (k / 2) = k := by
    rw [← Nat.shiftRight_one]; exact Nat.bit_testBit_zero_shiftRight_one k
  conv_lhs => rw [← hbit]
  exact Nat.size_bit (hbit.symm ▸ hk)

/-- The loop is the fold of its turns over the bits of the scalar, if its fuel covers them. -/
theorem doubleAndAdd_eq_foldl (c : Curve) :
    ∀ (fuel k : Nat) (acc add : Point), k < 2 ^ fuel →
      doubleAndAdd c fuel k acc add
        = ((List.range k.size).foldl (doubleAddStep c k) (acc, add)).1
  | 0, k, acc, add, hk => by
    have hk0 : k = 0 := by simpa using hk
    simp [doubleAndAdd, hk0]
  | fuel + 1, k, acc, add, hk => by
    by_cases hk0 : k = 0
    · simp [doubleAndAdd, hk0]
    · have hhalf : k / 2 < 2 ^ fuel := by rw [pow_succ] at hk; omega
      rw [doubleAndAdd, if_neg hk0, doubleAndAdd_eq_foldl c fuel _ _ _ hhalf,
        size_eq_size_half_succ hk0, List.range_succ_eq_map, List.foldl_cons, List.foldl_map]
      simp only [doubleAddStep_zero, doubleAddStep_succ]

/-- Settles O18: below the order the scalar fits the loop's 256 turns. -/
theorem scalarMultIsDoubleAndAdd : Obligations.ScalarMultIsDoubleAndAdd := by
  intro c k A hc _ _
  refine ⟨fun h => if_pos h, fun hk hA => ?_⟩
  have hfits : k % c.n < 2 ^ 256 := (Nat.mod_lt k hc.n_prime.pos).trans hc.n_lt
  rw [scalarMult, if_neg (by simp [hk, hA])]
  exact doubleAndAdd_eq_foldl c 256 (k % c.n) Point.infinity A hfits

end Sys2Proof.Machine
end

section
/-! PROOFS, the curve commands: their words, their refusals and what they write
(42_curve.md R143 to R145). -/

namespace Sys2Proof.Machine

open Sys2Proof.Safety

/-! ### The word of a command with point operands -/

/-- The index of a point register as a value of the four-bit field that holds it
(30_encoding.md R91). -/
def pointField (i : PReg) : FReg := i.castLE (by decide)

theorem putP_eq_putF (i : PReg) : putP i = putF (pointField i) := by
  revert i; decide

theorem decode_ecadd (d s1 s2 : PReg) :
    decode (commandWord 0x10 d s1 s2 0) = .ok (.ecadd d s1 s2) :=
  decode_commandWord (op := 0x10#8) (d := pointField d) (s1 := pointField s1)
    (s2 := pointField s2) (s3 := 0) rfl (by simp only [encode, putP_eq_putF]; rfl)

theorem decode_ecmul (d s1 : PReg) (s2 : FReg) :
    decode (commandWord 0x11 d s1 s2 0) = .ok (.ecmul d s1 s2) :=
  decode_commandWord (op := 0x11#8) (d := pointField d) (s1 := pointField s1) (s3 := 0) rfl
    (by simp only [encode, putP_eq_putF]; rfl)

theorem decode_ecchk (d : FReg) (s1 : PReg) :
    decode (commandWord 0x12 d s1 0 0) = .ok (.ecchk d s1) :=
  decode_commandWord (op := 0x12#8) (s1 := pointField s1) (s2 := 0) (s3 := 0) rfl
    (by simp only [encode, putP_eq_putF]; rfl)

/-! ### The addition and the multiplication -/

section
variable {c : Curve} {A B : Point}

theorem ecAddResult_of_fieldPoints (hA : isFieldPoint c A = true) (hB : isFieldPoint c B = true) :
    ecAddResult c A B = .ok (pointAdd c A B) := by
  simp [ecAddResult, hA, hB]

theorem ecAddResult_of_not_fieldPoint (h : isFieldPoint c A = false ∨ isFieldPoint c B = false) :
    ecAddResult c A B = .error .badOperand := by
  rcases h with h | h <;> simp [ecAddResult, h]

theorem ecMulResult_of_fieldPoint (hA : isFieldPoint c A = true) (k : Word256) :
    ecMulResult c k A = .ok (scalarMult c k.toNat A) := if_pos hA

theorem ecMulResult_of_not_fieldPoint (hA : isFieldPoint c A = false) (k : Word256) :
    ecMulResult c k A = .error .badOperand := if_neg (by simp [hA])

end

/-- Settles O19: the test on the operands is R24, and either way the command ends in its frame. -/
theorem ecaddAddsFieldPoints : Obligations.EcaddAddsFieldPoints := by
  intro d s1 s2 s
  refine ⟨decode_ecadd d s1 s2,
    s.commitP d (ecAddResult Config.curve (s.getP s1) (s.getP s2)), rfl, fun hbad => ?_,
    fun hgood => ?_⟩
  · simp only [← isFieldPoint_eq_false_iff, List.exists_mem_cons_iff, List.not_mem_nil, false_and,
      exists_false, or_false] at hbad
    rw [ecAddResult_of_not_fieldPoint hbad]
    exact fails_fail s _
  · simp only [← isFieldPoint_iff, List.forall_mem_cons] at hgood
    obtain ⟨hA, hB, -⟩ := hgood
    rw [ecAddResult_of_fieldPoints hA hB]
    exact writesP_setP s d _

/-- Settles O20, as O19, with one operand to test. -/
theorem ecmulMultipliesFieldPoints : Obligations.EcmulMultipliesFieldPoints := by
  intro d s1 s2 s
  refine ⟨decode_ecmul d s1 s2,
    s.commitP d (ecMulResult Config.curve (s.getF s2) (s.getP s1)), rfl, fun hinf hbad => ?_,
    fun hgood => ?_⟩
  · rw [ecMulResult_of_not_fieldPoint (isFieldPoint_eq_false_iff.2 ⟨hinf, hbad⟩)]
    exact fails_fail s _
  · rw [ecMulResult_of_fieldPoint (isFieldPoint_iff.2 hgood)]
    exact writesP_setP s d _

/-! ### The curve check -/

theorem residue_eq_zero_iff (z : Int) {m : Nat} (hm : 0 < m) : residue z m = 0 ↔ z % m = 0 := by
  rw [← residue_cast z hm, Int.natCast_eq_zero]

/-- The test of 42_curve.md R140, over the integers. -/
theorem onCurve_iff {c : Curve} (hm : 0 < c.p) {A : Point} :
    onCurve c A = true ↔ A.inf = true ∨ (A.x.toNat < c.p ∧ A.y.toNat < c.p
      ∧ ((A.y.toNat : Int) ^ 2
          - ((A.x.toNat : Int) ^ 3 + c.a * A.x.toNat + c.b)) % c.p = 0) := by
  unfold onCurve
  split
  next hinf => simp [hinf]
  next hinf =>
    split
    next hout => simp [hinf]; omega
    next hin =>
      obtain ⟨hx, hy⟩ := not_or.1 hin
      simp [hinf, residue_eq_zero_iff _ hm, not_le.1 hx, not_le.1 hy]

theorem boolWord_eq_zero_or_one (b : Bool) : boolWord b = 0#256 ∨ boolWord b = 1#256 := by
  cases b <;> simp [boolWord]

/-- Settles O21: the word written is the answer of the test of R140. -/
theorem ecchkTestsTheCurveEquation : Obligations.EcchkTestsTheCurveEquation := fun d s1 s =>
  ⟨decode_ecchk d s1, _, boolWord (onCurve Config.curve (s.getP s1)), rfl, writesF_setF s d _,
    boolWord_eq_zero_or_one _,
    boolWord_eq_one.trans (onCurve_iff Config.curve_admissible.p_prime.pos)⟩

end Sys2Proof.Machine
end

section
/-! PROOFS, the group laws. Each law of 42_curve.md R146 is the law of Mathlib's group of the curve,
carried back along `Rep`: a point has one register contents. -/

namespace Sys2Proof.Machine

open Sys2Proof.Safety

section
variable {c : Curve} (hc : Config.Admissible c) [Fact c.p.Prime] {A B C : Point}
  {P Q R : c.toAffine.Point}
include hc

/-! ### The laws of points that stand for points of the group -/

theorem pointAdd_comm_of_rep (hA : Rep c A P) (hB : Rep c B Q) :
    pointAdd c A B = pointAdd c B A := by
  have hBA : Rep c (pointAdd c B A) (P + Q) := add_comm Q P ▸ rep_add hc hB hA
  exact rep_inj (rep_add hc hA hB) hBA

theorem pointAdd_assoc_of_rep (hA : Rep c A P) (hB : Rep c B Q) (hC : Rep c C R) :
    pointAdd c (pointAdd c A B) C = pointAdd c A (pointAdd c B C) := by
  have hleft : Rep c (pointAdd c (pointAdd c A B) C) (P + (Q + R)) :=
    add_assoc P Q R ▸ rep_add hc (rep_add hc hA hB) hC
  exact rep_inj hleft (rep_add hc hA (rep_add hc hB hC))

theorem pointAdd_infinity_of_rep (hA : Rep c A P) : pointAdd c A Point.infinity = A := by
  have hsum : Rep c (pointAdd c A Point.infinity) P := add_zero P ▸ rep_add hc hA (rep_zero c)
  exact rep_inj hsum hA

theorem pointAdd_negPoint_of_rep (hA : Rep c A P) :
    pointAdd c A (negPoint c A) = Point.infinity := by
  have hsum : Rep c (pointAdd c A (negPoint c A)) 0 :=
    add_neg_cancel P ▸ rep_add hc hA (rep_negPoint hc hA)
  exact rep_zero_iff.1 hsum

/-! ### The points generated by the base point, `P` -/

/-- The generated points are those that stand for the multiples of the base point. -/
theorem generated_iff_rep_nsmul (hP : Rep c c.base P) :
    Generated c A ↔ ∃ k : Nat, Rep c A (k • P) := by
  constructor
  · rintro ⟨k, rfl⟩
    exact ⟨k, (rep_scalarMult_base hc k hP).1⟩
  · rintro ⟨k, hA⟩
    exact ⟨k, rep_inj hA (rep_scalarMult_base hc k hP).1⟩

theorem generated_infinity (hP : Rep c c.base P) : Generated c Point.infinity :=
  (generated_iff_rep_nsmul hc hP).2 ⟨0, (zero_nsmul P).symm ▸ rep_zero c⟩

/-- The order being `n`, the negation of `k` copies is `k * (n - 1)` copies. -/
theorem neg_nsmul_eq_nsmul (hP : Rep c c.base P) (k : Nat) : -(k • P) = (k * (c.n - 1)) • P := by
  have hn : k * (c.n - 1) + k = k * c.n := by
    rw [← Nat.mul_succ, Nat.succ_eq_add_one, Nat.sub_add_cancel hc.n_prime.one_le]
  rw [neg_eq_iff_add_eq_zero, add_comm, ← add_nsmul, hn, mul_nsmul', base_order hc hP, nsmul_zero]

theorem generated_negPoint (hP : Rep c c.base P) (hA : Generated c A) :
    Generated c (negPoint c A) := by
  obtain ⟨k, hk⟩ := (generated_iff_rep_nsmul hc hP).1 hA
  exact (generated_iff_rep_nsmul hc hP).2
    ⟨k * (c.n - 1), neg_nsmul_eq_nsmul hc hP k ▸ rep_negPoint hc hk⟩

theorem generated_pointAdd (hP : Rep c c.base P) (hA : Generated c A) (hB : Generated c B) :
    Generated c (pointAdd c A B) := by
  obtain ⟨j, hj⟩ := (generated_iff_rep_nsmul hc hP).1 hA
  obtain ⟨k, hk⟩ := (generated_iff_rep_nsmul hc hP).1 hB
  exact (generated_iff_rep_nsmul hc hP).2 ⟨j + k, add_nsmul P j k ▸ rep_add hc hj hk⟩

/-- Multiplications of the base point compose, the scalars reduced modulo its order. -/
theorem scalarMult_scalarMult_base (hP : Rep c c.base P) (j k : Nat) :
    scalarMult c j (scalarMult c k c.base) = scalarMult c (j * k % c.n) c.base := by
  have hk : Rep c (scalarMult c k c.base) (k • P) := (rep_scalarMult_base hc k hP).1
  have hkn : c.n • (k • P) = 0 := by rw [← mul_nsmul, mul_nsmul', base_order hc hP, nsmul_zero]
  have hjk : j • (k • P) = (j * k % c.n) • P := by
    rw [← mul_nsmul', ← base_addOrderOf hc hP, mod_addOrderOf_nsmul]
  exact rep_inj (hjk ▸ rep_scalarMult hc j hk hkn) (rep_scalarMult_base hc _ hP).1

/-- A scalar in range is no multiple of the order. -/
theorem scalarMult_base_finite (hP : Rep c c.base P) {k : Nat} (h1 : 1 ≤ k) (hk : k ≤ c.n - 1) :
    (scalarMult c k c.base).inf = false := by
  have hpos := hc.n_prime.pos
  have hndvd : ¬ c.n ∣ k := Nat.not_dvd_of_pos_of_lt h1 (by omega)
  rwa [← (rep_scalarMult_base hc k hP).2, Bool.not_eq_true] at hndvd

theorem onCurve_of_generated (hA : Generated c A) : onCurve c A = true := by
  obtain ⟨P, hP, -⟩ := rep_of_generated hc hA
  exact onCurve_of_rep hc hP

end

/-- Settles O22: every generated point stands for a point of the group, where the laws hold. -/
theorem groupLaws : Obligations.GroupLaws := by
  intro c hc
  have : Fact c.p.Prime := ⟨hc.p_prime⟩
  obtain ⟨P, hP, -⟩ := rep_base hc
  have hrep : ∀ {A}, Generated c A → ∃ Q : c.toAffine.Point, Rep c A Q := fun hA => by
    obtain ⟨Q, hQ, -⟩ := rep_of_generated hc hA
    exact ⟨Q, hQ⟩
  refine ⟨⟨generated_infinity hc hP, fun A B hA hB =>
      ⟨generated_negPoint hc hP hA, generated_pointAdd hc hP hA hB⟩⟩,
    fun A B hA hB => ?_, fun A B C hA hB hC => ?_, fun A hA => ?_, fun j k => ?_,
    fun A B hA hB => ?_, fun k => ?_⟩
  · obtain ⟨_, hA⟩ := hrep hA
    obtain ⟨_, hB⟩ := hrep hB
    exact pointAdd_comm_of_rep hc hA hB
  · obtain ⟨_, hA⟩ := hrep hA
    obtain ⟨_, hB⟩ := hrep hB
    obtain ⟨_, hC⟩ := hrep hC
    exact pointAdd_assoc_of_rep hc hA hB hC
  · obtain ⟨_, hA⟩ := hrep hA
    have hidentity := pointAdd_infinity_of_rep hc hA
    exact ⟨hidentity, (pointAdd_comm_of_rep hc (rep_zero c) hA).trans hidentity,
      pointAdd_negPoint_of_rep hc hA⟩
  · exact ⟨scalarMult_scalarMult_base hc hP j k,
      mul_comm j k ▸ scalarMult_scalarMult_base hc hP k j⟩
  · exact ⟨onCurve_of_generated hc hA, onCurve_of_generated hc (generated_negPoint hc hP hA),
      onCurve_of_generated hc (generated_pointAdd hc hP hA hB)⟩
  · exact ⟨onCurve_of_generated hc ⟨k, rfl⟩, scalarMult_base_finite hc hP⟩

end Sys2Proof.Machine
end

section
/-! PROOFS, the hash. The check on the message length, and the digest of the message as the integer
that is written (43_hash.md R160, R162). -/

namespace Sys2Proof.Machine

open Sys2Proof.Safety

theorem decode_hash (d : FReg) : decode (commandWord 0x20 d 0 0 0) = .ok (.hash d) :=
  decode_commandWord (op := 0x20#8) (s1 := 0) (s2 := 0) (s3 := 0) rfl rfl

section
variable {s : State} (h : List Byte → Vector Byte 32)

theorem hashResult_of_too_long (hlen : 4096 < s.msglen.toNat) :
    hashResult h s = .error .badLength := if_pos hlen

theorem hashResult_of_fits (hlen : s.msglen.toNat ≤ 4096) :
    hashResult h s = .ok (digest h s.message) := if_neg (Nat.not_lt.2 hlen)

end

/-- Settles O23: the length decides between the two ends of the command; the message is the first
`MSGLEN` bytes, and its digest fits the register, byte 0 the most significant. -/
theorem hashWritesTheDigest : Obligations.HashWritesTheDigest := by
  intro d s
  refine ⟨decode_hash d, s.commitF d (hashResult Config.hash s), rfl, fun hlong => ?_,
    fun hfits => ?_⟩
  · rw [hashResult_of_too_long _ hlong]
    exact fails_fail s _
  · rw [hashResult_of_fits _ hfits, ← State.message_eq_ofFn]
    exact ⟨_, writesF_setF s d _, digest_toNat Config.hash s.message⟩

end Sys2Proof.Machine
end

section
/-! PROOFS, key generation and ECDH. The words of the two commands, the ends of each in the order of
its checks, and what the group laws of 42_curve.md R146 make of them (44_ecdh.md R170 to R172). -/

namespace Sys2Proof.Machine

open Sys2Proof.Safety

theorem decode_keygen (d : PReg) (s1 : FReg) :
    decode (commandWord 0x30 d s1 0 0) = .ok (.keygen d s1) :=
  decode_commandWord (op := 0x30#8) (d := pointField d) (s2 := 0) (s3 := 0) rfl
    (by simp only [encode, putP_eq_putF]; rfl)

theorem decode_ecdh (d s1 : FReg) (s2 : PReg) :
    decode (commandWord 0x31 d s1 s2 0) = .ok (.ecdh d s1 s2) :=
  decode_commandWord (op := 0x31#8) (s2 := pointField s2) (s3 := 0) rfl
    (by simp only [encode, putP_eq_putF]; rfl)

/-! ### Key generation (44_ecdh.md R170) -/

section
variable {c : Curve} {dk : Word256}

theorem inScalarRange_eq_false_iff :
    inScalarRange c dk = false ↔ dk.toNat < 1 ∨ c.n - 1 < dk.toNat := by
  rw [← Bool.not_eq_true, inScalarRange_iff]
  omega

theorem keygenResult_of_out_of_range (h : inScalarRange c dk = false) :
    keygenResult c dk = .error .invalidScalar := by
  simp [keygenResult, h]

theorem keygenResult_of_check_failed (hdk : inScalarRange c dk = true)
    (h : (scalarMult c dk.toNat c.base).inf = true
      ∨ onCurve c (scalarMult c dk.toNat c.base) = false) :
    keygenResult c dk = .error .keygenCheckFailed := by
  rcases h with h | h <;> simp [keygenResult, hdk, h]

theorem keygenResult_of_check_passed (hdk : inScalarRange c dk = true)
    (hfin : (scalarMult c dk.toNat c.base).inf = false)
    (hon : onCurve c (scalarMult c dk.toNat c.base) = true) :
    keygenResult c dk = .ok (scalarMult c dk.toNat c.base) := by
  simp [keygenResult, hdk, hfin, hon]

end

/-- Settles O25: the range check and the check of the multiple decide between the three ends of the
command. -/
theorem keygenMultipliesTheBasePoint : Obligations.KeygenMultipliesTheBasePoint := by
  refine ⟨fun c dk h1 hn => keygenResult_of_check_failed (inScalarRange_iff.2 ⟨h1, hn⟩),
    fun d s1 s => ⟨decode_keygen d s1,
      s.commitP d (keygenResult Config.curve (s.getF s1)), rfl, fun hout => ?_,
      fun h1 hn => ⟨fun hbad => ?_, fun hfin hon => ?_⟩⟩⟩
  · rw [keygenResult_of_out_of_range (inScalarRange_eq_false_iff.2 hout)]
    exact fails_fail s _
  · rw [keygenResult_of_check_failed (inScalarRange_iff.2 ⟨h1, hn⟩) hbad]
    exact fails_fail s _
  · rw [keygenResult_of_check_passed (inScalarRange_iff.2 ⟨h1, hn⟩) hfin hon]
    exact writesP_setP s d _

/-- Settles O26: by the group laws the multiple passes the check, which leaves the last end of
O25. -/
theorem keygenSucceedsInRange : Obligations.KeygenSucceedsInRange := by
  intro d s1 s h1 hn
  obtain ⟨-, -, -, -, -, -, hmultiple⟩ := groupLaws Config.curve Config.curve_admissible
  obtain ⟨hon, hfin⟩ := hmultiple (s.getF s1).toNat
  obtain ⟨-, hkeygen⟩ := keygenMultipliesTheBasePoint
  obtain ⟨-, t, hexec, -, hinRange⟩ := hkeygen d s1 s
  obtain ⟨-, hpassed⟩ := hinRange h1 hn
  have hwrites := hpassed (hfin h1 hn) hon
  have hd : t.getP d = scalarMult Config.curve (s.getF s1).toNat Config.curve.base := by
    obtain ⟨-, -, -, -, hP⟩ := hwrites
    rw [hP d, if_pos rfl]
  exact ⟨t, hexec, hwrites, hd ▸ hfin h1 hn, hd ▸ hon⟩

/-! ### Shared-key derivation (44_ecdh.md R171) -/

/-- `I2OSP` as its list of bytes: byte `j` holds the bits of weight `256 ^ (len - 1 - j)`
(00_scope.md R17). -/
theorem i2osp_eq_ofFn (x : Nat) : ∀ len : Nat,
    i2osp len x = List.ofFn fun j : Fin len => BitVec.ofNat 8 (x / 2 ^ (8 * (len - 1 - j.val)))
  | 0 => rfl
  | len + 1 => by
    rw [i2osp, i2osp_eq_ofFn x len, List.ofFn_succ, ← Nat.pow_mul (a := 2) (m := 8)]
    congr 2
    funext j
    rw [Fin.val_succ, Nat.add_sub_cancel, Nat.sub_add_eq, Nat.sub_right_comm]

section
variable {c : Curve} {Q : Point} (h : List Byte → Vector Byte 32) (dk : Word256)

theorem ecdhResult_of_invalid (hQ : Q.inf = true ∨ onCurve c Q = false) :
    ecdhResult c h dk Q = .error .invalidPublicKey := by
  rcases hQ with hQ | hQ <;> simp [ecdhResult, hQ]

theorem ecdhResult_of_degenerate (hfin : Q.inf = false) (hon : onCurve c Q = true)
    (hS : (scalarMult c dk.toNat Q).inf = true) :
    ecdhResult c h dk Q = .error .degenerateSecret := by
  simp [ecdhResult, hfin, hon, hS]

theorem ecdhResult_of_finite (hfin : Q.inf = false) (hon : onCurve c Q = true)
    (hS : (scalarMult c dk.toNat Q).inf = false) :
    ecdhResult c h dk Q
      = .ok (digest h (i2osp Config.xbytes (scalarMult c dk.toNat Q).x.toNat)) := by
  simp [ecdhResult, hfin, hon, hS]

end

/-- Settles O27: the checks of the public point and of the product decide between the three ends of
the command; the bytes hashed are those of `I2OSP`. -/
theorem ecdhDerivesTheSharedKey : Obligations.EcdhDerivesTheSharedKey := by
  intro d s1 s2 s
  refine ⟨decode_ecdh d s1 s2,
    s.commitF d (ecdhResult Config.curve Config.hash (s.getF s1) (s.getP s2)), rfl,
    fun hbad => ?_, fun hfin hon => ⟨fun hS => ?_, fun hS => ?_⟩⟩
  · rw [ecdhResult_of_invalid _ _ hbad]
    exact fails_fail s _
  · rw [ecdhResult_of_degenerate _ _ hfin hon hS]
    exact fails_fail s _
  · rw [ecdhResult_of_finite _ _ hfin hon hS, i2osp_eq_ofFn]
    exact ⟨_, writesF_setF s d _, digest_toNat Config.hash _⟩

/-! ### Both parties' keys (44_ecdh.md R172) -/

/-- The order being prime, it divides no product of two scalars in range. -/
theorem mul_mod_order_inRange {c : Curve} (hc : Config.Admissible c) {j k : Nat} (hj1 : 1 ≤ j)
    (hj : j ≤ c.n - 1) (hk1 : 1 ≤ k) (hk : k ≤ c.n - 1) :
    1 ≤ j * k % c.n ∧ j * k % c.n ≤ c.n - 1 := by
  have hpos := hc.n_prime.pos
  have hdvd : ¬ c.n ∣ j * k := hc.n_prime.not_dvd_mul
    (Nat.not_dvd_of_pos_of_lt hj1 (by omega)) (Nat.not_dvd_of_pos_of_lt hk1 (by omega))
  exact ⟨Nat.pos_of_ne_zero fun h => hdvd (Nat.dvd_of_mod_eq_zero h),
    Nat.le_sub_one_of_lt (Nat.mod_lt _ hpos)⟩

/-- The secret of two scalars in range is the multiple of `G` by their product modulo `n`, which is
not Infinity; the product does not tell which of the scalars is the private one. -/
theorem ecdhResult_scalarMult_base {c : Curve} (hc : Config.Admissible c)
    (h : List Byte → Vector Byte 32) {da db : Word256}
    (ha1 : 1 ≤ da.toNat) (ha : da.toNat ≤ c.n - 1) (hb1 : 1 ≤ db.toNat) (hb : db.toNat ≤ c.n - 1) :
    ecdhResult c h da (scalarMult c db.toNat c.base)
      = .ok (digest h (i2osp Config.xbytes
          (scalarMult c (da.toNat * db.toNat % c.n) c.base).x.toNat)) := by
  obtain ⟨-, -, -, -, hcomp, -, hmultiple⟩ := groupLaws c hc
  obtain ⟨hon, hfin⟩ := hmultiple db.toNat
  obtain ⟨-, hfinS⟩ := hmultiple (da.toNat * db.toNat % c.n)
  obtain ⟨hS, -⟩ := hcomp da.toNat db.toNat
  obtain ⟨h1, hn⟩ := mul_mod_order_inRange hc ha1 ha hb1 hb
  rw [← hS] at hfinS ⊢
  exact ecdhResult_of_finite h da (hfin hb1 hb) hon (hfinS h1 hn)

theorem exec_ecdh_of_ok {d s1 : FReg} {s2 : PReg} {s : State} {v : Word256}
    (hv : ecdhResult Config.curve Config.hash (s.getF s1) (s.getP s2) = .ok v) :
    ∃ t, exec (.ecdh d s1 s2) s = .next t ∧ WritesF d v s t := by
  refine ⟨s.commitF d (ecdhResult Config.curve Config.hash (s.getF s1) (s.getP s2)), rfl, ?_⟩
  rw [hv]
  exact writesF_setF s d v

/-- Settles O28: both commands derive the secret of the product of the two scalars. -/
theorem ecdhCommutes : Obligations.EcdhCommutes := by
  intro s a b d d' i j ha1 ha hb1 hb hi hj
  have hab := ecdhResult_scalarMult_base Config.curve_admissible Config.hash ha1 ha hb1 hb
  have hba := ecdhResult_scalarMult_base Config.curve_admissible Config.hash hb1 hb ha1 ha
  rw [← hj] at hab
  rw [← hi, mul_comm (s.getF b).toNat] at hba
  obtain ⟨t, hexec, hwrites⟩ := exec_ecdh_of_ok hab
  obtain ⟨t', hexec', hwrites'⟩ := exec_ecdh_of_ok hba
  exact ⟨t, t', _, hexec, hexec', hwrites, hwrites'⟩

end Sys2Proof.Machine
end

section
/-! PROOFS, ECDSA. The words of the two commands, the ends of the signer in the order of its checks,
the verifier's answer as one condition, and why it accepts what the signer writes: the point that it
recomputes is the signer's nonce point (45_ecdsa.md R180, R181, R183). -/

namespace Sys2Proof.Machine

open Sys2Proof.Safety

/-! ### Pairs of registers and the words of the commands (30_encoding.md R91, R100) -/

/-- A register with a successor names a well-formed pair, whose second register it is. -/
theorem pair_of_val_eq_succ {d d' : FReg} (h : d'.val = d.val + 1) :
    FPair.ok d = true ∧ pairSecond d = d' := by
  have hok : FPair.ok d = true := decide_eq_true (by omega)
  exact ⟨hok, Fin.ext ((pairSecond_val hok).trans h.symm)⟩

theorem decode_ecdsaSign {d : FPair} (hok : FPair.ok d = true) (s1 s2 s3 : FReg) :
    decode (commandWord 0x38 d s1 s2 s3) = .ok (.ecdsaSign d s1 s2 s3) :=
  decode_commandWord (op := 0x38#8) hok rfl

theorem decode_ecdsaVerify {s2 : FPair} (hok : FPair.ok s2 = true) (d s1 : FReg) (s3 : PReg) :
    decode (commandWord 0x39 d s1 s2 s3) = .ok (.ecdsaVerify d s1 s2 s3) :=
  decode_commandWord (op := 0x39#8) (s3 := pointField s3) hok
    (by simp only [encode, putP_eq_putF]; rfl)

theorem exec_ecdsaSign {d : FPair} (hok : FPair.ok d = true) (s1 s2 s3 : FReg) (s : State) :
    exec (.ecdsaSign d s1 s2 s3) s
      = .next (s.commitPair d (signResult Config.curve (s.getF s1) (s.getF s2) (s.getF s3))) := by
  simp [exec, execEcdsaSign, hok]

theorem exec_ecdsaVerify {s2 : FPair} (hok : FPair.ok s2 = true) (d s1 : FReg) (s3 : PReg)
    (s : State) :
    exec (.ecdsaVerify d s1 s2 s3) s
      = .next (s.commitF d (.ok (boolWord (verifyAccepts Config.curve
          (s.getF s1) (s.getF s2) (s.getF (pairSecond s2)) (s.getP s3))))) := by
  simp [exec, execEcdsaVerify, hok]

/-! ### The signer (45_ecdsa.md R180) -/

/-- The first half of a signature: `R.x mod n` for the nonce point `R`. -/
def signatureR (c : Curve) (k : Word256) : Nat := (scalarMult c k.toNat c.base).x.toNat % c.n

/-- The second half of a signature: the inverse of the nonce times `z + r * dk`, modulo `n`. -/
def signatureS (c : Curve) (e dk k : Word256) : Nat :=
  invMod k.toNat c.n * ((e.toNat % c.n + signatureR c k * dk.toNat) % c.n) % c.n

/-- The inverse written out as the Fermat power (00_scope.md R19). -/
theorem signatureS_eq {c : Curve} (hc : Config.Admissible c) (e dk k : Word256) :
    signatureS c e dk k = (k.toNat % c.n) ^ (c.n - 2) % c.n
      * ((e.toNat % c.n + signatureR c k * dk.toNat) % c.n) % c.n := by
  rw [signatureS, invMod_eq _ hc.n_prime.pos hc.n_lt, residue_natCast]

/-- A remainder modulo the order fits a register. -/
theorem toNat_ofNat_mod_order {c : Curve} (hc : Config.Admissible c) (v : Nat) :
    (BitVec.ofNat 256 (v % c.n)).toNat = v % c.n := by
  rw [BitVec.toNat_ofNat, Nat.mod_eq_of_lt ((Nat.mod_lt v hc.n_prime.pos).trans hc.n_lt)]

/-- A remainder modulo the order that is not 0 is in range. -/
theorem inScalarRange_mod_order {c : Curve} (hc : Config.Admissible c) {v : Nat}
    (hv : v % c.n ≠ 0) : inScalarRange c (BitVec.ofNat 256 (v % c.n)) = true := by
  rw [inScalarRange_iff, toNat_ofNat_mod_order hc]
  exact ⟨Nat.pos_of_ne_zero hv, Nat.le_sub_one_of_lt (Nat.mod_lt v hc.n_prime.pos)⟩

section
variable {c : Curve} {e dk k : Word256}

theorem signResult_of_out_of_range (h : inScalarRange c dk = false ∨ inScalarRange c k = false) :
    signResult c e dk k = .error .invalidScalar := by
  rcases h with h | h <;> simp [signResult, h]

/-- The checks of the attempt itself, once both scalars are in range. -/
theorem signResult_of_inRange (hdk : inScalarRange c dk = true) (hk : inScalarRange c k = true) :
    signResult c e dk k =
      if (scalarMult c k.toNat c.base).inf then .error .nonceRejected
      else if signatureR c k = 0 then .error .nonceRejected
      else if signatureS c e dk k = 0 then .error .nonceRejected
      else .ok (BitVec.ofNat 256 (signatureR c k), BitVec.ofNat 256 (signatureS c e dk k)) := by
  rw [signResult, hdk, hk]
  rfl

theorem signResult_of_rejected (hdk : inScalarRange c dk = true) (hk : inScalarRange c k = true)
    (h : (scalarMult c k.toNat c.base).inf = true ∨ signatureR c k = 0 ∨ signatureS c e dk k = 0) :
    signResult c e dk k = .error .nonceRejected := by
  rcases h with h | h | h <;> simp [signResult_of_inRange hdk hk, h]

theorem signResult_of_signed (hdk : inScalarRange c dk = true) (hk : inScalarRange c k = true)
    (hfin : (scalarMult c k.toNat c.base).inf = false) (hr : signatureR c k ≠ 0)
    (hs : signatureS c e dk k ≠ 0) :
    signResult c e dk k
      = .ok (BitVec.ofNat 256 (signatureR c k), BitVec.ofNat 256 (signatureS c e dk k)) := by
  simp [signResult_of_inRange hdk hk, hfin, hr, hs]

/-- Everything an attempt can end in. -/
theorem signResult_cases (c : Curve) (e dk k : Word256) :
    signResult c e dk k = .error .invalidScalar
    ∨ signResult c e dk k = .error .nonceRejected
    ∨ (inScalarRange c dk = true ∧ inScalarRange c k = true
        ∧ (scalarMult c k.toNat c.base).inf = false ∧ signatureR c k ≠ 0 ∧ signatureS c e dk k ≠ 0
        ∧ signResult c e dk k
          = .ok (BitVec.ofNat 256 (signatureR c k), BitVec.ofNat 256 (signatureS c e dk k))) := by
  by_cases hout : inScalarRange c dk = false ∨ inScalarRange c k = false
  · exact .inl (signResult_of_out_of_range hout)
  simp only [not_or, Bool.not_eq_false] at hout
  obtain ⟨hdk, hk⟩ := hout
  by_cases hrej : (scalarMult c k.toNat c.base).inf = true
      ∨ signatureR c k = 0 ∨ signatureS c e dk k = 0
  · exact .inr (.inl (signResult_of_rejected hdk hk hrej))
  simp only [not_or, Bool.not_eq_true] at hrej
  obtain ⟨hfin, hr, hs⟩ := hrej
  exact .inr (.inr ⟨hdk, hk, hfin, hr, hs, signResult_of_signed hdk hk hfin hr hs⟩)

end

/-- Settles O29: the range checks and the checks of the attempt decide between the three ends of the
command; both halves are remainders modulo `n`, so they fit their registers. -/
theorem ecdsaSignMakesOneAttempt : Obligations.EcdsaSignMakesOneAttempt := by
  intro d d' s1 s2 s3 s hd n e dk k R r sg
  obtain ⟨hok, rfl⟩ := pair_of_val_eq_succ hd
  have hc := Config.curve_admissible
  have hsg : signatureS Config.curve (s.getF s1) (s.getF s2) (s.getF s3) = sg :=
    signatureS_eq hc _ _ _
  refine ⟨decode_ecdsaSign hok s1 s2 s3, _, exec_ecdsaSign hok s1 s2 s3 s, fun hout => ?_,
    fun hdk1 hdk hk1 hk => ⟨fun hrej => ?_, fun hfin hr hs => ?_⟩⟩
  · rw [← or_assoc, ← inScalarRange_eq_false_iff, ← inScalarRange_eq_false_iff] at hout
    rw [signResult_of_out_of_range hout]
    exact fails_fail s _
  · rw [← hsg] at hrej
    rw [signResult_of_rejected (inScalarRange_iff.2 ⟨hdk1, hdk⟩) (inScalarRange_iff.2 ⟨hk1, hk⟩)
      hrej]
    exact fails_fail s _
  · rw [signResult_of_signed (inScalarRange_iff.2 ⟨hdk1, hdk⟩) (inScalarRange_iff.2 ⟨hk1, hk⟩)
      hfin hr (hsg ▸ hs)]
    exact ⟨_, _, toNat_ofNat_mod_order hc _, (toNat_ofNat_mod_order hc _).trans hsg,
      writesTwoF_setF s _ _ (pairSecond_ne hok).symm⟩

/-! ### The verifier (45_ecdsa.md R181) -/

/-- The point `X = u1 * G + u2 * Q` that the verifier recomputes. -/
def verifyPoint (c : Curve) (e r s : Word256) (Q : Point) : Point :=
  pointAdd c (scalarMult c (e.toNat % c.n * invMod s.toNat c.n % c.n) c.base)
    (scalarMult c (r.toNat * invMod s.toNat c.n % c.n) Q)

theorem verifyAccepts_iff {c : Curve} {e r s : Word256} {Q : Point} :
    verifyAccepts c e r s Q = true ↔
      inScalarRange c r = true ∧ inScalarRange c s = true ∧ Q.inf = false ∧ onCurve c Q = true
        ∧ (verifyPoint c e r s Q).inf = false
        ∧ (verifyPoint c e r s Q).x.toNat % c.n = r.toNat := by
  unfold verifyAccepts
  split
  next hrange =>
    rw [Bool.or_eq_true, Bool.not_eq_true', Bool.not_eq_true'] at hrange
    rcases hrange with h | h <;> simp [h]
  next hrange =>
    simp only [Bool.or_eq_true, Bool.not_eq_true', not_or, Bool.not_eq_false] at hrange
    obtain ⟨hr, hs⟩ := hrange
    split
    next hQ =>
      rw [Bool.or_eq_true, Bool.not_eq_true'] at hQ
      rcases hQ with h | h <;> simp [h]
    next hQ =>
      simp only [Bool.or_eq_true, Bool.not_eq_true', not_or, Bool.not_eq_true,
        Bool.not_eq_false] at hQ
      obtain ⟨hfin, hon⟩ := hQ
      simp [hr, hs, hfin, hon, verifyPoint]

/-- Settles O30: the word written is the verifier's answer, and each range check is a pair of
bounds. -/
theorem ecdsaVerifyDecides : Obligations.EcdsaVerifyDecides := by
  intro d s1 s2 s2' s3 s hs2 n e r sg Q w X
  obtain ⟨hok, rfl⟩ := pair_of_val_eq_succ hs2
  have hw : invMod sg n = w := by
    rw [invMod_eq _ Config.curve_admissible.n_prime.pos Config.curve_admissible.n_lt,
      residue_natCast]
  have hX : verifyPoint Config.curve (s.getF s1) (s.getF s2) (s.getF (pairSecond s2)) Q = X := by
    rw [verifyPoint, hw]
  refine ⟨decode_ecdsaVerify hok d s1 s3, _, _, exec_ecdsaVerify hok d s1 s3 s,
    writesF_setF s d _, boolWord_eq_zero_or_one _, ?_⟩
  rw [boolWord_eq_one, verifyAccepts_iff, inScalarRange_iff, inScalarRange_iff, hX, and_assoc,
    and_assoc]

/-! ### What is signed is accepted (45_ecdsa.md R183) -/

/-- The verifier's two scalars recover the nonce: with `s = (z + r * dk) / k`, the sum
`z / s + (r / s) * dk` is `k` (the products reduced as the verifier reduces them). -/
theorem verifier_scalars_modEq_nonce {c : Curve} (hc : Config.Admissible c) {e dk k : Word256}
    (hk : inScalarRange c k = true) (hs : signatureS c e dk k ≠ 0) :
    e.toNat % c.n * invMod (signatureS c e dk k) c.n % c.n
        + signatureR c k * invMod (signatureS c e dk k) c.n % c.n * dk.toNat % c.n
      ≡ k.toNat [MOD c.n] := by
  have : Fact c.n.Prime := ⟨hc.n_prime⟩
  obtain ⟨hk1, hkn⟩ := inScalarRange_iff.1 hk
  have hpos := hc.n_prime.pos
  have hk0 : (k.toNat : ZMod c.n) ≠ 0 := by
    rw [Ne, ZMod.natCast_eq_zero_iff]
    exact Nat.not_dvd_of_pos_of_lt hk1 (by omega)
  have hs0 : (signatureS c e dk k : ZMod c.n) ≠ 0 := by
    rw [Ne, ZMod.natCast_eq_zero_iff]
    exact Nat.not_dvd_of_pos_of_lt (Nat.pos_of_ne_zero hs) (Nat.mod_lt _ hpos)
  have hsk : (signatureS c e dk k : ZMod c.n) * k.toNat
      = e.toNat + signatureR c k * dk.toNat := by
    rw [signatureS, ZMod.natCast_mod, Nat.cast_mul, invMod_zmod _ hc.n_ge hc.n_lt, ZMod.natCast_mod,
      Int.cast_natCast, mul_comm, mul_inv_cancel_left₀ hk0]
    push_cast
    rw [ZMod.natCast_mod]
  rw [← ZMod.natCast_eq_natCast_iff]
  push_cast [ZMod.natCast_mod, invMod_zmod _ hc.n_ge hc.n_lt]
  calc _ = (e.toNat + signatureR c k * dk.toNat) * (signatureS c e dk k : ZMod c.n)⁻¹ := by ring
    _ = k.toNat := by rw [← hsk, mul_comm, inv_mul_cancel_left₀ hs0]

/-- Multiples of the base point add by adding their scalars, modulo its order. -/
theorem pointAdd_scalarMult_base {c : Curve} (hc : Config.Admissible c) {i j k : Nat}
    (h : i + j ≡ k [MOD c.n]) :
    pointAdd c (scalarMult c i c.base) (scalarMult c j c.base) = scalarMult c k c.base := by
  have : Fact c.p.Prime := ⟨hc.p_prime⟩
  obtain ⟨P, hP, -⟩ := rep_base hc
  have hrep (m : Nat) : Rep c (scalarMult c m c.base) (m • P) := (rep_scalarMult_base hc m hP).1
  have hsum : (i + j) • P = k • P := by
    rwa [nsmul_eq_nsmul_iff_modEq, base_addOrderOf hc hP]
  exact rep_inj (hsum ▸ add_nsmul P i j ▸ rep_add hc (hrep i) (hrep j)) (hrep k)

/-- With the signer's public point the verifier recomputes the signer's nonce point. -/
theorem verifyPoint_of_signed {c : Curve} (hc : Config.Admissible c) {e dk k : Word256}
    (hk : inScalarRange c k = true) (hs : signatureS c e dk k ≠ 0) :
    verifyPoint c e (BitVec.ofNat 256 (signatureR c k)) (BitVec.ofNat 256 (signatureS c e dk k))
        (scalarMult c dk.toNat c.base)
      = scalarMult c k.toNat c.base := by
  have hr : (BitVec.ofNat 256 (signatureR c k)).toNat = signatureR c k :=
    toNat_ofNat_mod_order hc _
  have hs' : (BitVec.ofNat 256 (signatureS c e dk k)).toNat = signatureS c e dk k :=
    toNat_ofNat_mod_order hc _
  obtain ⟨-, -, -, -, hcomp, -, -⟩ := groupLaws c hc
  obtain ⟨hQ, -⟩ := hcomp (signatureR c k * invMod (signatureS c e dk k) c.n % c.n) dk.toNat
  rw [verifyPoint, hr, hs', hQ]
  exact pointAdd_scalarMult_base hc (verifier_scalars_modEq_nonce hc hk hs)

/-- The computations of O31: the point recomputed is the nonce point, whose x-coordinate gave
the first half of the signature. -/
theorem verifyAccepts_of_signResult {c : Curve} {e dk k r sg : Word256} (hc : Config.Admissible c)
    (h : signResult c e dk k = .ok (r, sg)) :
    verifyAccepts c e r sg (scalarMult c dk.toNat c.base) = true := by
  rcases signResult_cases c e dk k with hres | hres | ⟨hdk, hk, hfin, hr, hs, hres⟩
  case inl => cases hres.symm.trans h
  case inr.inl => cases hres.symm.trans h
  case inr.inr =>
    cases hres.symm.trans h
    have hX := verifyPoint_of_signed hc hk hs
    obtain ⟨hdk1, hdkn⟩ := inScalarRange_iff.1 hdk
    obtain ⟨-, -, -, -, -, -, hmultiple⟩ := groupLaws c hc
    obtain ⟨hon, hfinQ⟩ := hmultiple dk.toNat
    exact verifyAccepts_iff.2 ⟨inScalarRange_mod_order hc hr, inScalarRange_mod_order hc hs,
      hfinQ hdk1 hdkn, hon, hX ▸ hfin, hX ▸ (toNat_ofNat_mod_order hc _).symm⟩

/-- A command that ends with `OK` has signed. -/
theorem commitPair_signResult_ok {c : Curve} {e dk k : Word256} {d : FPair} {s : State}
    (hok : FPair.ok d = true) (h : (s.commitPair d (signResult c e dk k)).err = .ok) :
    ∃ r sg, signResult c e dk k = .ok (r, sg)
      ∧ WritesTwoF d (pairSecond d) r sg s (s.commitPair d (signResult c e dk k)) := by
  rcases signResult_cases c e dk k with hres | hres | ⟨-, -, -, -, -, hres⟩
  · rw [hres] at h
    cases h
  · rw [hres] at h
    cases h
  · rw [hres]
    exact ⟨_, _, rfl, writesTwoF_setF s _ _ (pairSecond_ne hok).symm⟩

/-- Settles O31: a signer that ended with `OK` wrote its signature, and the verifier's operands are
that signature, the same digest and the public point. -/
theorem signThenVerifyAccepts : Obligations.SignThenVerifyAccepts := by
  refine ⟨fun c e dk k r sg hc => verifyAccepts_of_signResult hc, ?_⟩
  intro s t u d d' s1 s2 s3 x e q hd hexec herr hud hud' hue huq
  obtain ⟨hok, rfl⟩ := pair_of_val_eq_succ hd
  rw [exec_ecdsaSign hok, Host.Outcome.next.injEq] at hexec
  subst hexec
  obtain ⟨r, sg, hsign, -, -, -, hF, -⟩ := commitPair_signResult_ok hok herr
  have hr : u.getF d = r := by rw [hud, hF, if_pos rfl]
  have hsg : u.getF (pairSecond d) = sg := by
    rw [hud', hF, if_neg (pairSecond_ne hok), if_pos rfl]
  have haccepts := verifyAccepts_of_signResult Config.curve_admissible hsign
  refine ⟨_, exec_ecdsaVerify hok x e q u, ?_⟩
  rw [hr, hsg, hue, huq, haccepts]
  exact writesF_setF u x _

end Sys2Proof.Machine
end

section
/-! PROOFS, the Feistel rounds. The rounds of a sequence are undone between two swaps by the rounds
of the reverse sequence, and each of the two sequences is the reverse of the other
(46_cipher.md R190 to R195). -/

namespace Sys2Proof.Machine

/-- The four passes over the subkeys that `ENC_SEQ` is made of (46_cipher.md R192). -/
theorem encSeq_eq_passes :
    encSeq = [0, 1, 2, 3, 4, 5, 6, 7] ++ [0, 1, 2, 3, 4, 5, 6, 7] ++ [0, 1, 2, 3, 4, 5, 6, 7]
      ++ [0, 1, 2, 3, 4, 5, 6, 7].reverse := rfl

/-- The four passes over the subkeys that `DEC_SEQ` is made of (46_cipher.md R192). -/
theorem decSeq_eq_passes :
    decSeq = [0, 1, 2, 3, 4, 5, 6, 7] ++ [0, 1, 2, 3, 4, 5, 6, 7].reverse
      ++ [0, 1, 2, 3, 4, 5, 6, 7].reverse ++ [0, 1, 2, 3, 4, 5, 6, 7].reverse := rfl

theorem encSeq_reverse : encSeq.reverse = decSeq := rfl

theorem decSeq_reverse : decSeq.reverse = encSeq := rfl

section
variable (sbox : Fin 8 → BitVec 4 → BitVec 4)

theorem runRounds_cons (key : Vector Word32 8) (i : KIdx) (seq : List KIdx) (x : Block) :
    runRounds sbox key (i :: seq) x = runRounds sbox key seq (feistelRound sbox x key[i]) := rfl

/-- The reverse sequence undoes the rounds between two swaps: its last round undoes the first one,
as the rounds before it have undone the others. -/
theorem runRounds_reverse_undo (key : Vector Word32 8) (seq : List KIdx) (x : Block) :
    runRounds sbox key seq.reverse (swapHalves (runRounds sbox key seq x)) = swapHalves x := by
  induction seq generalizing x with
  | nil => rfl
  | cons i seq ih =>
    rw [List.reverse_cons, runRounds_append, runRounds_cons sbox key i seq x, ih]
    exact feistelRound_undo sbox x key[i]

/-- The value of two words joined, the first the more significant. -/
theorem toNat_append_eq {n m : Nat} (x : BitVec n) (y : BitVec m) :
    (x ++ y).toNat = x.toNat * 2 ^ m + y.toNat := by
  rw [BitVec.toNat_append, ← Nat.shiftLeft_add_eq_or_of_lt y.isLt, Nat.shiftLeft_eq]

/-- The substituted word as an integer: nibble `b` has the weight `2^(4b)` (46_cipher.md R190). -/
theorem toNat_substitute (t : Word32) :
    (substitute sbox t).toNat
      = ∑ b : Fin 8, (sbox b (t.extractLsb' (4 * b.val) 4)).toNat * 2 ^ (4 * b.val) := by
  simp only [substitute, toNat_append_eq, Fin.sum_univ_eight, Fin.coe_ofNat_eq_mod]
  ring

end

/-- Settles O36: of encryption and decryption each runs the reverse of the other's sequence, and the
swap at the end of one is the swap before the other's rounds. -/
theorem decryptionInvertsEncryption : Obligations.DecryptionInvertsEncryption := by
  intro sbox key x
  constructor
  · rw [decryptBlock, encryptBlock, ← encSeq_reverse, runRounds_reverse_undo,
      swapHalves_swapHalves]
  · rw [encryptBlock, decryptBlock, ← decSeq_reverse, runRounds_reverse_undo,
      swapHalves_swapHalves]

end Sys2Proof.Machine
end

section
/-! PROOFS, the cipher commands. Their words, the frames of the commands that write `BLK`, and the
rounds run command by command (46_cipher.md R194 to R201). -/

namespace Sys2Proof.Machine

open Sys2Proof.Safety

/-! ### What the commands write -/

theorem writesCipher_commitBlk (s : State) (x : Block) :
    WritesCipher s.getKey x s.chain s (s.commitBlk x) :=
  writesCipher_set s s.key x s.chain

theorem writesCipher_commitBlkChain (s : State) (x c : Block) :
    WritesCipher s.getKey x c s (s.commitBlkChain x c) :=
  writesCipher_set s s.key x c

/-- Of two commands that write `BLK`, the second leaves no trace of the first. -/
@[simp] theorem State.commitBlk_commitBlk (s : State) (x y : Block) :
    (s.commitBlk x).commitBlk y = s.commitBlk y := rfl

/-! ### The words -/

/-- A subkey index is put into its four-bit field as a point register's is (30_encoding.md R91). -/
theorem putKIdx_eq_putF (i : KIdx) : putKIdx i = putF (pointField i) := putP_eq_putF i

theorem decode_fround (i : KIdx) : decode (commandWord 0x54 0 i 0 0) = .ok (.fround i) :=
  decode_commandWord (op := 0x54#8) (d := 0) (s1 := pointField i) (s2 := 0) (s3 := 0) rfl
    (by simp only [encode, putKIdx_eq_putF]; rfl)

theorem decode_keyldf (s1 : FReg) : decode (commandWord 0x56 0 s1 0 0) = .ok (.keyldf s1) :=
  decode_commandWord (op := 0x56#8) (d := 0) (s2 := 0) (s3 := 0) rfl rfl

/-- A command without operands is decoded from the word that is its opcode alone. -/
theorem decode_commandWord_op {i : Instr} {op : BitVec 8} (hwf : i.wf = true)
    (henc : encode i = pack op 0 0 0 0) : decode (commandWord op.toNat 0 0 0 0) = .ok i :=
  decode_commandWord (d := 0) (s1 := 0) (s2 := 0) (s3 := 0) hwf henc

/-! ### The commands -/

/-- Settles O32: the round of R191, whose substituted word is the sum over the nibbles and whose
rotation is the two shifts of 00_scope.md R15. -/
theorem froundIsOneFeistelRound : Obligations.FroundIsOneFeistelRound := by
  intro i s
  refine ⟨decode_fround i, substitute Config.sbox (rightHalf s.blk + s.getKey i),
    s.commitBlk (feistelRound Config.sbox s.blk (s.getKey i)), rfl, toNat_substitute _ _, ?_⟩
  have hrotate (u : Word32) : u.rotateLeft 11 = u <<< 11 ||| u >>> 21 := BitVec.rotateLeft_def
  rw [← hrotate]
  exact writesCipher_commitBlk s _

/-- Settles O33: the two block commands are the rounds of their sequence and a swap. -/
theorem blockCommandsWriteBlkInPlace : Obligations.BlockCommandsWriteBlkInPlace := by
  intro s
  dsimp only
  rw [← encSeq_eq_passes, ← decSeq_eq_passes]
  exact ⟨⟨decode_commandWord_op (op := 0x50#8) rfl rfl, _, rfl, writesCipher_commitBlk s _⟩,
    ⟨decode_commandWord_op (op := 0x51#8) rfl rfl, _, rfl, writesCipher_commitBlk s _⟩,
    ⟨decode_commandWord_op (op := 0x55#8) rfl rfl, _, rfl, writesCipher_commitBlk s _⟩⟩

/-- Settles O34: each command commits `BLK` and `CHAIN` together. -/
theorem cbcCommandsChainTheCiphertext : Obligations.CbcCommandsChainTheCiphertext := fun s =>
  ⟨⟨decode_commandWord_op (op := 0x52#8) rfl rfl, _, _, rfl, rfl,
      writesCipher_commitBlkChain s _ _⟩,
    ⟨decode_commandWord_op (op := 0x53#8) rfl rfl, _, rfl, writesCipher_commitBlkChain s _ _⟩⟩

/-- Subkey `i` of a field register, as an integer (46_cipher.md R200). -/
theorem toNat_subkeysOf (v : Word256) (i : KIdx) :
    (subkeysOf v)[i].toNat = v.toNat / 2 ^ (224 - 32 * i.val) % 2 ^ 32 := by
  simp [subkeysOf, Nat.shiftRight_eq_div_pow]

/-- Settles O35: the subkeys of the field register replace `KEY`. -/
theorem keyldfLoadsTheSubkeys : Obligations.KeyldfLoadsTheSubkeys := fun s1 s =>
  ⟨decode_keyldf s1, _, fun i => (subkeysOf (s.getF s1))[i], rfl, toNat_subkeysOf (s.getF s1),
    writesCipher_set s (subkeysOf (s.getF s1)) s.blk s.chain⟩

/-! ### Round by round -/

/-- The rounds of a sequence as commands, and then `FSWAP`, write what the rounds and the swap
compute: each `FROUND` leaves `KEY` for the next. -/
theorem runCommands_fround_fswap (seq : List KIdx) (s : State) :
    runCommands (seq.map Instr.fround ++ [.fswap]) s
      = some (s.commitBlk (swapHalves (runRounds Config.sbox s.key seq s.blk))) := by
  induction seq generalizing s with
  | nil => rfl
  | cons i seq ih =>
    have hround : runCommands ((i :: seq).map Instr.fround ++ [.fswap]) s
        = runCommands (seq.map Instr.fround ++ [.fswap])
            (s.commitBlk (feistelRound Config.sbox s.blk s.key[i])) := rfl
    rw [hround, ih, State.commitBlk_commitBlk, State.commitBlk_key, State.commitBlk_blk,
      runRounds_cons]

/-- Settles O37: a block command commits the same block. -/
theorem roundByRoundEqualsBlockCommand : Obligations.RoundByRoundEqualsBlockCommand := fun s =>
  ⟨⟨_, rfl, runCommands_fround_fswap encSeq s⟩, ⟨_, rfl, runCommands_fround_fswap decSeq s⟩⟩

end Sys2Proof.Machine
end

section
/-! PROOFS, the host's CBC procedures. Byte strings as blocks, the padding and its removal, and that
the blocks encrypted by one idle device are decrypted by any idle device that holds the same `KEY`
and `CHAIN` (46_cipher.md R202 to R206). -/

namespace Sys2Proof.Machine

/-! ### Byte strings and blocks -/

/-- The byte string of a list of 8-byte blocks: what `chunks8` cuts. -/
def joinBlocks (xs : List (Vector Byte 8)) : List Byte := xs.flatMap Vector.toList

@[simp] theorem joinBlocks_nil : joinBlocks [] = [] := rfl

@[simp] theorem joinBlocks_cons (x : Vector Byte 8) (xs : List (Vector Byte 8)) :
    joinBlocks (x :: xs) = x.toList ++ joinBlocks xs := rfl

@[simp] theorem length_joinBlocks (xs : List (Vector Byte 8)) :
    (joinBlocks xs).length = 8 * xs.length := by
  induction xs with
  | nil => rfl
  | cons x xs ih =>
    rw [joinBlocks_cons, List.length_append, Vector.length_toList, ih, List.length_cons]
    omega

theorem chunks8_toList_append (x : Vector Byte 8) (l : List Byte) :
    chunks8 (x.toList ++ l) = x :: chunks8 l := by
  match x with
  | ⟨⟨[_, _, _, _, _, _, _, _]⟩, _⟩ => rfl

@[simp] theorem chunks8_joinBlocks (xs : List (Vector Byte 8)) : chunks8 (joinBlocks xs) = xs := by
  induction xs with
  | nil => rfl
  | cons x xs ih => rw [joinBlocks_cons, chunks8_toList_append, ih]

/-- A byte string of `8n` bytes is made of blocks. -/
theorem exists_joinBlocks (n : Nat) {l : List Byte} (h : l.length = 8 * n) :
    ∃ xs, joinBlocks xs = l := by
  induction n generalizing l with
  | zero => exact ⟨[], (List.length_eq_zero_iff.1 h).symm⟩
  | succ n ih =>
    obtain ⟨xs, hxs⟩ := ih (l := l.drop 8) (by rw [List.length_drop]; omega)
    have hfirst : (l.take 8).toArray.size = 8 := by
      rw [List.size_toArray, List.length_take]; omega
    exact ⟨⟨(l.take 8).toArray, hfirst⟩ :: xs, by simp [hxs]⟩

/-! ### Padding (46_cipher.md R203, R205) -/

/-- A byte string that ends in `n` bytes of value `n` is unpadded to what stands before them. -/
theorem unpad_append_replicate (pt : List Byte) {n : Nat} (hlo : 1 ≤ n) (hhi : n ≤ 8) :
    unpad (pt ++ List.replicate n (BitVec.ofNat 8 n)) = some pt := by
  have hlast : (pt ++ List.replicate n (BitVec.ofNat 8 n)).getLast? = some (BitVec.ofNat 8 n) := by
    rw [List.getLast?_append, List.getLast?_replicate, if_neg (by omega), Option.some_or]
  have hval : (BitVec.ofNat 8 n).toNat = n := by rw [BitVec.toNat_ofNat]; omega
  have hlen : (pt ++ List.replicate n (BitVec.ofNat 8 n)).length - n = pt.length := by simp
  simp only [unpad, hlast, hval, hlen, List.drop_left, List.take_left]
  rw [if_neg (by omega), if_pos (by simp)]

theorem unpad_pad (pt : List Byte) : unpad (pad pt) = some pt :=
  unpad_append_replicate pt (by omega) (by omega)

/-- The padded byte string is made of whole blocks, at least one. -/
theorem length_pad (pt : List Byte) : (pad pt).length = 8 * (pt.length / 8 + 1) := by
  rw [pad, List.length_append, List.length_replicate]
  omega

/-! ### Blocks through the device -/

section
variable (maps : ByteMaps)

theorem cbcBlocks_nil (w : Word32) (s : State) : cbcBlocks maps w [] s = .ok ([], s) := rfl

/-- One block and then the others, where each part succeeds. -/
theorem cbcBlocks_cons {w : Word32} {x y : Vector Byte 8} {xs ys : List (Vector Byte 8)}
    {s t u : State} (hx : cbcBlock maps w x s = .ok (y, t))
    (hxs : cbcBlocks maps w xs t = .ok (joinBlocks ys, u)) :
    cbcBlocks maps w (x :: xs) s = .ok (joinBlocks (y :: ys), u) := by
  simp only [cbcBlocks, hx, hxs, bind, Except.bind]
  rfl

/-- The block that `CBCENC` writes decrypts, under the same `KEY` and `CHAIN`, to the block that was
encrypted (46_cipher.md R197, R198). -/
theorem decryptBlock_xor_encryptBlock (key : Vector Word32 8) (x c : Block) :
    decryptBlock Config.sbox key (encryptBlock Config.sbox key (x ^^^ c)) ^^^ c = x := by
  obtain ⟨hinverse, -⟩ := decryptionInvertsEncryption Config.sbox key (x ^^^ c)
  rw [hinverse, BitVec.xor_assoc, BitVec.xor_self, BitVec.xor_zero]

/-- One block encrypted on one idle device is decrypted by any that agrees in `KEY` and `CHAIN`, and
the two agree again afterwards: `CHAIN` is the ciphertext block on both. -/
theorem cbcBlock_roundTrip (x : Vector Byte 8) {s : State} (hs : s.busy = false) :
    ∃ y t, cbcBlock maps (encode .cbcenc) x s = .ok (y, t) ∧ t.busy = false
      ∧ ∀ u : State, u.busy = false → u.key = s.key → u.chain = s.chain →
          ∃ v, cbcBlock maps (encode .cbcdec) y u = .ok (x, v) ∧ v.busy = false
            ∧ v.key = t.key ∧ v.chain = t.chain := by
  refine ⟨_, _, cbcBlock_encrypt maps x hs, rfl, fun u hu hkey hchain => ?_⟩
  have hdec := cbcBlock_decrypt maps
    (maps.blockmap.symm (encryptBlock Config.sbox s.key (maps.blockmap x ^^^ s.chain))) hu
  dsimp only at hdec
  rw [Equiv.apply_symm_apply, hkey, hchain, decryptBlock_xor_encryptBlock,
    Equiv.symm_apply_apply] at hdec
  exact ⟨_, hdec, rfl, rfl, rfl⟩

/-- The same of a list of blocks. -/
theorem cbcBlocks_roundTrip (xs : List (Vector Byte 8)) {s : State} (hs : s.busy = false) :
    ∃ ys t, cbcBlocks maps (encode .cbcenc) xs s = .ok (joinBlocks ys, t) ∧ t.busy = false
      ∧ ys.length = xs.length
      ∧ ∀ u : State, u.busy = false → u.key = s.key → u.chain = s.chain →
          ∃ v, cbcBlocks maps (encode .cbcdec) ys u = .ok (joinBlocks xs, v) := by
  induction xs generalizing s with
  | nil => exact ⟨[], s, cbcBlocks_nil .., hs, rfl, fun u _ _ _ => ⟨u, cbcBlocks_nil ..⟩⟩
  | cons x xs ih =>
    obtain ⟨y, t, henc, ht, hdec⟩ := cbcBlock_roundTrip maps x hs
    obtain ⟨ys, t', hencs, ht', hlen, hdecs⟩ := ih ht
    refine ⟨y :: ys, t', cbcBlocks_cons maps henc hencs, ht', congrArg (· + 1) hlen,
      fun u hu hkey hchain => ?_⟩
    obtain ⟨v, hv, hidle, hkey', hchain'⟩ := hdec u hu hkey hchain
    obtain ⟨v', hv'⟩ := hdecs v hidle hkey' hchain'
    exact ⟨v', cbcBlocks_cons maps hv hv'⟩

/-- `decrypt` of at least one whole block: the blocks through the device, and then the padding off
(46_cipher.md R205). -/
theorem hostDecrypt_of_cbcBlocks {ys : List (Vector Byte 8)} {key : Vector Byte 32}
    {iv : Vector Byte 8} {s t : State} {pt' pt : List Byte} (hne : ys.length ≠ 0)
    (hblocks : cbcBlocks maps (encode .cbcdec) ys (loadCipher maps key iv s) = .ok (pt', t))
    (hpad : unpad pt' = some pt) :
    hostDecrypt maps (joinBlocks ys) key iv s = .ok (pt, t) := by
  have hlen : ¬ ((joinBlocks ys).length = 0 ∨ (joinBlocks ys).length % 8 ≠ 0) := by
    rw [length_joinBlocks]; omega
  simp only [hostDecrypt, if_neg hlen, chunks8_joinBlocks, hblocks, bind, Except.bind, pure,
    Except.pure, hpad]

end

/-- Settles O38: both procedures load the same `KEY` and `CHAIN` and then send the blocks of the
padded byte string, and of its ciphertext, through the device. -/
theorem cipherRoundTrip : Obligations.CipherRoundTrip := by
  intro maps key iv pt s hs
  obtain ⟨xs, hxs⟩ := exists_joinBlocks (pt.length / 8 + 1) (length_pad pt)
  have hload {u : State} (hu : u.busy = false) := loadCipher_idle maps key iv hu
  obtain ⟨ys, t, henc, ht, hlen, hdec⟩ :=
    cbcBlocks_roundTrip maps xs (s := loadCipher maps key iv s) (by rw [hload hs]; exact hs)
  obtain ⟨u, hu⟩ := hdec (loadCipher maps key iv t) (by rw [hload ht]; exact ht)
    (by rw [hload hs, hload ht]) (by rw [hload hs, hload ht])
  have hsize : 8 * xs.length = 8 * (pt.length / 8 + 1) := by
    rw [← length_joinBlocks, hxs, length_pad]
  refine ⟨joinBlocks ys, t, u, ?_, ?_, ?_⟩
  · rw [hostEncrypt, ← hxs, chunks8_joinBlocks]
    exact henc
  · rw [← hxs, length_joinBlocks, length_joinBlocks, hlen]
  · exact hostDecrypt_of_cbcBlocks maps (by omega) hu (by rw [hxs, unpad_pad])

end Sys2Proof.Machine
end

section
/-! PROOFS, control and moves. The words of the five commands, the word 0 as the only legal one of
opcode 0, the constants a selector names, and what the commands write (47_control.md R220 to
R224). -/

namespace Sys2Proof.Machine

open Sys2Proof.Safety

/-! ### The words -/

theorem decode_fmov (d s1 : FReg) : decode (commandWord 0x70 d s1 0 0) = .ok (.fmov d s1) :=
  decode_commandWord (op := 0x70#8) (s2 := 0) (s3 := 0) rfl rfl

theorem decode_curvec {sel : Sel} (hok : Sel.ok sel = true) (d : FReg) :
    decode (commandWord 0x71 d sel 0 0) = .ok (.curvec d sel) :=
  decode_commandWord (op := 0x71#8) (s1 := sel) (s2 := 0) (s3 := 0) hok rfl

theorem decode_pmov (d s1 : PReg) : decode (commandWord 0x72 d s1 0 0) = .ok (.pmov d s1) :=
  decode_commandWord (op := 0x72#8) (d := pointField d) (s1 := pointField s1) (s2 := 0) (s3 := 0)
    rfl (by simp only [encode, putP_eq_putF]; rfl)

theorem decode_pldg (d : PReg) : decode (commandWord 0x73 d 0 0 0) = .ok (.pldg d) :=
  decode_commandWord (op := 0x73#8) (d := pointField d) (s1 := 0) (s2 := 0) (s3 := 0) rfl
    (by simp only [encode, putP_eq_putF]; rfl)

/-- 30_encoding.md R96 (g). -/
theorem readSel_of_not_ok {sel : Sel} (hbad : Sel.ok sel = false) :
    readSel (putSel sel) = .error .selector := if_neg (by simp [putSel, hbad])

/-- The selector is the only field of the word that can be ill formed. -/
theorem decode_curvec_of_not_ok {sel : Sel} (hbad : Sel.ok sel = false) (d : FReg) :
    decode (commandWord 0x71 d sel 0 0) = .error .selector := by
  have hword : commandWord 0x71 d sel 0 0 = pack 0x71#8 (putF d) (putSel sel) 0 0 :=
    commandWord_eq_pack 0x71#8 (putF d) (putSel sel) 0 0
  rw [hword, decode_pack, decodeFields, readSel_of_not_ok hbad]
  rfl

/-! ### `NOP` -/

/-- Opcode 0 is the row of `NOP` alone (30_encoding.md R95). -/
theorem eq_nop_of_decode {w : Word32} {i : Instr} (hop : opField w = 0x00#8)
    (h : decode w = .ok i) : i = .nop := by
  obtain ⟨-, hfields⟩ := decode_eq_ok.1 h
  rw [hop] at hfields
  simp only [decodeFields, except_bind_eq_ok, except_pure_eq_ok] at hfields
  obtain ⟨-, -, -, -, -, -, -, -, hi⟩ := hfields
  exact hi.symm

/-- A legal word is the encoding of its command, and `NOP` is encoded as 0. -/
theorem decode_eq_nop_iff {w : Word32} : decode w = .ok .nop ↔ w = 0#32 := by
  refine ⟨fun h => ?_, fun h => h ▸ decodeEncodeRoundTrip .nop rfl⟩
  obtain ⟨-, henc⟩ := decodedCommandReencodes w .nop h
  exact henc.symm

/-- Completion alone changes no register (10_state.md R42). -/
theorem writesCipher_complete (s : State) :
    WritesCipher s.getKey s.blk s.chain s (s.complete .ok) :=
  writesCipher_set s s.key s.blk s.chain

/-- Completion sets `DONE`, which leaves `irq` to `IE` (60_exceptions.md R236). -/
theorem State.irq_complete (s : State) (code : ErrCode) : (s.complete code).irq = s.ie := by
  simp [State.irq]

/-- Settles O39: a legal word of opcode 0 is `NOP`, hence 0, and `NOP` is the completion alone. -/
theorem nopOnlyCompletes : Obligations.NopOnlyCompletes := by
  refine ⟨fun w => decode_eq_nop_iff, fun w hop hne ⟨i, h⟩ => ?_, fun s => ?_⟩
  · obtain rfl := eq_nop_of_decode hop h
    exact hne (decode_eq_nop_iff.1 h)
  · exact ⟨s.complete .ok, rfl, writesCipher_complete s, s.irq_complete .ok⟩

/-! ### The constants of the curve -/

/-- Every constant of an admissible curve fits a register (00_scope.md R9). -/
theorem curveConstant_lt {c : Curve} (hc : Config.Admissible c) {sel : Sel} {k : Nat}
    (h : curveConstant c sel = some k) : k < 2 ^ 256 := by
  have hmem := List.mem_of_getElem? h
  simp only [List.mem_cons, List.not_mem_nil, or_false] at hmem
  rcases hmem with rfl | rfl | rfl | rfl | rfl | rfl
  · exact hc.p_lt
  · exact hc.a_lt.trans hc.p_lt
  · exact hc.b_lt.trans hc.p_lt
  · exact hc.gx_lt.trans hc.p_lt
  · exact hc.gy_lt.trans hc.p_lt
  · exact hc.n_lt

/-- The result of `CURVEC` is the constant that the selector names, exactly. -/
theorem curveConstantResult_of_some {c : Curve} (hc : Config.Admissible c) {sel : Sel} {k : Nat}
    (h : curveConstant c sel = some k) :
    ∃ v : Word256, curveConstantResult c sel = .ok v ∧ v.toNat = k :=
  ⟨BitVec.ofNat 256 k, by rw [curveConstantResult, h],
    BitVec.toNat_ofNat k 256 ▸ Nat.mod_eq_of_lt (curveConstant_lt hc h)⟩

/-- The base point of an admissible curve is loaded exactly (47_control.md R224). -/
theorem toNat_base {c : Curve} (hc : Config.Admissible c) :
    c.base.x.toNat = c.gx ∧ c.base.y.toNat = c.gy :=
  ⟨Nat.mod_eq_of_lt (hc.gx_lt.trans hc.p_lt), Nat.mod_eq_of_lt (hc.gy_lt.trans hc.p_lt)⟩

/-- Settles O40: the selectors that the decoder accepts are those that name a constant, and on an
admissible curve each constant fits the register it is written to. -/
theorem curveConstantsAreLoaded : Obligations.CurveConstantsAreLoaded := by
  refine ⟨fun d sel s h => ?_, fun d sel h => ?_, fun d s => ?_⟩
  · obtain ⟨v, hv, hval⟩ := curveConstantResult_of_some Config.curve_admissible
      (List.getElem?_eq_getElem h : curveConstant Config.curve sel = _)
    have hexec : exec (.curvec d sel) s = .next (s.commitF d (.ok v)) := by rw [← hv]; rfl
    exact ⟨decode_curvec (decide_eq_true (Nat.le_of_lt_succ h)) d, _, v, hexec,
      writesF_setF s d v, hval⟩
  · exact decode_curvec_of_not_ok (decide_eq_false (Nat.not_le.2 h)) d
  · obtain ⟨hx, hy⟩ := toNat_base Config.curve_admissible
    exact ⟨decode_pldg d, _, Config.curve.base, rfl, writesP_setP s d _, rfl, hx, hy⟩

/-! ### The moves -/

/-- Settles O41: `PMOV` commits the source in its canonical form, which R23 gives case by case. -/
theorem movesCopyRegisters : Obligations.MovesCopyRegisters := by
  refine ⟨fun d s1 s => ⟨decode_fmov d s1, _, rfl, writesF_setF s d _⟩, fun d s1 s => ?_⟩
  refine ⟨decode_pmov d s1, _, rfl, fun hinf => ?_, fun hfin => ?_⟩
  · rw [Point.canonical_of_inf hinf]; exact writesP_setP s d _
  · rw [Point.canonical_of_finite hfin]; exact writesP_setP s d _

end Sys2Proof.Machine
end

section
/-! PROOFS, the interrupt output. What each agent's turn does to `irq`, which is `IE` and `DONE`:
only a completion and a write of `CTRL` can raise it (60_exceptions.md R236, R237). -/

namespace Sys2Proof.Machine

/-! ### What raises `irq`, operation by operation -/

/-- `irq` is `CTRL.IE AND STATUS.DONE` (60_exceptions.md R236). -/
theorem State.irq_eq_true_iff {s : State} : s.irq = true ↔ s.ie = true ∧ s.done = true := by
  rw [State.irq, Bool.and_eq_true]

/-- Acceptance clears `DONE`, and `irq` with it. -/
@[simp] theorem State.accept_irq (s : State) (w : Word32) : (s.accept w).irq = false :=
  Bool.and_false _

/-- A store of a data register's word leaves `irq` alone. -/
@[simp] theorem State.storeTarget_irq (s : State) (v : Word32) (t : Target) :
    (s.storeTarget v t).irq = s.irq := by
  cases t <;> rfl

/-- A write of `STATUS` can only clear `DONE`. -/
theorem State.irq_of_writeStatus_irq {s : State} {v : Word32} (h : (s.writeStatus v).irq = true) :
    s.irq = true := by
  obtain ⟨hie, hdone⟩ := State.irq_eq_true_iff.1 h
  rw [State.writeStatus_done, Bool.and_eq_true] at hdone
  exact State.irq_eq_true_iff.2 ⟨hie, hdone.1⟩

/-- A write of `CTRL` without `SRST` sets `irq` at once from bit 0 and `DONE`. -/
theorem State.writeCtrl_irq {v : Word32} (hsrst : v.getLsbD 1 = false) (s : State) :
    (s.writeCtrl v).irq = (v.getLsbD 0 && s.done) := by
  rw [State.writeCtrl, hsrst, if_neg Bool.false_ne_true, State.irq]

/-- After a write of `CTRL`, `irq` is 1 exactly if the write enabled it without a reset while `DONE`
was 1. -/
theorem State.writeCtrl_irq_eq_true_iff {s : State} {v : Word32} :
    (s.writeCtrl v).irq = true ↔
      v.getLsbD 0 = true ∧ v.getLsbD 1 = false ∧ s.done = true := by
  cases hsrst : v.getLsbD 1
  · simp [State.writeCtrl_irq hsrst]
  · simp [State.writeCtrl, hsrst, State.irq]

/-! ### The turns -/

/-- The only host write that raises `irq` is one of `CTRL` that enables it while `DONE` is 1. -/
theorem State.hostWrite_raises_irq {s : State} {off : Nat} {v : Word32} (hlow : s.irq = false)
    (hhigh : (s.hostWrite off v).irq = true) :
    locate off = .ctrl ∧ v.getLsbD 0 = true ∧ v.getLsbD 1 = false ∧ s.done = true := by
  have hnot : s.irq ≠ true := Bool.eq_false_iff.1 hlow
  rcases s.hostWrite_cases off v with
    ⟨hloc, e⟩ | ⟨-, e⟩ | ⟨-, -, e⟩ | ⟨-, -, e⟩ | ⟨-, -, e⟩ | ⟨-, e⟩ <;> rw [e] at hhigh
  · exact ⟨hloc, State.writeCtrl_irq_eq_true_iff.1 hhigh⟩
  · exact absurd (State.irq_of_writeStatus_irq hhigh) hnot
  · simp at hhigh
  · exact absurd hhigh hnot
  · exact absurd (s.storeTarget_irq v _ ▸ hhigh) hnot
  · exact absurd hhigh hnot

/-- With a command pending, the engine's turn performs it (10_state.md R42). -/
theorem engineTurn_of_pending {s : State} {w : Word32} (hp : s.pending = some w) :
    engineTurn s = perform w s := by
  simp only [engineTurn, hp]

/-- A performed word, legal or not, completes: nothing is pending, `DONE` is 1, `IE` is as before
(10_state.md R42). -/
theorem perform_completes {w : Word32} {s t : State} (h : perform w s = .next t) :
    t.pending = none ∧ t.done = true ∧ t.ie = s.ie := by
  unfold perform at h
  split at h
  next =>
    have hends := exec_next_endsWithin h
    exact ⟨State.busy_eq_false_iff.1 hends.busy, hends.done, hends.untouched.ie⟩
  next =>
    cases h
    exact ⟨rfl, rfl, rfl⟩

/-- An engine's turn that raises `irq` is a completion with `IE = 1`. -/
theorem engineTurn_raises_irq {s t : State} (h : engineTurn s = .next t) (hlow : s.irq = false)
    (hhigh : t.irq = true) :
    ∃ w, s.pending = some w ∧ t.pending = none ∧ t.done = true ∧ s.ie = true
      ∧ perform w s = .next t := by
  cases hp : s.pending with
  | none =>
    simp only [engineTurn, hp] at h
    cases h
    exact absurd hhigh (Bool.eq_false_iff.1 hlow)
  | some w =>
    rw [engineTurn_of_pending hp] at h
    obtain ⟨hpend, hdone, hie⟩ := perform_completes h
    obtain ⟨hien, -⟩ := State.irq_eq_true_iff.1 hhigh
    exact ⟨w, rfl, hpend, hdone, hie ▸ hien, h⟩

/-- An item from outside that raises `irq` is the engine's turn, or a write of `CTRL` that enables it
while `DONE` is 1. -/
theorem takeInput_raises_irq {x : Input} {s t : State} (h : takeInput x s = .next t)
    (hlow : s.irq = false) (hhigh : t.irq = true) :
    (x = .engine ∧ engineTurn s = .next t)
      ∨ ∃ v, x = .write 4 0x004 v ∧ v.getLsbD 0 = true ∧ v.getLsbD 1 = false ∧ s.done = true := by
  rcases takeInput_cases h with
    ⟨_, off, -, -, rfl⟩ | ⟨width, off, v, rfl, hbus, rfl⟩ | ⟨-, rfl⟩ | ⟨rfl, he⟩
  · exact absurd hhigh (Bool.eq_false_iff.1 hlow)
  · obtain ⟨hloc, hbits⟩ := State.hostWrite_raises_irq hlow hhigh
    obtain ⟨rfl, halign, -⟩ := busFault_none.1 hbus
    obtain ⟨hlo, hhi⟩ := locate_ctrl hloc
    obtain rfl : off = 0x004 := by omega
    exact .inr ⟨v, rfl, hbits⟩
  · cases hhigh
  · exact .inl ⟨rfl, he⟩

/-- Settles O60, by the agent whose turn the step is. -/
theorem irqFollowsDoneAndEnable : Obligations.IrqFollowsDoneAndEnable := by
  refine ⟨fun s => State.irq_eq_true_iff, fun s t hstep hlow hhigh => ?_, fun s v hsrst => ?_,
    fun s t w hp hturn => ?_⟩
  · rcases step_cases hstep with ⟨hnil, he⟩ | ⟨x, rest, hcons, hx⟩
    · obtain ⟨w, hp, hpend, hdone, hie, hperf⟩ := engineTurn_raises_irq he hlow hhigh
      exact .inl ⟨w, hp, hpend, hdone, hie, .inl ⟨hnil, hperf⟩⟩
    · rcases takeInput_raises_irq hx hlow hhigh with ⟨rfl, he⟩ | ⟨v, rfl, hbits⟩
      · obtain ⟨w, hp, hpend, hdone, hie, hperf⟩ := engineTurn_raises_irq he hlow hhigh
        exact .inl ⟨w, hp, hpend, hdone, hie, .inr ⟨rest, hcons, hperf⟩⟩
      · exact .inr ⟨rest, v, hcons, hbits⟩
  · exact ⟨_, takeInput_write_ctrl v s, State.writeCtrl_irq hsrst s⟩
  · rw [engineTurn_of_pending hp] at hturn
    obtain ⟨-, hdone, hie⟩ := perform_completes hturn
    exact ⟨hdone, by rw [State.irq, hdone, hie, Bool.and_true]⟩

end Sys2Proof.Machine
end

section
/-! PROOFS, resets and hazards. What a write of `CTRL` does, how a pending command ends, how
`HAZ` is set and cleared, and what the registers' reset values make of the commands
(70_reset_and_hazards.md R261, R262, R264, R271, R275). -/

namespace Sys2Proof.Machine

open Sys2Proof.Safety

/-! ### `CTRL` and `STATUS` -/

/-- The bits of `CTRL`: `IE` in bit 0, `SRST` and the reserved bits 0 (10_state.md R31). -/
theorem State.getLsbD_ctrlWord (s : State) (i : Nat) :
    s.ctrlWord.getLsbD i = if i = 0 then s.ie else false := by
  rw [State.ctrlWord, BitVec.getLsbD_append, BitVec.getLsbD_ofBool, BitVec.getLsbD_zero]
  by_cases hi : i = 0 <;> simp [hi]

theorem State.writeCtrl_of_srst {v : Word32} (hsrst : v.getLsbD 1 = true) (s : State) :
    s.writeCtrl v = s.softReset := if_pos hsrst

theorem State.writeCtrl_of_not_srst {v : Word32} (hsrst : v.getLsbD 1 = false) (s : State) :
    s.writeCtrl v = { s with ie := v.getLsbD 0 } := if_neg (Bool.eq_false_iff.1 hsrst)

/-- `CTRL` is at one defined offset. -/
theorem eq_of_locate_ctrl {off : Nat} (halign : off % 4 = 0) (hloc : locate off = .ctrl) :
    off = 0x004 := by
  have hrange := locate_ctrl hloc
  omega

/-- `STATUS` is at one defined offset. -/
theorem eq_of_locate_status {off : Nat} (halign : off % 4 = 0) (hloc : locate off = .status) :
    off = 0x008 := by
  have hrange := locate_status hloc
  omega

/-- Settles O46: `SRST` is the soft reset, whose registers O44 gives; without it the write is
of `IE` alone. -/
theorem ctrlWriteResetsOrStoresIe : Obligations.CtrlWriteResetsOrStoresIe := by
  intro s v
  refine ⟨fun hsrst => ⟨s.softReset, ?_, ?_⟩, fun hie => ?_, ?_⟩
  · rw [takeInput_write_ctrl, State.writeCtrl_of_srst hsrst]
  · obtain ⟨hf, hp, hkey, hblk, hchain, hlen, hctrl, hstatus, hcmd, hpend, hirq, -⟩ :=
      hasResetValues_softReset s
    exact ⟨hf, hp, hkey, hblk, hchain, hlen, hctrl, hstatus, hcmd, hpend, hirq, fun _ => rfl⟩
  · rw [takeInput_write_ctrl, State.writeCtrl_of_not_srst hie]
  · obtain ⟨t, ht, hans⟩ := takeInput_read_control (off := 0x004) rfl rfl s
    exact ⟨t, _, ht, hans, s.getLsbD_ctrlWord⟩

/-! ### What the turns keep -/

/-- The engine's turn leaves alone what no command changes (10_state.md R36). -/
theorem engineTurn_untouched {s t : State} (h : engineTurn s = .next t) : Untouched s t := by
  rcases engineTurn_cases h with ⟨-, rfl⟩ | ⟨w, i, -, -, he⟩ | ⟨w, e, -, -, rfl⟩
  · exact ⟨fun _ => rfl, rfl, rfl, rfl, rfl, rfl, rfl, rfl, rfl, rfl⟩
  · exact (exec_next_endsWithin he).untouched
  · exact untouched_complete s .illegal

@[simp] theorem State.storeTarget_haz (s : State) (v : Word32) (tgt : Target) :
    (s.storeTarget v tgt).haz = s.haz := by
  cases tgt <;> rfl

@[simp] theorem State.storeTarget_inputs (s : State) (v : Word32) (tgt : Target) :
    (s.storeTarget v tgt).inputs = s.inputs := by
  cases tgt <;> rfl

@[simp] theorem State.writeCtrl_inputs (s : State) (v : Word32) :
    (s.writeCtrl v).inputs = s.inputs := by
  rw [State.writeCtrl]
  split <;> rfl

@[simp] theorem State.hostWrite_inputs (s : State) (off : Nat) (v : Word32) :
    (s.hostWrite off v).inputs = s.inputs := by
  rcases s.hostWrite_cases off v with ⟨-, e⟩ | ⟨-, e⟩ | ⟨-, -, e⟩ | ⟨-, -, e⟩ | ⟨-, -, e⟩ | ⟨-, e⟩
    <;> rw [e]
  · exact s.writeCtrl_inputs v
  · rfl
  · rfl
  · exact s.storeTarget_inputs v _

/-- An item from outside leaves the items after it alone. -/
theorem takeInput_inputs {x : Input} {s t : State} (h : takeInput x s = .next t) :
    t.inputs = s.inputs := by
  rcases takeInput_cases h with ⟨_, off, -, -, rfl⟩ | ⟨_, off, v, -, -, rfl⟩ | ⟨-, rfl⟩ | ⟨-, he⟩
  · rfl
  · exact s.hostWrite_inputs off v
  · rfl
  · exact (engineTurn_untouched he).inputs

/-! ### The end of a pending command (70_reset_and_hazards.md R262) -/

/-- The only host write that takes a pending command away is one of `CTRL` with `SRST`. -/
theorem State.hostWrite_ends_pending {s : State} {w : Word32} {off : Nat} {v : Word32}
    (hp : s.pending = some w) (hend : (s.hostWrite off v).pending ≠ some w) :
    locate off = .ctrl ∧ v.getLsbD 1 = true ∧ s.hostWrite off v = s.softReset := by
  have hbusy : s.busy ≠ false := by simp [State.busy, hp]
  rcases s.hostWrite_cases off v with
    ⟨hloc, e⟩ | ⟨-, e⟩ | ⟨-, hidle, -⟩ | ⟨-, -, e⟩ | ⟨-, hidle, -⟩ | ⟨-, e⟩
  · rw [e] at hend ⊢
    cases hsrst : v.getLsbD 1 with
    | true => exact ⟨hloc, rfl, State.writeCtrl_of_srst hsrst s⟩
    | false => rw [State.writeCtrl_of_not_srst hsrst] at hend; exact absurd hp hend
  · rw [e] at hend; exact absurd hp hend
  · exact absurd hidle hbusy
  · rw [e] at hend; exact absurd hp hend
  · exact absurd hidle hbusy
  · rw [e] at hend; exact absurd hp hend

/-- An item from outside that takes a pending command away is the engine's turn, which performs it,
or a reset. -/
theorem takeInput_ends_pending {x : Input} {s t : State} {w : Word32}
    (h : takeInput x s = .next t) (hp : s.pending = some w) (hend : t.pending ≠ some w) :
    (x = .engine ∧ perform w s = .next t) ∨ (x = .powerOn ∧ t = s.powerOnReset)
      ∨ ∃ v, x = .write 4 0x004 v ∧ v.getLsbD 1 = true ∧ t = s.softReset := by
  rcases takeInput_cases h with
    ⟨_, off, -, -, rfl⟩ | ⟨width, off, v, rfl, hbus, rfl⟩ | ⟨rfl, rfl⟩ | ⟨rfl, he⟩
  · exact absurd hp hend
  · obtain ⟨rfl, halign, -⟩ := busFault_none.1 hbus
    obtain ⟨hloc, hsrst, hreset⟩ := State.hostWrite_ends_pending hp hend
    obtain rfl := eq_of_locate_ctrl halign hloc
    exact .inr (.inr ⟨v, rfl, hsrst, hreset⟩)
  · exact .inr (.inl ⟨rfl, rfl⟩)
  · exact .inl ⟨rfl, engineTurn_of_pending hp ▸ he⟩

/-- Settles O47, by the agent whose turn the step is; the registers after a reset are those of the
reset state. -/
theorem onlyPerformOrResetEndsACommand : Obligations.OnlyPerformOrResetEndsACommand := by
  refine ⟨fun s t w hstep hp hend => ?_, fun s t ht => ?_⟩
  · rcases step_cases hstep with ⟨hnil, he⟩ | ⟨x, rest, hcons, hx⟩
    · exact .inl ⟨hnil, engineTurn_of_pending hp ▸ he⟩
    · have hp' : ({ s with inputs := rest } : State).pending = some w := hp
      rcases takeInput_ends_pending hx hp' hend with
        ⟨rfl, hperf⟩ | ⟨rfl, hreset⟩ | ⟨v, rfl, hsrst, hreset⟩
      · exact .inr (.inl ⟨rest, hcons, hperf⟩)
      · exact .inr (.inr (.inl ⟨rest, hcons, hreset⟩))
      · exact .inr (.inr (.inr ⟨rest, v, hcons, hsrst, hreset⟩))
  · simp only [List.mem_cons, List.not_mem_nil, or_false] at ht
    rcases ht with rfl | rfl <;>
      exact ⟨rfl, rfl, rfl, fun _ => rfl, fun _ => rfl, rfl, rfl, rfl⟩

/-! ### A pending command ends (70_reset_and_hazards.md R275) -/

/-- With nothing from outside waiting, one step leaves no command pending. -/
theorem step_idle_of_inputs_nil {s : State} (hnil : s.inputs = []) (hbusy : s.busy = true) :
    ∃ t, step s = .next t ∧ t.busy = false := by
  obtain ⟨w, hp⟩ := Option.isSome_iff_exists.1 hbusy
  obtain ⟨t, ht⟩ := engineTurn_next s
  obtain ⟨hpend, -⟩ := perform_completes (engineTurn_of_pending hp ▸ ht)
  exact ⟨t, step_of_inputs_nil hnil ▸ ht, State.busy_eq_false_iff.2 hpend⟩

theorem runSteps_succ {s t : State} (h : step s = .next t) (k : Nat) :
    runSteps (k + 1) s = runSteps k t := by
  simp only [runSteps, h]

theorem runSteps_one {s t : State} (h : step s = .next t) : runSteps 1 s = some t :=
  runSteps_succ h 0

/-- Settles O49, by induction on the items that wait: each step takes one, and when none is left the
engine performs the command. -/
theorem pendingCommandEndsInBoundedSteps : Obligations.PendingCommandEndsInBoundedSteps := by
  intro s
  induction hin : s.inputs generalizing s with
  | nil =>
    intro hbusy _
    obtain ⟨t, ht, hidle⟩ := step_idle_of_inputs_nil hin hbusy
    exact ⟨1, by simp, t, runSteps_one ht, hidle⟩
  | cons x rest ih =>
    intro _ hdef
    obtain ⟨hx, hrest⟩ := List.forall_mem_cons.1 hdef
    obtain ⟨t, ht⟩ := takeInput_defined hx { s with inputs := rest }
    have hstep : step s = .next t := by rw [step_of_inputs_cons hin, ht]
    cases hbusy : t.busy with
    | false => exact ⟨1, by simp, t, runSteps_one hstep, hbusy⟩
    | true =>
      obtain ⟨k, hk, u, hu, hidle⟩ := ih t (takeInput_inputs ht) hbusy hrest
      exact ⟨k + 1, by simpa using hk, u, by rw [runSteps_succ hstep, hu], hidle⟩

/-! ### `HAZ` (70_reset_and_hazards.md R271) -/

/-- A data offset is a defined one, and a data register is there. -/
theorem dataOffset_defined {off : Nat} (h : DataOffset off) :
    (off % 4 = 0 ∧ off < 0x2000) ∧ (locate off).isData = true := by
  have hoff : off % 4 = 0 ∧ off < 0x2000 := by
    unfold DataOffset at h
    omega
  obtain ⟨halign, hlt⟩ := hoff
  exact ⟨⟨halign, hlt⟩, (locate_isData halign hlt).2 h⟩

/-- The only host writes that clear `HAZ` are one of `STATUS` with bit 2 and one of `CTRL` with
`SRST`. -/
theorem State.hostWrite_clears_haz {s : State} {off : Nat} {v : Word32} (hhaz : s.haz = true)
    (hclear : (s.hostWrite off v).haz = false) :
    (locate off = .status ∧ v.getLsbD 2 = true) ∨ (locate off = .ctrl ∧ v.getLsbD 1 = true) := by
  have hnot : s.haz ≠ false := by simp [hhaz]
  rcases s.hostWrite_cases off v with
    ⟨hloc, e⟩ | ⟨hloc, e⟩ | ⟨-, -, e⟩ | ⟨-, -, e⟩ | ⟨-, -, e⟩ | ⟨-, e⟩ <;> rw [e] at hclear
  · cases hsrst : v.getLsbD 1 with
    | true => exact .inr ⟨hloc, rfl⟩
    | false => rw [State.writeCtrl_of_not_srst hsrst] at hclear; exact absurd hclear hnot
  · exact .inl ⟨hloc, by simpa [State.writeStatus, hhaz] using hclear⟩
  · exact absurd hclear hnot
  · cases hclear
  · exact absurd (s.storeTarget_haz v _ ▸ hclear) hnot
  · exact absurd hclear hnot

/-- An item from outside that clears `HAZ` is such a write, or a power-on reset. -/
theorem takeInput_clears_haz {x : Input} {s t : State} (h : takeInput x s = .next t)
    (hhaz : s.haz = true) (hclear : t.haz = false) :
    (∃ v, x = .write 4 0x008 v ∧ v.getLsbD 2 = true)
      ∨ (∃ v, x = .write 4 0x004 v ∧ v.getLsbD 1 = true) ∨ x = .powerOn := by
  have hnot : s.haz ≠ false := by simp [hhaz]
  rcases takeInput_cases h with
    ⟨_, off, -, -, rfl⟩ | ⟨width, off, v, rfl, hbus, rfl⟩ | ⟨rfl, -⟩ | ⟨-, he⟩
  · exact absurd hclear hnot
  · obtain ⟨rfl, halign, -⟩ := busFault_none.1 hbus
    rcases State.hostWrite_clears_haz hhaz hclear with ⟨hloc, hbit⟩ | ⟨hloc, hbit⟩
    · obtain rfl := eq_of_locate_status halign hloc
      exact .inl ⟨v, rfl, hbit⟩
    · obtain rfl := eq_of_locate_ctrl halign hloc
      exact .inr (.inl ⟨v, rfl, hbit⟩)
  · exact .inr (.inr rfl)
  · exact absurd ((engineTurn_untouched he).haz ▸ hclear) hnot

/-- Settles O50: the write by what is at its offset, and the stickiness by the agent whose turn the
step is. -/
theorem busyWritesAreDropped : Obligations.BusyWritesAreDropped := by
  refine ⟨fun s off v hbusy hoff => ⟨?_, rfl⟩, fun s t hstep hhaz => ?_⟩
  · rcases hoff with hdata | rfl
    · obtain ⟨hdef, hloc⟩ := dataOffset_defined hdata
      rw [takeInput_write hdef, State.hostWrite_data_busy v hbusy hloc]
    · rw [takeInput_write_cmd, if_pos hbusy]
  · cases hclear : t.haz with
    | true => exact .inl rfl
    | false =>
      rcases step_cases hstep with ⟨-, he⟩ | ⟨x, rest, hcons, hx⟩
      · rw [(engineTurn_untouched he).haz, hhaz] at hclear
        cases hclear
      · rcases takeInput_clears_haz hx hhaz hclear with ⟨v, rfl, hbit⟩ | ⟨v, rfl, hbit⟩ | rfl
        · exact .inr (.inl ⟨rest, v, hcons, hbit⟩)
        · exact .inr (.inr (.inl ⟨rest, v, hcons, hbit⟩))
        · exact .inr (.inr (.inr ⟨rest, hcons⟩))

/-! ### Commands on registers at their reset values (70_reset_and_hazards.md R264) -/

/-- The commands that read a modulus, from `F[s3]` (41_field.md R115, R117). -/
def modulusCommands (d s1 s2 s3 : FReg) : List Instr :=
  [.modadd d s1 s2 s3, .modsub d s1 s2 s3, .modred d s1 s2 s3, .montmul d s1 s2 s3,
    .tomont d s1 s3, .frommont d s1 s3, .modmul d s1 s2 s3, .modexp d s1 s2 s3, .modinv d s1 s3]

/-- Each of the modulus commands writes the result of its class's check on `F[s3]`. -/
theorem exec_modulusCommands (s : State) {d s1 s2 s3 : FReg} {i : Instr}
    (hi : i ∈ modulusCommands d s1 s2 s3) :
    ∃ v, exec i s = .next (s.commitF d (reducerResult (s.getF s3) v))
      ∨ exec i s = .next (s.commitF d (montgomeryResult (s.getF s3) v)) := by
  simp only [modulusCommands, List.mem_cons, List.not_mem_nil, or_false] at hi
  rcases hi with rfl | rfl | rfl | rfl | rfl | rfl | rfl | rfl | rfl
  iterate 3 exact ⟨_, .inl rfl⟩
  iterate 6 exact ⟨_, .inr rfl⟩

section
variable {s : State}

/-- Both classes refuse the modulus 0. -/
theorem exec_zero_modulus_fails {d s1 s2 s3 : FReg} {i : Instr} (hm : s.getF s3 = 0#256)
    (hi : i ∈ modulusCommands d s1 s2 s3) :
    ∃ t, exec i s = .next t ∧ Fails .badModulus s t := by
  obtain ⟨v, h | h⟩ := exec_modulusCommands s hi <;> refine ⟨_, h, ?_⟩ <;> rw [hm]
  · rw [reducerResult_of_zero rfl]; exact fails_fail s _
  · rw [montgomeryResult_of_even rfl]; exact fails_fail s _

/-- Infinity and Infinity add up to Infinity. -/
theorem exec_ecadd_infinity {s1 s2 : PReg} (h1 : s.getP s1 = Point.infinity)
    (h2 : s.getP s2 = Point.infinity) (d : PReg) :
    ∃ t, exec (.ecadd d s1 s2) s = .next t ∧ WritesP d Point.infinity s t := by
  refine ⟨s.commitP d (ecAddResult Config.curve (s.getP s1) (s.getP s2)), rfl, ?_⟩
  rw [h1, h2, ecAddResult_of_fieldPoints rfl rfl, pointAdd_of_left_inf _ rfl,
    Point.canonical_of_inf rfl]
  exact writesP_setP s d _

/-- The scalar 0 is out of the range of private keys. -/
theorem exec_keygen_zero {s1 : FReg} (h1 : s.getF s1 = 0#256) (d : PReg) :
    ∃ t, exec (.keygen d s1) s = .next t ∧ Fails .invalidScalar s t := by
  refine ⟨s.commitP d (keygenResult Config.curve (s.getF s1)), rfl, ?_⟩
  have hout : inScalarRange Config.curve 0#256 = false :=
    inScalarRange_eq_false_iff.2 (.inl Nat.zero_lt_one)
  rw [h1, keygenResult_of_out_of_range hout]
  exact fails_fail s _

theorem State.message_of_msglen_zero (h : s.msglen = 0#32) : s.message = [] := by
  simp [State.message, h]

/-- A message of length 0 is hashed as the empty one. -/
theorem exec_hash_empty (h : s.msglen = 0#32) (d : FReg) :
    ∃ t, exec (.hash d) s = .next t ∧ WritesF d (digest Config.hash []) s t := by
  refine ⟨s.commitF d (hashResult Config.hash s), rfl, ?_⟩
  rw [hashResult_of_fits _ (by simp [h]), State.message_of_msglen_zero h]
  exact writesF_setF s d _

theorem State.key_eq_replicate {k : Word32} (h : ∀ i, s.getKey i = k) :
    s.key = Vector.replicate 8 k :=
  Vector.ext fun i hi => by rw [Vector.getElem_replicate]; exact h ⟨i, hi⟩

/-- The block 0 under the key of eight zero words. -/
theorem exec_benc_zero (hkey : ∀ i, s.getKey i = 0#32) (hblk : s.blk = 0#64) :
    ∃ t, exec .benc s = .next t
      ∧ WritesCipher (fun _ => 0#32)
          (encryptBlock Config.sbox (Vector.replicate 8 0#32) 0#64) s.chain s t := by
  refine ⟨s.commitBlk (encryptBlock Config.sbox s.key s.blk), rfl, ?_⟩
  rw [State.key_eq_replicate hkey, hblk, ← funext hkey]
  exact writesCipher_commitBlk s _

end

/-- Settles O45: each command on the reset values that O44 gives for the registers it reads. -/
theorem resetConsequences : Obligations.ResetConsequences := by
  intro s r hr
  obtain ⟨hresets, -⟩ := resetValues s
  obtain ⟨hf, hp, hkey, hblk, hchain, hlen, -⟩ := hresets r hr
  obtain ⟨t, ht, hbenc⟩ := exec_benc_zero hkey hblk
  rw [hchain] at hbenc
  exact ⟨fun d s1 s2 s3 i hi => exec_zero_modulus_fails (hf s3) hi,
    fun d s1 s2 => exec_ecadd_infinity (hp s1) (hp s2) d, fun d s1 => exec_keygen_zero (hf s1) d,
    fun d => exec_hash_empty hlen d, t, ht, hbenc⟩

end Sys2Proof.Machine
end
